-- ==== Sys2Proof/Word.lean ====
section
/-! DEFINITION. The bit-vector widths of the Huffman CORE (00_scope.md R5, R8): unsigned everywhere, bit 0 least significant. -/

namespace Sys2Proof

/-- A symbol or a stored byte: `SYM_W` = 8 bits (R5). -/
abbrev Byte := BitVec 8

/-- A command word, a response datum or a register read-out: 32 bits (R5, R81, R90). -/
abbrev Word := BitVec 32

/-- A node index: `IDX_W` = 9 bits (R5). -/
abbrev Idx := BitVec 9

/-- A frequency: `FREQ_W` = 32 bits, unsigned (R5, R22). -/
abbrev Count := BitVec 32

end Sys2Proof
end

