-- ==== Sys2Proof/Syntax.lean ====
section
/-! DEFINITION. The 21 commands of 30_encoding.md R83 with their operands (R81, R82), one constructor per row of
spec/opcode_table.json. An "instruction" of this hardware is a command (00_scope.md R4). -/

namespace Sys2Proof

/-- A command with its operands, each of the width of its field (R81). -/
inductive Instr where
  /-- R160. -/
  | nop
  /-- R161. -/
  | clear
  /-- R162. -/
  | inclr
  /-- R163. -/
  | inpush (imm8 : Byte)
  /-- R164. -/
  | pkclr
  /-- R165. -/
  | pkpush (imm8 : Byte)
  /-- R100. -/
  | freq
  /-- R104. -/
  | build
  /-- R120. -/
  | gendict
  /-- R130. -/
  | encode
  /-- R142. -/
  | decode
  /-- R143. -/
  | decodeb
  /-- R144. -/
  | decodel (imm24 : BitVec 24)
  /-- R166. -/
  | rdreg (r : BitVec 4)
  /-- R167. -/
  | rdin (imm24 : BitVec 24)
  /-- R168. -/
  | rdpk (imm24 : BitVec 24)
  /-- R169. -/
  | rdout (imm24 : BitVec 24)
  /-- R170. -/
  | rdfreq (sym : Byte)
  /-- R171: `w` is the 8-bit selector field, legal for 0 and 1. -/
  | rdnode (n : Idx) (w : BitVec 8)
  /-- R172: `w` is the 8-bit selector field, legal for 0 to 8. -/
  | rddict (sym : Byte) (w : BitVec 8)
  /-- R173. -/
  | rdnc (p : BitVec 9)
  deriving DecidableEq, Repr

end Sys2Proof
end

