-- ==== Sys2Proof/WellFormed.lean ====
section
/-! DEFINITION. Which terms of `Instr` are commands (30_encoding.md R81, R84): every operand fits its field by its type, and the
two selectors have a range narrower than their field. -/

namespace Sys2Proof

/-- The selector `w` of RDNODE must be 0 or 1 (R81, R84(c)). -/
def nodeSelectorOk (w : BitVec 8) : Bool := decide (w.toNat < 2)

/-- The selector `w` of RDDICT must be 0 to 8 (R81, R84(c)). -/
def dictSelectorOk (w : BitVec 8) : Bool := decide (w.toNat < 9)

/-- The command has an encoding that is not ILLEGAL (R84). -/
def Instr.wf : Instr → Bool
  | .rdnode _ w => nodeSelectorOk w
  | .rddict _ w => dictSelectorOk w
  | .nop | .clear | .inclr | .inpush _ | .pkclr | .pkpush _ | .freq | .build | .gendict | .encode | .decode | .decodeb
  | .decodel _ | .rdreg _ | .rdin _ | .rdpk _ | .rdout _ | .rdfreq _ | .rdnc _ => true

end Sys2Proof
end

