-- ==== Sys2Proof/Decode.lean ====
section
/-! DEFINITION. The command decoder, total on 32-bit words (30_encoding.md R81 to R87), and after it the encoder, written from the
same tables. -/

namespace Sys2Proof

/-- Why a word is ILLEGAL: the three cases (a), (b), (c) of R84. -/
inductive IllegalCause where
  /-- (a) the opcode is not one of the 21. -/
  | opcode
  /-- (b) a must-be-zero field is not zero. -/
  | mustBeZero
  /-- (c) the selector `w` is out of range. -/
  | selector
  deriving DecidableEq, Repr

/-- The decoder's verdict on a word: a command or Illegal (R87). -/
inductive Verdict where
  | instr (i : Instr)
  | illegal (cause : IllegalCause)
  deriving DecidableEq, Repr

/-- Bits 31:24, the opcode (R81). -/
def opcodeField (w : Word) : Byte := w.extractLsb' 24 8

/-- Bits 7:0: `imm8` or a symbol (R81 formats B, XD). -/
def imm8Field (w : Word) : Byte := w.extractLsb' 0 8

/-- Bits 3:0: a register number (R81 format R). -/
def regField (w : Word) : BitVec 4 := w.extractLsb' 0 4

/-- Bits 23:0: `imm24` (R81 format L). -/
def imm24Field (w : Word) : BitVec 24 := w.extractLsb' 0 24

/-- Bits 8:0: a position or a node index (R81 formats I, XN). -/
def idxField (w : Word) : BitVec 9 := w.extractLsb' 0 9

/-- Bits 23:16: the selector `w` (R81 formats XN, XD). -/
def selectorField (w : Word) : BitVec 8 := w.extractLsb' 16 8

/-- A command of a format whose only check is its must-be-zero field (R84(b)). -/
def checkZero (mbz : Bool) (i : Instr) : Verdict := if mbz then .instr i else .illegal .mustBeZero

/-- A command of a format with a must-be-zero field and a selector (R84(b), R84(c)). -/
def checkSelector (mbz sel : Bool) (i : Instr) : Verdict :=
  if mbz then (if sel then .instr i else .illegal .selector) else .illegal .mustBeZero

/-- Format N: bits 23:0 must be zero. -/
def formatN (w : Word) (i : Instr) : Verdict := checkZero (w.extractLsb' 0 24 == 0#24) i

/-- Format B: bits 23:8 must be zero. -/
def formatB (w : Word) (i : Instr) : Verdict := checkZero (w.extractLsb' 8 16 == 0#16) i

/-- Format R: bits 23:4 must be zero. -/
def formatR (w : Word) (i : Instr) : Verdict := checkZero (w.extractLsb' 4 20 == 0#20) i

/-- Format I: bits 23:9 must be zero. -/
def formatI (w : Word) (i : Instr) : Verdict := checkZero (w.extractLsb' 9 15 == 0#15) i

/-- Format XN: bits 15:9 must be zero and the selector 0 or 1. -/
def formatXN (w : Word) (i : Instr) : Verdict :=
  checkSelector (w.extractLsb' 9 7 == 0#7) (nodeSelectorOk (selectorField w)) i

/-- Format XD: bits 15:8 must be zero and the selector 0 to 8. -/
def formatXD (w : Word) (i : Instr) : Verdict :=
  checkSelector (w.extractLsb' 8 8 == 0#8) (dictSelectorOk (selectorField w)) i

/-- The opcode map of R83 with the formats of R81; format L has no field to check. -/
def decode (w : Word) : Verdict :=
  match opcodeField w with
  | 0x00#8 => formatN w .nop
  | 0x01#8 => formatN w .clear
  | 0x10#8 => formatN w .inclr
  | 0x11#8 => formatB w (.inpush (imm8Field w))
  | 0x12#8 => formatN w .pkclr
  | 0x13#8 => formatB w (.pkpush (imm8Field w))
  | 0x20#8 => formatN w .freq
  | 0x21#8 => formatN w .build
  | 0x30#8 => formatN w .gendict
  | 0x40#8 => formatN w .encode
  | 0x50#8 => formatN w .decode
  | 0x51#8 => formatN w .decodeb
  | 0x52#8 => .instr (.decodel (imm24Field w))
  | 0x60#8 => formatR w (.rdreg (regField w))
  | 0x61#8 => .instr (.rdin (imm24Field w))
  | 0x62#8 => .instr (.rdpk (imm24Field w))
  | 0x63#8 => .instr (.rdout (imm24Field w))
  | 0x64#8 => formatB w (.rdfreq (imm8Field w))
  | 0x65#8 => formatXN w (.rdnode (idxField w) (selectorField w))
  | 0x66#8 => formatXD w (.rddict (imm8Field w) (selectorField w))
  | 0x67#8 => formatI w (.rdnc (idxField w))
  | _ => .illegal .opcode

/-- The opcode of a command (R83), bits 31:24 of its word. -/
def opcodeOf : Instr → Byte
  | .nop => 0x00#8
  | .clear => 0x01#8
  | .inclr => 0x10#8
  | .inpush _ => 0x11#8
  | .pkclr => 0x12#8
  | .pkpush _ => 0x13#8
  | .freq => 0x20#8
  | .build => 0x21#8
  | .gendict => 0x30#8
  | .encode => 0x40#8
  | .decode => 0x50#8
  | .decodeb => 0x51#8
  | .decodel _ => 0x52#8
  | .rdreg _ => 0x60#8
  | .rdin _ => 0x61#8
  | .rdpk _ => 0x62#8
  | .rdout _ => 0x63#8
  | .rdfreq _ => 0x64#8
  | .rdnode _ _ => 0x65#8
  | .rddict _ _ => 0x66#8
  | .rdnc _ => 0x67#8

/-- The operand field of a command, bits 23:0 of its word (R81). -/
def operandOf : Instr → BitVec 24
  | .nop | .clear | .inclr | .pkclr | .freq | .build | .gendict | .encode | .decode | .decodeb => 0#24
  | .inpush b | .pkpush b | .rdfreq b => (0#16 ++ b : BitVec 24)
  | .decodel n | .rdin n | .rdpk n | .rdout n => n
  | .rdreg r => (0#20 ++ r : BitVec 24)
  | .rdnode n w => (w ++ (0#7 ++ n : BitVec 16) : BitVec 24)
  | .rddict b w => (w ++ (0#8 ++ b : BitVec 16) : BitVec 24)
  | .rdnc p => (0#15 ++ p : BitVec 24)

/-- The word of a command (R81, R83): the opcode above the operand field. -/
def encode (i : Instr) : Word := (opcodeOf i ++ operandOf i : BitVec 32)

/-- A word given by the opcode table's numbering of its bits: every bit at or above `nbits` is 0. -/
def tableWord (nbits w : Nat) : Word := BitVec.ofNat 32 (w % 2 ^ nbits)

/-- The instruction the decoder reads from a word in the opcode table's numbering; none where it is ILLEGAL. -/
def decodeTableWord (nbits w : Nat) : Option Instr :=
  match decode (tableWord nbits w) with
  | .instr i => some i
  | .illegal _ => none

end Sys2Proof
end

