-- ==== Sys2Proof/Config.lean ====
section
/-! DEFINITION. What is fixed for the machine: the constants of 00_scope.md R5 and the open parameters of R6.
No value of this hardware is left free: the machine is deterministic (00_scope.md section 7, point 6). -/

namespace Sys2Proof.Config

/-- `NIL`: the index value meaning "no node" (R5). -/
def nilIdx : Idx := 511#9

/-- `NODE_MAX`: the arena's entries, 2·256 − 1 (R5). -/
def nodeMax : Nat := 511

/-- `NC_MAX`: the node collection's capacity (R5). -/
def ncMax : Nat := 256

/-- `CODE_MAX`: the greatest code length in bits (R5). -/
def codeMax : Nat := 255

/-- The open parameters of R6: the capacities of IMEM, PMEM and OMEM in bytes.
`PORT_SIGNALLING`, the fourth, is read by no rule. -/
structure Params where
  inMax : Nat
  pkMax : Nat
  outMax : Nat
  deriving DecidableEq, Repr

/-- The constraints R6 puts on the parameters. -/
abbrev Params.Ok (p : Params) : Prop :=
  (1 ≤ p.inMax ∧ p.inMax ≤ 2 ^ 24 - 1) ∧ (1 ≤ p.pkMax ∧ p.pkMax ≤ 2 ^ 21 - 1) ∧
    (1 ≤ p.outMax ∧ p.outMax ≤ 2 ^ 24 - 1)

/-- The defaults R6 gives. -/
def Params.default : Params := { inMax := 65535, pkMax := 65535, outMax := 524280 }

end Sys2Proof.Config
end

