-- ==== Sys2Proof/Machine/State.lean ====
section
/-! DEFINITION. The architectural state of 10_state.md R20, the host's side of the port, the reset state of R40, and the reasons a step
of the MODEL can stop. A failed command is no stop: it is a next state with an error response (60_exceptions.md R201). -/

namespace Sys2Proof.Machine

/-- A tree node, the tagged variant R23 quotes; the fields a variant lacks read as R23 says (`nodeSym`, `nodeLeft`, `nodeRight`). -/
inductive Node where
  /-- kind 0. -/
  | leaf (sym : Byte) (freq : Count)
  /-- kind 1. -/
  | internal (freq : Count) (left right : Idx)
  deriving DecidableEq, Repr

/-- A dictionary entry (R27): `none` is the absent entry (0, 0, []), `some code` the entry (1, length of code, code). -/
abbrev DictEntry := Option (List Bool)

/-- FT: one 32-bit count per symbol (R22). -/
abbrev FreqTable := Vector Count 256

/-- DICT: one entry per symbol (R27). -/
abbrev Dictionary := Vector DictEntry 256

/-- The error kinds of 60_exceptions.md R200, codes 1 to 10 in order. -/
inductive ErrKind where
  | alloc
  | empty
  /-- Reserved, never raised (R210). -/
  | ioUnavail
  /-- Reserved, never raised (R209). -/
  | trailing
  | noCode
  | badBit
  | seq
  | halted
  | range
  | illegal
  deriving DecidableEq, Repr

/-- A response: code and data (30_encoding.md R90). -/
structure Response where
  code : BitVec 4
  data : Word
  deriving DecidableEq, Repr

/-- One move of the host (00_scope.md R11, 70_reset_and_hazards.md R230). -/
inductive HostEvent where
  /-- The host presents a command word (R80). -/
  | command (w : Word)
  /-- Hardware reset, `some w` when it comes while the command `w` is in progress, which is then abandoned (R230). -/
  | reset (abandoned : Option Word)
  deriving DecidableEq, Repr

/-- The state of R20. The length registers are the lengths of the lists (20_memory.md R66). -/
structure State where
  /-- IMEM (R21). -/
  imem : List Byte
  /-- FT (R22). -/
  ft : FreqTable
  /-- ARENA (R23). -/
  arena : List Node
  /-- NC (R25). -/
  nc : List Idx
  /-- ROOT (R26). -/
  root : Idx
  /-- DICT (R27). -/
  dict : Dictionary
  /-- PMEM (R29). -/
  pmem : List Byte
  /-- BIT_LEN (R29). -/
  bitLen : BitVec 24
  /-- OMEM (R31). -/
  omem : List Byte
  /-- DEC_CUR (R32). -/
  decCur : Idx
  /-- STATUS (R33). -/
  status : BitVec 8
  /-- ERR (R34). -/
  err : BitVec 11
  /-- LASTERR (R35). -/
  lastErr : BitVec 16
  /-- EINFO (R35). -/
  eInfo : BitVec 32
  /-- CAP_IN (R36). -/
  capIn : BitVec 32
  /-- CAP_PK (R36). -/
  capPk : BitVec 32
  /-- CAP_OUT (R36). -/
  capOut : BitVec 32
  /-- The model's own: the host's moves still to come (R12). DESIGN CHOICE, log entry 1. -/
  pending : List HostEvent
  /-- The model's own: the responses given so far, oldest first (R12). DESIGN CHOICE, log entry 1. -/
  responses : List Response
  deriving DecidableEq, Repr

/-- Why the model stops. Every reason needs a state that no run reaches (10_state.md R24, R29); none is an error of the hardware. -/
inductive Fault where
  /-- Raised by BUILD, GENDICT and the decodes on an internal read of ARENA at or beyond NODE_CNT, where no node exists (20_memory.md
  R66). Safe: the model stops where the spec defines nothing. -/
  | arenaIndex
  /-- Raised by GENDICT on a walk deeper than NODE_CNT nodes, which only a cyclic arena has (10_state.md R24(b)). Safe. -/
  | treeDepth
  /-- Raised by the decodes on a read of a PMEM bit at or beyond 8·PK_LEN (43_tree_decoder.md R140). Safe. -/
  | packedIndex
  deriving DecidableEq, Repr

/-- Instructions without a meaning. -/
inductive Refusal where
  /-- Raised by `exec` for an instruction that has no meaning yet; no arm raises it now. Safe. -/
  | notModelled (mnemonic : String)
  deriving DecidableEq, Repr

/-- How a helper of a command ends early: the command fails with an error of the spec, or the model faults. -/
inductive Stop where
  /-- `raise K(info)` (60_exceptions.md R201). -/
  | raised (kind : ErrKind) (info : Nat)
  | fault (f : Fault)
  deriving DecidableEq, Repr

/-- The outcome of a command or a step. -/
abbrev Result := Host.Outcome State Fault Refusal

/-- The state after hardware reset of a core with the capacities `p` (R40, R230), the host having done nothing yet. -/
def State.resetWith (p : Config.Params) : State where
  imem := []
  ft := Vector.replicate 256 0#32
  arena := []
  nc := []
  root := Config.nilIdx
  dict := Vector.replicate 256 none
  pmem := []
  bitLen := 0#24
  omem := []
  decCur := Config.nilIdx
  status := 0#8
  err := 0#11
  lastErr := 0#16
  eInfo := 0#32
  capIn := BitVec.ofNat 32 p.inMax
  capPk := BitVec.ofNat 32 p.pkMax
  capOut := BitVec.ofNat 32 p.outMax
  pending := []
  responses := []

/-- The state after reset with the default capacities of 00_scope.md R6. DESIGN CHOICE of the parameters, log entry 4. -/
def State.reset : State := State.resetWith Config.Params.default

end Sys2Proof.Machine
end

