-- ==== Sys2Proof/Machine/Flags.lean ====
section
/-! DEFINITION. The flags of STATUS (10_state.md R33) and the bits of ERR (R34). -/

namespace Sys2Proof.Machine

/-- The eight flags of R33. -/
inductive Flag where
  | ftValid
  | treeValid
  | dictValid
  | encValid
  | decValid
  | leafRoot
  | midTree
  | fatal
  deriving DecidableEq, Repr

/-- The bit of STATUS a flag stands in (R33). -/
def flagBit : Flag → Nat
  | .ftValid => 0
  | .treeValid => 1
  | .dictValid => 2
  | .encValid => 3
  | .decValid => 4
  | .leafRoot => 5
  | .midTree => 6
  | .fatal => 7

/-- The value of a flag in a STATUS word. -/
def getFlag (status : BitVec 8) (f : Flag) : Bool := status.getLsbD (flagBit f)

/-- A STATUS word with one flag set to `b`, the others kept. -/
def putFlag (status : BitVec 8) (f : Flag) (b : Bool) : BitVec 8 :=
  if b then status ||| (1#8 <<< flagBit f) else status &&& ~~~(1#8 <<< flagBit f)

/-- `STATUS.f`. -/
def State.flag (s : State) (f : Flag) : Bool := getFlag s.status f

/-- `STATUS.f <- b`. -/
def State.setFlag (s : State) (f : Flag) (b : Bool) : State := { s with status := putFlag s.status f b }

/-- The code of an error kind, which is also its bit of ERR (60_exceptions.md R200). -/
def errCode : ErrKind → BitVec 4
  | .alloc => 1#4
  | .empty => 2#4
  | .ioUnavail => 3#4
  | .trailing => 4#4
  | .noCode => 5#4
  | .badBit => 6#4
  | .seq => 7#4
  | .halted => 8#4
  | .range => 9#4
  | .illegal => 10#4

/-- The fatal kinds (R202). -/
def errFatal : ErrKind → Bool
  | .alloc | .empty => true
  | .ioUnavail | .trailing | .noCode | .badBit | .seq | .halted | .range | .illegal => false

/-- `ERR[K] <- 1`, sticky (R201). -/
def setErrBit (err : BitVec 11) (k : ErrKind) : BitVec 11 := err ||| (1#11 <<< (errCode k).toNat)

/-- `LASTERR <- (cmd[31:24] << 8) | K` (R201, 10_state.md R35). -/
def lastErrWord (op : Byte) (k : ErrKind) : BitVec 16 := (op ++ (0#4 ++ errCode k : BitVec 8) : BitVec 16)

end Sys2Proof.Machine
end

