-- ==== Sys2Proof/Machine/Ops.lean ====
section
/-! DEFINITION. The operations the commands share: responding, failing (`raise`, 60_exceptions.md R201), the gates of R205, reset,
and reads and writes of the element-addressed spaces (20_memory.md). -/

namespace Sys2Proof.Machine

/-! ## Responses and failures -/

/-- `respond(code, data)` (30_encoding.md R90). -/
def State.respond (s : State) (code : BitVec 4) (data : Word) : State :=
  { s with responses := s.responses ++ [{ code := code, data := data }] }

/-- A command that succeeds with the datum `data` (R90). -/
def succeed (data : Word) (s : State) : Result := .next (s.respond 0#4 data)

/-- The error record of `raise K(info)` for a command with opcode byte `op` (60_exceptions.md R201). -/
def State.recordError (s : State) (op : Byte) (k : ErrKind) (info : Nat) : State :=
  { s with
    err := setErrBit s.err k
    lastErr := lastErrWord op k
    eInfo := BitVec.ofNat 32 info
    status := if errFatal k then putFlag s.status .fatal true else s.status }

/-- `raise K(info)`, the one failure primitive (R201): the record, FATAL for the fatal kinds, and the response (K, 0). There is no
handler to enter and no return from it: the host sees the code (R201, R208). -/
def raise (op : Byte) (k : ErrKind) (info : Nat) (s : State) : Result :=
  .next ((s.recordError op k info).respond (errCode k) 0#32)

/-- The FATAL gate (R205 step 2, R207): HALTED while STATUS.FATAL = 1. -/
def unlessHalted (op : Byte) (s : State) (body : Result) : Result :=
  if s.flag .fatal then raise op .halted 0 s else body

/-- A required validity flag (R205 step 3, 70_reset_and_hazards.md R233): SEQ while it is 0. -/
def requireFlag (op : Byte) (f : Flag) (s : State) (body : Result) : Result :=
  if s.flag f then body else raise op .seq 0 s

/-- The end of a command whose helper may stop early: a raise is recorded on `onFail`, the state with the writes its rule lists on
failure (00_scope.md R9). -/
def complete {α : Type} (op : Byte) (onFail : State) (r : Except Stop α) (body : α → Result) : Result :=
  match r with
  | .ok a => body a
  | .error (.raised k info) => raise op k info onFail
  | .error (.fault f) => .fault f

/-- An ILLEGAL word: EINFO is the whole word (R84, R204, R205 step 1). -/
def rejectIllegal (w : Word) (s : State) : Result := raise (opcodeField w) .illegal w.toNat s

/-! ## Reset -/

/-- The reset state of the same core (R40, R231): the capacities are constants of the hardware, and the host's own list of moves and
record of responses are outside the core. -/
def State.toReset (s : State) : State :=
  { State.reset with
    capIn := s.capIn, capPk := s.capPk, capOut := s.capOut, pending := s.pending, responses := s.responses }

/-! ## Byte memories: IMEM, PMEM, OMEM (20_memory.md R60, R65, R66) -/

/-- The cells of a byte memory: exactly the indices below its length exist (R66). -/
def memCells (m : List Byte) : List Host.Cell := m.zipIdx.map fun c => (c.2, c.1)

/-- The canonical form of a cell list: the addresses are 0, 1, 2, …, none missing and none repeated (R66). -/
def Memory.wf (cells : List Host.Cell) : Bool := decide (cells.map Prod.fst = List.range cells.length)

/-- The byte at index `i`; none at or beyond the length, where no element exists (R65, R66). -/
def memRead (m : List Byte) (i : Nat) : Option Byte := m[i]?

/-- The memory with one byte appended at its length (R163, R165). -/
def memAppend (m : List Byte) (b : Byte) : List Byte := m ++ [b]

/-! ## FT and DICT: 256 entries indexed by a symbol (R22, R27) -/

/-- `FT[sym]`. -/
def ftRead (t : FreqTable) (sym : Byte) : Count := t[sym.toNat]'sym.isLt

/-- `FT[sym] <- c`. -/
def ftWrite (t : FreqTable) (sym : Byte) (c : Count) : FreqTable := t.set sym.toNat c sym.isLt

/-- `DICT[sym]`. -/
def dictRead (d : Dictionary) (sym : Byte) : DictEntry := d[sym.toNat]'sym.isLt

/-- `DICT[sym] <- e`. -/
def dictWrite (d : Dictionary) (sym : Byte) (e : DictEntry) : Dictionary := d.set sym.toNat e sym.isLt

/-- Every entry of FT zero. -/
def ftZero : FreqTable := Vector.replicate 256 0#32

/-- Every entry of DICT absent. -/
def dictAbsent : Dictionary := Vector.replicate 256 none

/-- `DICT[sym].code`: empty for an absent entry (R27). -/
def entryCode (e : DictEntry) : List Bool := e.getD []

/-- `DICT[sym].len`: 8 bits (R27). -/
def entryLen (e : DictEntry) : BitVec 8 := BitVec.ofNat 8 (entryCode e).length

/-! ## ARENA (10_state.md R23) -/

/-- `ARENA[n]`; a read at or beyond NODE_CNT is no read of the spec's (R66). -/
def nodeAt (arena : List Node) (n : Idx) : Except Stop Node :=
  match arena[n.toNat]? with
  | some nd => .ok nd
  | none => .error (.fault .arenaIndex)

/-- `kind`: true for 1, Internal. -/
def nodeIsInternal : Node → Bool
  | .leaf _ _ => false
  | .internal _ _ _ => true

/-- `sym`: 0 in an Internal. -/
def nodeSym : Node → Byte
  | .leaf sym _ => sym
  | .internal _ _ _ => 0#8

/-- `freq`. -/
def nodeFreq : Node → Count
  | .leaf _ f => f
  | .internal f _ _ => f

/-- `left`: NIL in a Leaf. -/
def nodeLeft : Node → Idx
  | .leaf _ _ => Config.nilIdx
  | .internal _ l _ => l

/-- `right`: NIL in a Leaf. -/
def nodeRight : Node → Idx
  | .leaf _ _ => Config.nilIdx
  | .internal _ _ r => r

/-! ## Bits (10_state.md R30, 30_encoding.md R89) -/

/-- `pbit(k) = (PMEM[k div 8] >> (7 − (k mod 8))) & 1` (R30); none at or beyond 8·PK_LEN. -/
def pbit (m : List Byte) (k : Nat) : Option Bool := (memRead m (k / 8)).map fun b => b.getLsbD (7 - k % 8)

/-- `pbit(k)`, `pbit(k + 1)`, …: `n` bits in ascending order (43_tree_decoder.md R140). -/
def readBits (m : List Byte) (k : Nat) : Nat → Except Stop (List Bool)
  | 0 => .ok []
  | n + 1 =>
    match pbit m k with
    | none => .error (.fault .packedIndex)
    | some b => do
      let rest ← readBits m (k + 1) n
      return b :: rest

/-- The first `n` bits of a bit string, the first in the most significant position, 0 where the string has ended. -/
def msbFirst : (n : Nat) → List Bool → BitVec n
  | 0, _ => 0#0
  | n + 1, bits => BitVec.cons (bits.headD false) (msbFirst n bits.tail)

/-- `ceil(n / 8)` (00_scope.md R8). -/
def bytesFor (n : Nat) : Nat := (n + 7) / 8

/-- `pack` (R89): byte j holds bits 8j to 8j + 7, bit 8j in bit 7, zero padding in the low-order positions. -/
def pack (bits : List Bool) : List Byte :=
  (List.range (bytesFor bits.length)).map fun j => msbFirst 8 (bits.drop (8 * j))

end Sys2Proof.Machine
end

