-- ==== Sys2Proof/Machine/BitEncoder.lean ====
section
/-! DEFINITION. huffman_bit_encoder (42_bit_encoder.md): ENCODE. -/

namespace Sys2Proof.Machine

/-- The first input byte without a code, and its index counted from `i` (R130 pass 1, R135). -/
def firstMissing (d : Dictionary) (i : Nat) : List Byte → Option (Byte × Nat)
  | [] => none
  | b :: rest => if (dictRead d b).isSome then firstMissing d (i + 1) rest else some (b, i)

/-- The bit string: each byte's code, in input order (R131). -/
def bitString (d : Dictionary) (input : List Byte) : List Bool := input.flatMap fun b => entryCode (dictRead d b)

/-- The bit string of ENCODE, or the error it raises: NOCODE before ALLOC (R130, R135). -/
def encodeBits (d : Dictionary) (input : List Byte) (pkMax : Nat) : Except Stop (List Bool) :=
  match firstMissing d 0 input with
  | some (b, i) => .error (.raised .noCode ((b.toNat <<< 24) ||| i))
  | none =>
    if bytesFor (bitString d input).length ≤ pkMax then .ok (bitString d input)
    else .error (.raised .alloc (bytesFor (bitString d input).length))

/-- The encoder's outputs emptied, as NOCODE and ALLOC leave them (R135). -/
def encodeEmptied (s : State) : State :=
  { s with pmem := [], bitLen := 0#24, status := putFlag s.status .encValid false }

/-- ENCODE (R130): SEQ without DICT_VALID. -/
def execEncode (s : State) : Result :=
  unlessHalted (opcodeOf .encode) s <|
    requireFlag (opcodeOf .encode) .dictValid s <|
      complete (opcodeOf .encode) (encodeEmptied s) (encodeBits s.dict s.imem s.capPk.toNat) fun bits =>
        succeed 0#32 { s with
          pmem := pack bits
          bitLen := BitVec.ofNat 24 bits.length
          status := putFlag s.status .encValid true }

end Sys2Proof.Machine
end

