-- ==== Sys2Proof/Machine/CodeDict.lean ====
section
/-! DEFINITION. huffman_code_dict_generator (41_code_dict_generator.md): GENDICT. -/

namespace Sys2Proof.Machine

/-- `walk(n, path)` (R120, R121), on a dictionary being filled: left before right, bit 0 for left and 1 for right. Children have
smaller indices than their parent (R109), so a walk of a tree is never deeper than NODE_CNT. -/
def walk (arena : List Node) : Nat → Idx → List Bool → Dictionary → Except Stop Dictionary
  | 0, _, _, _ => .error (.fault .treeDepth)
  | depth + 1, n, path, d => do
    match ← nodeAt arena n with
    | .leaf sym _ => return dictWrite d sym (some path)
    | .internal _ left right =>
      let d ← walk arena depth left (path ++ [false]) d
      walk arena depth right (path ++ [true]) d

/-- The dictionary of a tree (R120): a Leaf root gets the code "0" (R122). -/
def dictOf (arena : List Node) (root : Idx) : Except Stop Dictionary := do
  match ← nodeAt arena root with
  | .leaf sym _ => return dictWrite dictAbsent sym (some [false])
  | .internal _ _ _ => walk arena arena.length root [] dictAbsent

/-- GENDICT (R120): SEQ without TREE_VALID. -/
def execGendict (s : State) : Result :=
  unlessHalted (opcodeOf .gendict) s <|
    requireFlag (opcodeOf .gendict) .treeValid s <|
      complete (opcodeOf .gendict) s (dictOf s.arena s.root) fun d =>
        succeed 0#32 { s with dict := d, status := putFlag s.status .dictValid true }

end Sys2Proof.Machine
end

