-- ==== Sys2Proof/Machine/Operands.lean ====
section
/-! DEFINITION. What an operand names: a register number (10_state.md R36), an index into a space (20_memory.md R65), a word of a
node or of a dictionary entry (30_encoding.md R91, R92). Every operand is unsigned and zero-extended (R82). -/

namespace Sys2Proof.Machine

/-! ## Registers (10_state.md R36) -/

/-- IN_LEN, 24 bits (R21). -/
def State.inLen (s : State) : BitVec 24 := BitVec.ofNat 24 s.imem.length

/-- PK_LEN, 21 bits (R29). -/
def State.pkLen (s : State) : BitVec 21 := BitVec.ofNat 21 s.pmem.length

/-- OUT_LEN, 24 bits (R31). -/
def State.outLen (s : State) : BitVec 24 := BitVec.ofNat 24 s.omem.length

/-- NODE_CNT, 10 bits (R23). -/
def State.nodeCnt (s : State) : BitVec 10 := BitVec.ofNat 10 s.arena.length

/-- NC_SIZE, 9 bits (R25). -/
def State.ncSize (s : State) : BitVec 9 := BitVec.ofNat 9 s.nc.length

/-- `REG[r]` zero-extended to 32 bits, the table of R36; register 15 does not exist. -/
def regRead (s : State) (r : BitVec 4) : Option Word :=
  match r with
  | 0#4 => some (s.status.setWidth 32)
  | 1#4 => some (s.err.setWidth 32)
  | 2#4 => some (s.lastErr.setWidth 32)
  | 3#4 => some s.eInfo
  | 4#4 => some (s.inLen.setWidth 32)
  | 5#4 => some (s.bitLen.setWidth 32)
  | 6#4 => some (s.pkLen.setWidth 32)
  | 7#4 => some (s.outLen.setWidth 32)
  | 8#4 => some (s.root.setWidth 32)
  | 9#4 => some (s.nodeCnt.setWidth 32)
  | 10#4 => some (s.ncSize.setWidth 32)
  | 11#4 => some (s.decCur.setWidth 32)
  | 12#4 => some s.capIn
  | 13#4 => some s.capPk
  | 14#4 => some s.capOut
  | _ => none

/-! ## Read-outs -/

/-- A read-out that answers the datum, or RANGE with the operand as EINFO where nothing is there (20_memory.md R65, R204). -/
def readOut (op : Byte) (index : Nat) (datum : Option Word) (s : State) : Result :=
  match datum with
  | some d => succeed d s
  | none => raise op .range index s

/-- A byte in data[7:0], data[31:8] = 0 (30_encoding.md R93). -/
def byteDatum (b : Byte) : Word := b.setWidth 32

/-- Word 0 or word 1 of a node (R91). -/
def nodeWord (nd : Node) (w : BitVec 8) : Word :=
  if w = 0#8 then
    (BitVec.ofBool (nodeIsInternal nd) ++
      (0#3 ++ (nodeLeft nd ++ (nodeRight nd ++ (0#2 ++ nodeSym nd : BitVec 10) : BitVec 19) : BitVec 28) : BitVec 31) : BitVec 32)
  else nodeFreq nd

/-- Word 0 of a dictionary entry: valid in bit 31, len in bits 7:0 (R92). -/
def dictHeader (e : DictEntry) : Word :=
  (BitVec.ofBool e.isSome ++ (0#23 ++ entryLen e : BitVec 31) : BitVec 32)

/-- Word `w` of a dictionary entry: the header for 0, else code slice k = w − 1, its first bit in bit 31 (R92). -/
def dictWord (e : DictEntry) (w : BitVec 8) : Word :=
  if w = 0#8 then dictHeader e else msbFirst 32 ((entryCode e).drop (32 * (w.toNat - 1)))

/-- The bound of DECODEL: the limit when it does not exceed 8·PK_LEN (43_tree_decoder.md R144). -/
def bitLimit (s : State) (imm24 : BitVec 24) : Except Stop Nat :=
  if imm24.toNat ≤ 8 * s.pmem.length then .ok imm24.toNat else .error (.raised .range imm24.toNat)

end Sys2Proof.Machine
end

