-- ==== Sys2Proof/Machine/HostCommands.lean ====
section
/-! DEFINITION. The host commands of 44_host_commands.md: control, data load, read-out. -/

namespace Sys2Proof.Machine

/-! ## Control -/

/-- NOP (R160). -/
def execNop (s : State) : Result := succeed 0#32 s

/-- CLEAR (R161): exactly the reset state (R231). -/
def execClear (s : State) : Result := succeed 0#32 s.toReset

/-! ## Data load -/

/-- INCLR (R162). -/
def execInclr (s : State) : Result :=
  unlessHalted (opcodeOf .inclr) s (succeed 0#32 { s with imem := [] })

/-- INPUSH (R163): RANGE with the current length when IMEM is full. -/
def execInpush (imm8 : Byte) (s : State) : Result :=
  unlessHalted (opcodeOf (.inpush imm8)) s <|
    if s.imem.length = s.capIn.toNat then raise (opcodeOf (.inpush imm8)) .range s.imem.length s
    else succeed 0#32 { s with imem := memAppend s.imem imm8 }

/-- PKCLR (R164). -/
def execPkclr (s : State) : Result :=
  unlessHalted (opcodeOf .pkclr) s <|
    succeed 0#32 { s with pmem := [], bitLen := 0#24, status := putFlag s.status .encValid false }

/-- PKPUSH (R165): RANGE with the current length when PMEM is full; BIT_LEN becomes 8 times the new PK_LEN. -/
def execPkpush (imm8 : Byte) (s : State) : Result :=
  unlessHalted (opcodeOf (.pkpush imm8)) s <|
    if s.pmem.length = s.capPk.toNat then raise (opcodeOf (.pkpush imm8)) .range s.pmem.length s
    else
      succeed 0#32 { s with
        pmem := memAppend s.pmem imm8
        bitLen := BitVec.ofNat 24 (8 * (s.pmem.length + 1))
        status := putFlag s.status .encValid false }

/-! ## Read-out: accepted under FATAL, no flag checked -/

/-- RDREG (R166): register 15 is RANGE. -/
def execRdreg (r : BitVec 4) (s : State) : Result := readOut (opcodeOf (.rdreg r)) r.toNat (regRead s r) s

/-- RDIN (R167). -/
def execRdin (imm24 : BitVec 24) (s : State) : Result :=
  readOut (opcodeOf (.rdin imm24)) imm24.toNat ((memRead s.imem imm24.toNat).map byteDatum) s

/-- RDPK (R168). -/
def execRdpk (imm24 : BitVec 24) (s : State) : Result :=
  readOut (opcodeOf (.rdpk imm24)) imm24.toNat ((memRead s.pmem imm24.toNat).map byteDatum) s

/-- RDOUT (R169). -/
def execRdout (imm24 : BitVec 24) (s : State) : Result :=
  readOut (opcodeOf (.rdout imm24)) imm24.toNat ((memRead s.omem imm24.toNat).map byteDatum) s

/-- RDFREQ (R170). -/
def execRdfreq (sym : Byte) (s : State) : Result := succeed (ftRead s.ft sym) s

/-- RDNODE (R171). A selector above 1 makes the word ILLEGAL (R84(c)); the decoder never hands it on. -/
def execRdnode (n : Idx) (w : BitVec 8) (s : State) : Result :=
  if nodeSelectorOk w then
    readOut (opcodeOf (.rdnode n w)) n.toNat (s.arena[n.toNat]?.map fun nd => nodeWord nd w) s
  else rejectIllegal (encode (.rdnode n w)) s

/-- RDDICT (R172). A selector above 8 makes the word ILLEGAL (R84(c)); the decoder never hands it on. -/
def execRddict (sym : Byte) (w : BitVec 8) (s : State) : Result :=
  if dictSelectorOk w then succeed (dictWord (dictRead s.dict sym) w) s
  else rejectIllegal (encode (.rddict sym w)) s

/-- RDNC (R173). -/
def execRdnc (p : BitVec 9) (s : State) : Result :=
  readOut (opcodeOf (.rdnc p)) p.toNat (s.nc[p.toNat]?.map fun n => n.setWidth 32) s

end Sys2Proof.Machine
end

