-- ==== Sys2Proof/Machine/TreeBuilder.lean ====
section
/-! DEFINITION. huffman_tree_builder (40_tree_builder.md): FREQ, BUILD and the node collection. -/

namespace Sys2Proof.Machine

/-! ## FREQ -/

/-- `FT[b] <- FT[b] + 1` (R100). -/
def countByte (t : FreqTable) (b : Byte) : FreqTable := ftWrite t b (ftRead t b + 1#32)

/-- FREQ (R100). -/
def execFreq (s : State) : Result :=
  unlessHalted (opcodeOf .freq) s <|
    succeed 0#32 { s with ft := s.imem.foldl countByte ftZero, status := putFlag s.status .ftValid true }

/-! ## The node collection -/

/-- What BUILD rebuilds: ARENA and NC. -/
structure Builder where
  arena : List Node
  nc : List Idx
  deriving DecidableEq, Repr

/-- The number of positions q of `nc` with ARENA[NC[q]].freq ≤ `f` (R101). -/
def ncPosition (arena : List Node) (f : Count) : List Idx → Except Stop Nat
  | [] => .ok 0
  | q :: rest => do
    let nd ← nodeAt arena q
    let p ← ncPosition arena f rest
    return if (nodeFreq nd).toNat ≤ f.toNat then p + 1 else p

/-- `nc_insert(n)` (R101): after every entry of at most its frequency, before every entry of a greater one. -/
def ncInsert (b : Builder) (n : Idx) : Except Stop Builder := do
  let nd ← nodeAt b.arena n
  let p ← ncPosition b.arena (nodeFreq nd) b.nc
  return { b with nc := b.nc.take p ++ n :: b.nc.drop p }

/-- `nc_remove_min()` (R102): the head and the rest; EMPTY when none remain. -/
def ncRemoveMin : List Idx → Except Stop (Idx × List Idx)
  | [] => .error (.raised .empty 0)
  | r :: rest => .ok (r, rest)

/-- `NC[0]`, the head; EMPTY when there is none, as for a removal. -/
def ncHead : List Idx → Except Stop Idx
  | [] => .error (.raised .empty 0)
  | r :: _ => .ok r

/-- Appends a node to ARENA and inserts its index into NC (R104, R109). -/
def addNode (b : Builder) (nd : Node) : Except Stop Builder :=
  ncInsert { b with arena := b.arena ++ [nd] } (BitVec.ofNat 9 b.arena.length)

/-! ## BUILD -/

/-- One symbol of the seeding scan: a Leaf when its count is not 0 (R104 step 1, R105). -/
def seedSymbol (t : FreqTable) (b : Builder) (sym : Byte) : Except Stop Builder :=
  if 0 < (ftRead t sym).toNat then addNode b (.leaf sym (ftRead t sym)) else .ok b

/-- The symbols 0, 1, …, 255 in ascending order (R105). -/
def allSymbols : List Byte := (List.range 256).map (BitVec.ofNat 8)

/-- Step 1 of BUILD: one leaf per symbol present, in ascending symbol value (R104, R105). -/
def seed (t : FreqTable) : Except Stop Builder :=
  allSymbols.foldlM (seedSymbol t) { arena := [], nc := [] }

/-- One merge (R104 step 2, R106): the first removed becomes the left child, the second the right. -/
def mergeStep (b : Builder) : Except Stop Builder := do
  let (a, nc₁) ← ncRemoveMin b.nc
  let (c, nc₂) ← ncRemoveMin nc₁
  let left ← nodeAt b.arena a
  let right ← nodeAt b.arena c
  addNode { b with nc := nc₂ } (.internal (nodeFreq left + nodeFreq right) a c)

/-- `while NC_SIZE > 1: merge` (R104 step 2). Each merge lowers NC_SIZE by one (R103), so NC_SIZE rounds are enough (R245). -/
def mergeAll : Nat → Builder → Except Stop Builder
  | 0, b => .ok b
  | k + 1, b =>
    if 1 < b.nc.length then do
      let b' ← mergeStep b
      mergeAll k b'
    else .ok b

/-- The whole of BUILD after its prerequisite (R104): ARENA, NC and the root's index and node. -/
def buildTree (t : FreqTable) : Except Stop (Builder × Idx × Node) := do
  let seeded ← seed t
  let b ← if seeded.nc.length = 0 then .error (.raised .empty 0) else mergeAll seeded.nc.length seeded
  let root ← ncHead b.nc
  let nd ← nodeAt b.arena root
  return (b, root, nd)

/-- What BUILD clears at its start: TREE_VALID, DICT_VALID, LEAFROOT, the arena, the collection and ROOT (R104). -/
def buildCleared (s : State) : State :=
  { s with
    arena := [], nc := [], root := Config.nilIdx
    status := putFlag (putFlag (putFlag s.status .treeValid false) .dictValid false) .leafRoot false }

/-- BUILD (R104): SEQ without FT_VALID; EMPTY leaves the state as cleared (R108). The root stays in NC. -/
def execBuild (s : State) : Result :=
  unlessHalted (opcodeOf .build) s <|
    requireFlag (opcodeOf .build) .ftValid s <|
      complete (opcodeOf .build) (buildCleared s) (buildTree s.ft) fun (b, root, nd) =>
        succeed 0#32 { buildCleared s with
          arena := b.arena
          nc := b.nc
          root := root
          status := putFlag (putFlag (buildCleared s).status .leafRoot (!nodeIsInternal nd)) .treeValid true }

end Sys2Proof.Machine
end

