-- ==== Sys2Proof/Machine/TreeDecoder.lean ====
section
/-! DEFINITION. huffman_tree_decoder (43_tree_decoder.md): DECODE, DECODEB, DECODEL over one shared `decodeRun`. -/

namespace Sys2Proof.Machine

/-- The walk of an Internal root (R141): from `cur`, the symbols emitted and the position left. -/
def walkBits (arena : List Node) (root : Idx) : Idx → List Bool → Except Stop (List Byte × Idx)
  | cur, [] => .ok ([], cur)
  | cur, bit :: rest => do
    let nd ← nodeAt arena cur
    let next := if bit then nodeRight nd else nodeLeft nd
    match ← nodeAt arena next with
    | .leaf sym _ =>
      let (out, last) ← walkBits arena root root rest
      return (sym :: out, last)
    | .internal _ _ _ => walkBits arena root next rest

/-- The walk of a Leaf root (R141, R145): one symbol per 0 bit; BADBIT with the index of the first 1 bit. -/
def leafBits (sym : Byte) (bits : List Bool) : Except Stop (List Byte) :=
  match bits.findIdx? id with
  | some k => .error (.raised .badBit k)
  | none => .ok (bits.map fun _ => sym)

/-- The symbols that bits spell under a root, and the position the walk is left at (R141): a Leaf root never moves. -/
def decodeSymbols (arena : List Node) (root : Idx) (bits : List Bool) : Except Stop (List Byte × Idx) := do
  match ← nodeAt arena root with
  | .leaf sym _ => (leafBits sym bits).map fun out => (out, root)
  | .internal _ _ _ => walkBits arena root root bits

/-- The capacity test of every decode (R141, R148): ALLOC with the number of symbols when they are more than OUT_MAX. -/
def fitOutput (outMax : Nat) (r : List Byte × Idx) : Except Stop (List Byte × Idx) :=
  if r.1.length ≤ outMax then .ok r else .error (.raised .alloc r.1.length)

/-- The symbols of the first `n` bits of PMEM and the position the walk is left at, or the error it raises: BADBIT before ALLOC,
under either kind of root (R141, R148). -/
def decodeBits (s : State) (n : Nat) : Except Stop (List Byte × Idx) := do
  let bits ← readBits s.pmem 0 n
  let spelled ← decodeSymbols s.arena s.root bits
  fitOutput s.capOut.toNat spelled

/-- The decoder's outputs emptied, as BADBIT and ALLOC leave them (R141, R148). -/
def decodeEmptied (s : State) : State :=
  { s with
    omem := [], decCur := s.root
    status := putFlag (putFlag s.status .decValid false) .midTree false }

/-- `decode_run(N)` (R141). -/
def decodeRun (op : Byte) (n : Nat) (s : State) : Result :=
  complete op (decodeEmptied s) (decodeBits s n) fun (out, cur) =>
    succeed 0#32 { s with
      omem := out
      decCur := cur
      status := putFlag (putFlag s.status .midTree (cur != s.root)) .decValid true }

/-- DECODE (R142): every bit of PMEM, padding included. -/
def execDecode (s : State) : Result :=
  unlessHalted (opcodeOf .decode) s <|
    requireFlag (opcodeOf .decode) .treeValid s <|
      decodeRun (opcodeOf .decode) (8 * s.pmem.length) s

/-- DECODEB (R143): BIT_LEN bits. -/
def execDecodeb (s : State) : Result :=
  unlessHalted (opcodeOf .decodeb) s <|
    requireFlag (opcodeOf .decodeb) .treeValid s <|
      decodeRun (opcodeOf .decodeb) s.bitLen.toNat s

/-- DECODEL (R144): SEQ, then RANGE above 8·PK_LEN, neither writing anything but the error record. -/
def execDecodel (imm24 : BitVec 24) (s : State) : Result :=
  unlessHalted (opcodeOf (.decodel imm24)) s <|
    requireFlag (opcodeOf (.decodel imm24)) .treeValid s <|
      complete (opcodeOf (.decodel imm24)) s (bitLimit s imm24) fun n =>
        decodeRun (opcodeOf (.decodel imm24)) n s

end Sys2Proof.Machine
end

