-- ==== Sys2Proof/Machine/Dispatch.lean ====
section
/-! DEFINITION. One arm per command: the meaning of each (30_encoding.md R83, last column). -/

namespace Sys2Proof.Machine

def exec (i : Instr) (s : State) : Host.Outcome State Fault Refusal :=
  match i with
  | .nop => Sys2Proof.Machine.execNop s
  | .clear => Sys2Proof.Machine.execClear s
  | .inclr => Sys2Proof.Machine.execInclr s
  | .inpush imm8 => Sys2Proof.Machine.execInpush imm8 s
  | .pkclr => Sys2Proof.Machine.execPkclr s
  | .pkpush imm8 => Sys2Proof.Machine.execPkpush imm8 s
  | .freq => Sys2Proof.Machine.execFreq s
  | .build => Sys2Proof.Machine.execBuild s
  | .gendict => Sys2Proof.Machine.execGendict s
  | .encode => Sys2Proof.Machine.execEncode s
  | .decode => Sys2Proof.Machine.execDecode s
  | .decodeb => Sys2Proof.Machine.execDecodeb s
  | .decodel imm24 => Sys2Proof.Machine.execDecodel imm24 s
  | .rdreg r => Sys2Proof.Machine.execRdreg r s
  | .rdin imm24 => Sys2Proof.Machine.execRdin imm24 s
  | .rdpk imm24 => Sys2Proof.Machine.execRdpk imm24 s
  | .rdout imm24 => Sys2Proof.Machine.execRdout imm24 s
  | .rdfreq sym => Sys2Proof.Machine.execRdfreq sym s
  | .rdnode n w => Sys2Proof.Machine.execRdnode n w s
  | .rddict sym w => Sys2Proof.Machine.execRddict sym w s
  | .rdnc p => Sys2Proof.Machine.execRdnc p s

end Sys2Proof.Machine
end

