-- ==== Sys2Proof/Machine/Step.lean ====
section
/-! DEFINITION. One step of the machine: perform the next command of the host (00_scope.md R11, 60_exceptions.md R205). -/

namespace Sys2Proof.Machine

/-- `step(cmd)` of R205 after the word is taken: ILLEGAL on the word alone, else the command's own checks and effect. -/
def perform (w : Word) (s : State) : Result :=
  match decode w with
  | .illegal _ => rejectIllegal w s
  | .instr i => exec i s

/-- The host's next move: nothing while it makes none (the core is idle, 70_reset_and_hazards.md R230), a reset, or a command. -/
def step (s : State) : Host.Outcome State Fault Refusal :=
  match s.pending with
  | [] => .next s
  | .reset _ :: rest => .next { s.toReset with pending := rest }
  | .command w :: rest => perform w { s with pending := rest }

/-- `s` with the word, in the opcode table's numbering, as the host's next command. The core fetches nothing (10_state.md R38). -/
def State.withFetchWord (s : State) (nbits w : Nat) : State :=
  { s with pending := .command (tableWord nbits w) :: s.pending }

end Sys2Proof.Machine
end

