-- ==== Sys2Proof/Safety.lean ====
section
/-! DEFINITION. The terms the claims are written in: what a step may change, walks in the tree, the invariants the spec lists
(10_state.md R24, R28, R29, R33, R42), and the words that are commands (30_encoding.md R84), none of them used by the machine. -/

namespace Sys2Proof.Safety

open Sys2Proof.Machine

/-! ## What a command changes -/

/-- The response list of `t` is that of `s` with one response more (30_encoding.md R90). -/
abbrev Answered (s t : State) (code : BitVec 4) (data : Word) : Prop :=
  t.responses = s.responses ++ [{ code := code, data := data }]

/-- Every flag of STATUS but those listed is unchanged. -/
abbrev FlagsKept (s t : State) (written : List Flag) : Prop := ∀ f, f ∉ written → t.flag f = s.flag f

/-- The command answers OK with the datum and changes nothing (44_host_commands.md, section 3). -/
abbrev Reads (i : Instr) (s : State) (data : Word) : Prop :=
  exec i s = .next { s with responses := s.responses ++ [{ code := 0#4, data := data }] }

/-- Two outcomes agree but for the opcode byte that LASTERR records. -/
def SameButLastErr : Result → Result → Prop
  | .next t, .next u => u = { t with lastErr := u.lastErr }
  | .fault f, .fault g => f = g
  | .refused a, .refused b => a = b
  | .next _, .fault _ | .next _, .refused _ | .fault _, .next _ | .fault _, .refused _ | .refused _, .next _
  | .refused _, .fault _ => False

/-- Every value of 10_state.md R40 but the capacities. -/
def AtReset (t : State) : Prop :=
  t.imem = [] ∧ (∀ sym, ftRead t.ft sym = 0#32) ∧ t.arena = [] ∧ t.nc = [] ∧ t.root = 511#9 ∧
    (∀ sym, dictRead t.dict sym = none) ∧ t.pmem = [] ∧ t.bitLen = 0#24 ∧ t.omem = [] ∧ t.decCur = 511#9 ∧
    (∀ f, t.flag f = false) ∧ t.status = 0#8 ∧ t.err = 0#11 ∧ t.lastErr = 0#16 ∧ t.eInfo = 0#32

/-- The eight read-out commands (44_host_commands.md, section 3). -/
def isReadOut : Instr → Bool
  | .rdreg _ | .rdin _ | .rdpk _ | .rdout _ | .rdfreq _ | .rdnode _ _ | .rddict _ _ | .rdnc _ => true
  | .nop | .clear | .inclr | .inpush _ | .pkclr | .pkpush _ | .freq | .build | .gendict | .encode | .decode | .decodeb
  | .decodel _ => false

/-- The three decode commands (43_tree_decoder.md). -/
abbrev IsDecode (i : Instr) : Prop := i = .decode ∨ i = .decodeb ∨ ∃ n, i = .decodel n

/-- A flag goes from 0 to 1. -/
abbrev Rises (s t : State) (f : Flag) : Prop := s.flag f = false ∧ t.flag f = true

/-- A flag goes from 1 to 0. -/
abbrev Falls (s t : State) (f : Flag) : Prop := s.flag f = true ∧ t.flag f = false

/-- A decode command that would emit `count` symbols, more than OUT_MAX: ALLOC, fatal, the outputs empty, the position at the root, nothing
else changed (43_tree_decoder.md R148). -/
def DecodeAllocs (i : Instr) (s : State) (count : Nat) : Prop :=
  ∃ t, exec i s = .next t ∧
    t = { s with
      omem := [], decCur := s.root, status := t.status, err := s.err ||| 2#11, lastErr := t.lastErr, eInfo := t.eInfo
      responses := s.responses ++ [{ code := 1#4, data := 0#32 }] } ∧
    t.lastErr.toNat = (opcodeOf i).toNat * 2 ^ 8 + 1 ∧ t.eInfo.toNat = count % 2 ^ 32 ∧ t.flag .fatal = true ∧
    t.flag .midTree = false ∧ t.flag .decValid = false ∧ FlagsKept s t [.fatal, .midTree, .decValid]

/-- The commands that FATAL gates (60_exceptions.md R207). -/
def isGated : Instr → Bool
  | .inclr | .inpush _ | .pkclr | .pkpush _ | .freq | .build | .gendict | .encode | .decode | .decodeb | .decodel _ => true
  | .nop | .clear | .rdreg _ | .rdin _ | .rdpk _ | .rdout _ | .rdfreq _ | .rdnode _ _ | .rddict _ _ | .rdnc _ => false

/-- The flag a command requires (70_reset_and_hazards.md R233). -/
def requiredFlag : Instr → Option Flag
  | .build => some .ftValid
  | .gendict | .decode | .decodeb | .decodel _ => some .treeValid
  | .encode => some .dictValid
  | .nop | .clear | .inclr | .inpush _ | .pkclr | .pkpush _ | .freq | .rdreg _ | .rdin _ | .rdpk _ | .rdout _ | .rdfreq _
  | .rdnode _ _ | .rddict _ _ | .rdnc _ => none

/-- The number of bits a decode command consumes (43_tree_decoder.md R142, R143, R144). -/
def bitsConsumed (s : State) : Instr → Option Nat
  | .decode => some (8 * s.pmem.length)
  | .decodeb => some s.bitLen.toNat
  | .decodel n => some n.toNat
  | .nop | .clear | .inclr | .inpush _ | .pkclr | .pkpush _ | .freq | .build | .gendict | .encode | .rdreg _ | .rdin _ | .rdpk _
  | .rdout _ | .rdfreq _ | .rdnode _ _ | .rddict _ _ | .rdnc _ => none

/-! ## Words that are commands -/

/-- The words R84 leaves legal, by arithmetic on the word's value: opcode, then the operand field of the opcode's format (R81, R83). -/
def legalWord (w : Word) : Bool :=
  let op := w.toNat / 2 ^ 24
  let operand := w.toNat % 2 ^ 24
  if op ∈ [0x00, 0x01, 0x10, 0x12, 0x20, 0x21, 0x30, 0x40, 0x50, 0x51] then operand == 0
  else if op ∈ [0x11, 0x13, 0x64] then decide (operand < 2 ^ 8)
  else if op = 0x60 then decide (operand < 2 ^ 4)
  else if op ∈ [0x52, 0x61, 0x62, 0x63] then true
  else if op = 0x65 then decide (operand / 2 ^ 16 < 2) && decide (operand % 2 ^ 16 < 2 ^ 9)
  else if op = 0x66 then decide (operand / 2 ^ 16 < 9) && decide (operand % 2 ^ 16 < 2 ^ 8)
  else if op = 0x67 then decide (operand < 2 ^ 9)
  else false

/-! ## Counts -/

/-- Σ FT[s] as a natural (10_state.md R43). -/
def ftTotal (t : FreqTable) : Nat := (t.toList.map BitVec.toNat).sum

/-- The symbols with a count above 0, in ascending order (40_tree_builder.md R105). -/
def presentSymbols (t : FreqTable) : List Byte := allSymbols.filter fun sym => decide (0 < (ftRead t sym).toNat)

/-! ## Walks in the tree -/

/-- The node reached from `n` by following branch bits through Internal nodes: false left, true right (41_code_dict_generator.md R121). -/
def follow (arena : List Node) : Idx → List Bool → Option Idx
  | n, [] => some n
  | n, b :: path =>
    match arena[n.toNat]? with
    | some (.internal _ l r) => follow arena (if b then r else l) path
    | some (.leaf _ _) => none
    | none => none

/-- The symbol of the Leaf reached from `n` along `path`. -/
def leafOn (arena : List Node) (n : Idx) (path : List Bool) : Option Byte :=
  match follow arena n path with
  | none => none
  | some m =>
    match arena[m.toNat]? with
    | some (.leaf sym _) => some sym
    | some (.internal _ _ _) => none
    | none => none

/-- `ARENA[n]` exists and is a Leaf. -/
def isLeafAt (arena : List Node) (n : Idx) : Bool :=
  match arena[n.toNat]? with
  | some (.leaf _ _) => true
  | some (.internal _ _ _) => false
  | none => false

/-- `ARENA[n]` exists and is an Internal. -/
def isInternalAt (arena : List Node) (n : Idx) : Bool :=
  match arena[n.toNat]? with
  | some (.leaf _ _) => false
  | some (.internal _ _ _) => true
  | none => false

/-- The frequency of the node an index names; only used of indices below NODE_CNT. -/
def freqOf (arena : List Node) (n : Idx) : Nat := ((arena[n.toNat]?).map fun nd => (nodeFreq nd).toNat).getD 0

/-- The concatenation of the codes of `xs` in the tree, symbol by symbol, is `bits` (42_bit_encoder.md R131, 43_tree_decoder.md R141). -/
abbrev Spells (arena : List Node) (root : Idx) (codes : List (List Bool)) (xs : List Byte) : Prop :=
  List.Forall₂ (fun code x => leafOn arena root code = some x) codes xs

/-- The code that consists only of 0 bits: its length `z` and its symbol; z = 1 under a Leaf root (43_tree_decoder.md R146). -/
abbrev ZeroCode (arena : List Node) (root : Idx) (z : Nat) (x : Byte) : Prop :=
  (isInternalAt arena root = true ∧ leafOn arena root (List.replicate z false) = some x) ∨
    (leafOn arena root [] = some x ∧ z = 1)

/-- `code` is the code the tree gives `sym`: its path, or "0" under a Leaf root (R121, R122). -/
abbrev IsCode (arena : List Node) (root : Idx) (sym : Byte) (code : List Bool) : Prop :=
  (isInternalAt arena root = true ∧ leafOn arena root code = some sym) ∨
    (leafOn arena root [] = some sym ∧ code = [false])

/-! ## The tree invariant (10_state.md R24, 40_tree_builder.md R106, R109) -/

/-- L, the number of Leaf nodes. -/
def leafCount (arena : List Node) : Nat := arena.countP fun nd => !nodeIsInternal nd

/-- The child indices of a node. -/
def children : Node → List Idx
  | .leaf _ _ => []
  | .internal _ l r => [l, r]

/-- The symbol of a node, if it is a Leaf. -/
def leafSym? : Node → Option Byte
  | .leaf sym _ => some sym
  | .internal _ _ _ => none

/-- The arena holds one strict binary tree with this root. -/
structure TreeWf (arena : List Node) (root : Idx) : Prop where
  /-- R24(c): NODE_CNT = 2L − 1. -/
  size : arena.length + 1 = 2 * leafCount arena
  /-- R24(c): L ≤ 256. -/
  leaves : leafCount arena ≤ 256
  /-- R109: the root is the last node. -/
  rootLast : root.toNat + 1 = arena.length
  /-- R109: the leaves come first. -/
  leavesFirst : ∀ (n : Nat) (nd : Node), arena[n]? = some nd → (nodeIsInternal nd = false ↔ n < leafCount arena)
  /-- R24(b): children have smaller indices than their parent and differ. -/
  childrenBelow : ∀ (n : Nat) (f : Count) (l r : Idx), arena[n]? = some (.internal f l r) → l.toNat < n ∧ r.toNat < n ∧ l ≠ r
  /-- R24(b): every node but the root is a child exactly once, the root never. -/
  oneParent : ∀ i : Idx, i.toNat < arena.length → (arena.flatMap children).count i = if i = root then 0 else 1
  /-- R24(e), R109: the leaf symbols ascend, so they are distinct. -/
  symsAscend : (arena.filterMap leafSym?).Pairwise fun a b => a.toNat < b.toNat
  /-- R24(f), R106: an Internal's frequency is the sum of its children's, the left one's not the greater. -/
  freqSum : ∀ (n : Nat) (f : Count) (l r : Idx) (nl nr : Node), arena[n]? = some (.internal f l r) → arena[l.toNat]? = some nl → arena[r.toNat]? = some nr →
    f.toNat = (nodeFreq nl).toNat + (nodeFreq nr).toNat ∧ (nodeFreq nl).toNat ≤ (nodeFreq nr).toNat

/-! ## The invariant of the machine -/

/-- What holds at every command boundary of a run from reset. -/
structure Inv (s : State) : Prop where
  /-- 00_scope.md R6. -/
  capIn : 1 ≤ s.capIn.toNat ∧ s.capIn.toNat ≤ 2 ^ 24 - 1
  capPk : 1 ≤ s.capPk.toNat ∧ s.capPk.toNat ≤ 2 ^ 21 - 1
  capOut : 1 ≤ s.capOut.toNat ∧ s.capOut.toNat ≤ 2 ^ 24 - 1
  /-- R21, R29, R31: every byte memory fits its capacity. -/
  imemFits : s.imem.length ≤ s.capIn.toNat
  pmemFits : s.pmem.length ≤ s.capPk.toNat
  omemFits : s.omem.length ≤ s.capOut.toNat
  /-- R29: PK_LEN = ceil(BIT_LEN / 8). -/
  pkLen : s.pmem.length = bytesFor s.bitLen.toNat
  /-- R29: the padding of an encoder's output is 0. -/
  padding : s.flag .encValid = true → ∀ k, s.bitLen.toNat ≤ k → k < 8 * s.pmem.length → pbit s.pmem k = some false
  /-- R42, R43: the counts sum to the length of some input. -/
  ftBound : ftTotal s.ft ≤ s.capIn.toNat
  /-- R22: FT is zero until a FREQ. -/
  ftUnset : s.flag .ftValid = false → s.ft = ftZero
  /-- R33: the flags' implications. -/
  dictNeedsTree : s.flag .dictValid = true → s.flag .treeValid = true
  treeNeedsFt : s.flag .treeValid = true → s.flag .ftValid = true
  leafRootNeedsTree : s.flag .leafRoot = true → s.flag .treeValid = true
  midTreeNeedsDec : s.flag .midTree = true → s.flag .decValid = true
  /-- R26, R33: ROOT ≠ NIL exactly under TREE_VALID. -/
  rootNil : s.flag .treeValid = true ↔ s.root ≠ Config.nilIdx
  /-- R104, R108: without a tree the arena and the collection are empty. -/
  noTree : s.flag .treeValid = false → s.arena = [] ∧ s.nc = []
  /-- R24. -/
  tree : s.flag .treeValid = true → TreeWf s.arena s.root
  /-- R25: the collection holds the root alone. -/
  ncRoot : s.flag .treeValid = true → s.nc = [s.root]
  /-- R33: LEAFROOT reports a Leaf root. -/
  leafRoot : s.flag .treeValid = true → s.flag .leafRoot = isLeafAt s.arena s.root
  /-- R27: every stored code, stale ones too, has 1 to 255 bits. -/
  codeLength : ∀ sym code, dictRead s.dict sym = some code → 1 ≤ code.length ∧ code.length ≤ Config.codeMax
  /-- R28: a valid dictionary is that of the tree. -/
  dictCurrent : s.flag .dictValid = true → dictOf s.arena s.root = .ok s.dict
  /-- R31, R33: without a completed decode the output is empty. -/
  outUnset : s.flag .decValid = false → s.omem = []
  /-- R34: bits 0, 3 and 4 of ERR read 0. -/
  errReserved : s.err.getLsbD 0 = false ∧ s.err.getLsbD 3 = false ∧ s.err.getLsbD 4 = false
  /-- R35: LASTERR[7:4] = 0. -/
  lastErrReserved : s.lastErr.extractLsb' 4 4 = 0#4
  /-- R207, R208: FATAL stands exactly while ERR shows an ALLOC or an EMPTY. -/
  fatalRecorded : s.flag .fatal = (s.err.getLsbD 1 || s.err.getLsbD 2)

end Sys2Proof.Safety
end

