-- ==== Sys2Proof/Certificates/Slice0/Obligations.lean ====
section
/-! DEFINITION. The statements for the provers, from the numbered rules of spec/. Each docstring names the rules. A rule cited by
number alone stands in the file INDEX.md gives its range. -/

open Sys2Proof Sys2Proof.Machine Sys2Proof.Safety

/-! ## Encoding -/

/-- R81, R83, R84(c): decoding the word of a command gives the command back, every operand at every value; a selector out of range
makes the word ILLEGAL. -/
def Obligations.DecodeOfEncode : Prop :=
  ∀ i : Instr, decode (encode i) = if i.wf then .instr i else .illegal .selector

/-- R87: every word has a verdict, a command of the table or Illegal, and two words never decode to the same command. -/
def Obligations.EveryWordHasOneVerdict : Prop :=
  (∀ w : Word, (∃ i : Instr, i.wf = true ∧ decode w = .instr i) ∨ ∃ c, decode w = .illegal c) ∧
    ∀ (w₁ w₂ : Word) (i : Instr), decode w₁ = .instr i → decode w₂ = .instr i → w₁ = w₂

/-- R84, R201, R204: the ILLEGAL words are exactly those of (a), (b), (c), and one raises ILLEGAL with EINFO = the word, in every state,
FATAL or not, changing nothing but the error record. -/
def Obligations.IllegalWordsAreRejected : Prop :=
  (∀ w : Word, (∃ c, decode w = .illegal c) ↔ legalWord w = false) ∧
    ∀ (s : State) (w : Word) (rest : List HostEvent), s.pending = .command w :: rest → legalWord w = false →
      step s = .next { s with
        pending := rest
        err := s.err ||| (1#11 <<< 10)
        lastErr := (w.extractLsb' 24 8 ++ 0x0A#8 : BitVec 16)
        eInfo := w
        responses := s.responses ++ [{ code := 10#4, data := 0#32 }] }

/-- 95_test_vectors.md section 2.1: a few words, legal and not. -/
def Obligations.SampleWordsDecode : Prop :=
  decode 0x00000000#32 = .instr .nop ∧ decode 0x110000FF#32 = .instr (.inpush 0xFF#8) ∧
    decode 0x21000000#32 = .instr .build ∧ decode 0x30000000#32 = .instr .gendict ∧ decode 0x40000000#32 = .instr .encode ∧
    decode 0x52FFFFFF#32 = .instr (.decodel 0xFFFFFF#24) ∧ decode 0x6000000F#32 = .instr (.rdreg 15#4) ∧
    decode 0x650001FF#32 = .instr (.rdnode 511#9 0#8) ∧ decode 0x66080061#32 = .instr (.rddict 0x61#8 8#8) ∧
    decode 0x00000001#32 = .illegal .mustBeZero ∧ decode 0x02000000#32 = .illegal .opcode ∧
    decode 0x65000200#32 = .illegal .mustBeZero ∧ decode 0x65020000#32 = .illegal .selector ∧
    decode 0x66090061#32 = .illegal .selector ∧ decode 0x67000200#32 = .illegal .mustBeZero

/-! ## The step -/

/-- R12, R205: when the host's next move is a word that decodes to a command, the step is that command's meaning on the state with the
word taken; the host's `withFetchWord` presents exactly such a word. -/
def Obligations.StepPerformsTheCommand : Prop :=
  (∀ (s : State) (w : Word) (rest : List HostEvent) (i : Instr), s.pending = .command w :: rest → decode w = .instr i →
      step s = exec i { s with pending := rest }) ∧
    ∀ (s : State) (i : Instr), i.wf = true → step (s.withFetchWord 32 (encode i).toNat) = exec i s

/-- R230, and log entries 2 and 11 (the model's choice): without a move of the host nothing changes; a hardware reset, also one that
abandons a command, leaves the reset state and gives no response. -/
def Obligations.IdleAndResetMoves : Prop :=
  (∀ s : State, s.pending = [] → step s = .next s) ∧
    ∀ (s : State) (a : Option Word) (rest : List HostEvent), s.pending = .reset a :: rest →
      step s = .next { State.resetWith ⟨s.capIn.toNat, s.capPk.toNat, s.capOut.toNat⟩ with
        pending := rest, responses := s.responses }

/-- R80, R90, R247: every command gets exactly one response and takes exactly one word; on failure the data is 0, on success it is 0
but for the read-outs; the code is one the table of R200 lets a command raise. -/
def Obligations.OneResponsePerCommand : Prop :=
  ∀ (s t : State) (w : Word) (rest : List HostEvent), s.pending = .command w :: rest → step s = .next t →
    t.pending = rest ∧ ∃ r : Response, t.responses = s.responses ++ [r] ∧ (r.code ≠ 0#4 → r.data = 0#32) ∧
      (r.code = 0#4 → ∃ i, decode w = .instr i ∧ (isReadOut i = false → r.data = 0#32)) ∧
      r.code ∈ [0#4, 1#4, 2#4, 5#4, 6#4, 7#4, 8#4, 9#4, 10#4]

/-! ## Reset and CLEAR -/

/-- R40: the state after hardware reset and, identically, after CLEAR, for every choice of the capacities that R6 allows. -/
def Obligations.ResetStateValues : Prop :=
  (∀ p : Config.Params, p.Ok → Safety.AtReset (State.resetWith p) ∧ (State.resetWith p).capIn.toNat = p.inMax ∧
      (State.resetWith p).capPk.toNat = p.pkMax ∧ (State.resetWith p).capOut.toNat = p.outMax) ∧
    (∀ s t : State, exec .clear s = .next t →
      Safety.AtReset t ∧ t.capIn = s.capIn ∧ t.capPk = s.capPk ∧ t.capOut = s.capOut) ∧
    ∀ (s t : State) (a : Option Word) (rest : List HostEvent), s.pending = .reset a :: rest → step s = .next t →
      Safety.AtReset t ∧ t.capIn = s.capIn ∧ t.capPk = s.capPk ∧ t.capOut = s.capOut

/-- R161, R231: CLEAR gives exactly the reset state, from any state, FATAL included, and answers OK. -/
def Obligations.ClearIsReset : Prop :=
  encode .clear = 0x01000000#32 ∧
    ∀ s : State, exec .clear s = .next { State.resetWith ⟨s.capIn.toNat, s.capPk.toNat, s.capOut.toNat⟩ with
      pending := s.pending, responses := s.responses ++ [{ code := 0#4, data := 0#32 }] }

/-! ## Errors -/

/-- R200, R201, R202, R35: what raise K(info) writes, and that it writes nothing else. -/
def Obligations.RaiseRecordsTheError : Prop :=
  ([.alloc, .empty, .ioUnavail, .trailing, .noCode, .badBit, .seq, .halted, .range, .illegal].map fun k => (errCode k).toNat)
      = [1, 2, 3, 4, 5, 6, 7, 8, 9, 10] ∧
    ∀ (op : Byte) (k : ErrKind) (info : Nat) (s : State), ∃ t, raise op k info s = .next t ∧
      t = { s with err := t.err, lastErr := t.lastErr, eInfo := t.eInfo, status := t.status, responses := t.responses } ∧
      (∀ j, t.err.getLsbD j = (s.err.getLsbD j || decide (j = (errCode k).toNat))) ∧
      t.lastErr.toNat = op.toNat * 2 ^ 8 + (errCode k).toNat ∧ t.eInfo.toNat = info % 2 ^ 32 ∧
      FlagsKept s t [.fatal] ∧ t.flag .fatal = (s.flag .fatal || decide (k = .alloc ∨ k = .empty)) ∧
      Answered s t (errCode k) 0#32

/-- R207: while FATAL = 1 the gated commands are refused with HALTED, and NOP, CLEAR and the RD* commands are not. -/
def Obligations.FatalGate : Prop :=
  ∀ (i : Instr) (s : State), s.flag .fatal = true →
    (isGated i = true → exec i s = raise (opcodeOf i) .halted 0 s) ∧
      (isGated i = false → ∃ t r, exec i s = .next t ∧ t.responses = s.responses ++ [r] ∧ r.code ≠ 8#4)

/-- R33 bit 7, R202, R207, R240: FATAL rises only by an ALLOC or an EMPTY of BUILD, ENCODE or a decode, and falls only by CLEAR or reset. -/
def Obligations.FatalRisesAndFallsOnlyByItsCauses : Prop :=
  ∀ s t : State, step s = .next t →
    (s.flag .fatal = false → t.flag .fatal = true → ∃ w rest i r, s.pending = .command w :: rest ∧ decode w = .instr i ∧
        (i = .build ∨ i = .encode ∨ i = .decode ∨ i = .decodeb ∨ ∃ n, i = .decodel n) ∧
        t.responses = s.responses ++ [r] ∧ (r.code = 1#4 ∨ r.code = 2#4)) ∧
      (s.flag .fatal = true → t.flag .fatal = false →
        ∃ rest, (∃ a, s.pending = .reset a :: rest) ∨ s.pending = .command 0x01000000#32 :: rest)

/-- R233, R205 step 3: a command whose required flag is 0 is refused with SEQ, before any check of its operand; a command without a
prerequisite never is. -/
def Obligations.MissingArtefactIsSeq : Prop :=
  ∀ (i : Instr) (s : State), s.flag .fatal = false →
    (∀ f, requiredFlag i = some f → s.flag f = false → exec i s = raise (opcodeOf i) .seq 0 s) ∧
      (requiredFlag i = none → ∃ t r, exec i s = .next t ∧ t.responses = s.responses ++ [r] ∧ r.code ≠ 7#4)

/-- R65: indices at or beyond a length and appends to a full space raise RANGE; FT and DICT have every index. -/
def Obligations.IndicesBeyondTheLengthAreRange : Prop :=
  ∀ s : State,
    (∀ n, s.imem.length ≤ n.toNat → exec (.rdin n) s = raise 0x61#8 .range n.toNat s) ∧
      (∀ n, s.pmem.length ≤ n.toNat → exec (.rdpk n) s = raise 0x62#8 .range n.toNat s) ∧
      (∀ n, s.omem.length ≤ n.toNat → exec (.rdout n) s = raise 0x63#8 .range n.toNat s) ∧
      (∀ n w, w.toNat < 2 → s.arena.length ≤ n.toNat → exec (.rdnode n w) s = raise 0x65#8 .range n.toNat s) ∧
      (∀ p, s.nc.length ≤ p.toNat → exec (.rdnc p) s = raise 0x67#8 .range p.toNat s) ∧
      (∀ b, s.flag .fatal = false → s.imem.length = s.capIn.toNat → exec (.inpush b) s = raise 0x11#8 .range s.imem.length s) ∧
      (∀ b, s.flag .fatal = false → s.pmem.length = s.capPk.toNat → exec (.pkpush b) s = raise 0x13#8 .range s.pmem.length s) ∧
      (∀ sym, ∃ d, Reads (.rdfreq sym) s d) ∧ ∀ sym w, w.toNat < 9 → ∃ d, Reads (.rddict sym w) s d

/-- R206: what each kind of failure leaves; everything not named is as before. -/
def Obligations.FailedCommandsLeaveTheirState : Prop :=
  ∀ (i : Instr) (s t : State) (r : Response), exec i s = .next t → t.responses = s.responses ++ [r] →
    (r.code ∈ [7#4, 8#4, 9#4, 10#4] →
        t = { s with err := t.err, lastErr := t.lastErr, eInfo := t.eInfo, responses := t.responses }) ∧
      (r.code = 2#4 → i = .build ∧ FlagsKept s t [.treeValid, .dictValid, .leafRoot, .fatal] ∧
        t.flag .treeValid = false ∧ t.flag .dictValid = false ∧ t.flag .leafRoot = false ∧ t.flag .fatal = true ∧
        t = { s with
          arena := [], nc := [], root := 511#9, status := t.status, err := t.err, lastErr := t.lastErr, eInfo := t.eInfo
          responses := t.responses }) ∧
      (r.code = 5#4 ∨ (r.code = 1#4 ∧ i = .encode) → i = .encode ∧ FlagsKept s t [.encValid, .fatal] ∧
        t.flag .encValid = false ∧ t.flag .fatal = decide (r.code = 1#4) ∧
        t = { s with
          pmem := [], bitLen := 0#24, status := t.status, err := t.err, lastErr := t.lastErr, eInfo := t.eInfo
          responses := t.responses }) ∧
      (r.code = 6#4 ∨ (r.code = 1#4 ∧ i ≠ .encode) → (i = .decode ∨ i = .decodeb ∨ ∃ n, i = .decodel n) ∧
        FlagsKept s t [.decValid, .midTree, .fatal] ∧ t.flag .decValid = false ∧ t.flag .midTree = false ∧
        t.flag .fatal = decide (r.code = 1#4) ∧
        t = { s with
          omem := [], decCur := s.root, status := t.status, err := t.err, lastErr := t.lastErr, eInfo := t.eInfo
          responses := t.responses })

/-- R34, R35, R201: ERR bits are sticky, a success leaves the error record, a failure records its opcode byte and code; CLEAR apart. -/
def Obligations.ErrorRecordIsKeptOrWritten : Prop :=
  ∀ (i : Instr) (s t : State) (r : Response), i ≠ .clear → exec i s = .next t → t.responses = s.responses ++ [r] →
    (r.code = 0#4 → t.err = s.err ∧ t.lastErr = s.lastErr ∧ t.eInfo = s.eInfo) ∧
      (r.code ≠ 0#4 → (∀ j, t.err.getLsbD j = (s.err.getLsbD j || decide (j = r.code.toNat))) ∧
        t.lastErr.toNat = (opcodeOf i).toNat * 2 ^ 8 + r.code.toNat)

/-! ## Control and data load -/

/-- R160: NOP changes nothing but the response list, in every state; a word with opcode 0x00 and a non-zero operand is not NOP. -/
def Obligations.NopOnlyResponds : Prop :=
  (∀ s : State, exec .nop s = .next { s with responses := s.responses ++ [{ code := 0#4, data := 0#32 }] }) ∧
    encode .nop = 0#32 ∧ ∀ w : Word, w.toNat / 2 ^ 24 = 0 → w ≠ 0#32 → decode w = .illegal .mustBeZero

/-- R162: INCLR empties IMEM and changes nothing else; HALTED under FATAL. -/
def Obligations.InclrEmptiesTheInput : Prop :=
  encode .inclr = 0x10000000#32 ∧ ∀ s : State,
    (s.flag .fatal = true → exec .inclr s = raise 0x10#8 .halted 0 s) ∧
      (s.flag .fatal = false →
        exec .inclr s = .next { s with imem := [], responses := s.responses ++ [{ code := 0#4, data := 0#32 }] })

/-- R163: INPUSH appends its byte at IN_LEN and changes nothing else; every other index of IMEM reads as before; RANGE when full,
HALTED under FATAL. -/
def Obligations.InpushAppendsOneByte : Prop :=
  (∀ b : Byte, (encode (.inpush b)).toNat = 0x11000000 + b.toNat) ∧
    (∀ (s : State) (b : Byte), s.flag .fatal = true → exec (.inpush b) s = raise 0x11#8 .halted 0 s) ∧
    ∀ (s : State) (b : Byte), s.flag .fatal = false → (s.imem.length ≠ s.capIn.toNat → ∃ t, exec (.inpush b) s = .next t ∧
        t = { s with imem := t.imem, responses := t.responses } ∧ t.imem.length = s.imem.length + 1 ∧
        memRead t.imem s.imem.length = some b ∧ (∀ a, a ≠ s.imem.length → memRead t.imem a = memRead s.imem a) ∧
        Answered s t 0#4 0#32) ∧
      (s.imem.length = s.capIn.toNat → exec (.inpush b) s = raise 0x11#8 .range s.imem.length s)

/-- R164: PKCLR empties PMEM, zeroes BIT_LEN, clears ENC_VALID and changes nothing else; HALTED under FATAL. -/
def Obligations.PkclrEmptiesThePackedForm : Prop :=
  encode .pkclr = 0x12000000#32 ∧ (∀ s : State, s.flag .fatal = true → exec .pkclr s = raise 0x12#8 .halted 0 s) ∧
    ∀ s : State, s.flag .fatal = false → ∃ t, exec .pkclr s = .next t ∧
    t = { s with pmem := [], bitLen := 0#24, status := t.status, responses := t.responses } ∧
    t.flag .encValid = false ∧ FlagsKept s t [.encValid] ∧ Answered s t 0#4 0#32

/-- R165: PKPUSH appends its byte at PK_LEN, makes BIT_LEN 8·PK_LEN, clears ENC_VALID; every other index of PMEM reads as before; RANGE
when full, HALTED under FATAL. -/
def Obligations.PkpushAppendsOneByte : Prop :=
  (∀ b : Byte, (encode (.pkpush b)).toNat = 0x13000000 + b.toNat) ∧
    (∀ (s : State) (b : Byte), s.flag .fatal = true → exec (.pkpush b) s = raise 0x13#8 .halted 0 s) ∧
    ∀ (s : State) (b : Byte), s.flag .fatal = false → (s.pmem.length ≠ s.capPk.toNat → ∃ t, exec (.pkpush b) s = .next t ∧
        t = { s with pmem := t.pmem, bitLen := t.bitLen, status := t.status, responses := t.responses } ∧
        t.pmem.length = s.pmem.length + 1 ∧ memRead t.pmem s.pmem.length = some b ∧
        (∀ a, a ≠ s.pmem.length → memRead t.pmem a = memRead s.pmem a) ∧
        t.bitLen.toNat = 8 * (s.pmem.length + 1) % 2 ^ 24 ∧ t.flag .encValid = false ∧ FlagsKept s t [.encValid] ∧
        Answered s t 0#4 0#32) ∧
      (s.pmem.length = s.capPk.toNat → exec (.pkpush b) s = raise 0x13#8 .range s.pmem.length s)

/-! ## Read-outs -/

/-- R93, R36, R166, R167, R168, R169: RDREG returns the register zero-extended, register 15 is RANGE; RDIN, RDPK and RDOUT return the byte in
data[7:0] with zeros above. In every state, FATAL included. -/
def Obligations.ScalarReadOuts : Prop :=
  ∀ s : State,
    Reads (.rdreg 0#4) s (s.status.setWidth 32) ∧ Reads (.rdreg 1#4) s (s.err.setWidth 32) ∧
      Reads (.rdreg 2#4) s (s.lastErr.setWidth 32) ∧ Reads (.rdreg 3#4) s s.eInfo ∧
      Reads (.rdreg 4#4) s (BitVec.ofNat 32 (s.imem.length % 2 ^ 24)) ∧ Reads (.rdreg 5#4) s (s.bitLen.setWidth 32) ∧
      Reads (.rdreg 6#4) s (BitVec.ofNat 32 (s.pmem.length % 2 ^ 21)) ∧
      Reads (.rdreg 7#4) s (BitVec.ofNat 32 (s.omem.length % 2 ^ 24)) ∧ Reads (.rdreg 8#4) s (s.root.setWidth 32) ∧
      Reads (.rdreg 9#4) s (BitVec.ofNat 32 (s.arena.length % 2 ^ 10)) ∧
      Reads (.rdreg 10#4) s (BitVec.ofNat 32 (s.nc.length % 2 ^ 9)) ∧ Reads (.rdreg 11#4) s (s.decCur.setWidth 32) ∧
      Reads (.rdreg 12#4) s s.capIn ∧ Reads (.rdreg 13#4) s s.capPk ∧ Reads (.rdreg 14#4) s s.capOut ∧
      exec (.rdreg 15#4) s = raise 0x60#8 .range 15 s ∧
      (∀ (n : BitVec 24) (b : Byte), memRead s.imem n.toNat = some b → Reads (.rdin n) s (0#24 ++ b)) ∧
      (∀ (n : BitVec 24) (b : Byte), memRead s.pmem n.toNat = some b → Reads (.rdpk n) s (0#24 ++ b)) ∧
      ∀ (n : BitVec 24) (b : Byte), memRead s.omem n.toNat = some b → Reads (.rdout n) s (0#24 ++ b)

/-- R94, R170, R173: RDFREQ returns the count, RDNC the node index in data[8:0]. -/
def Obligations.CountAndPositionReadOuts : Prop :=
  ∀ s : State, (∀ sym, Reads (.rdfreq sym) s (ftRead s.ft sym)) ∧
    ∀ (p : BitVec 9) (n : Idx), s.nc[p.toNat]? = some n → Reads (.rdnc p) s (0#23 ++ n)

/-- R91, R171: the two words of a node. -/
def Obligations.NodeReadOut : Prop :=
  ∀ (s : State) (n : Idx) (nd : Node), s.arena[n.toNat]? = some nd →
    Reads (.rdnode n 1#8) s (nodeFreq nd) ∧ ∃ d, Reads (.rdnode n 0#8) s d ∧
      match nd with
      | .leaf sym _ => d.toNat = 0x0FFFFC00 + sym.toNat
      | .internal _ l r => d.toNat = 0x80000000 + l.toNat * 2 ^ 19 + r.toNat * 2 ^ 10

/-- R92, R172: the nine words of a dictionary entry: header, then the code left-aligned, first bit in bit 31 of word 1. -/
def Obligations.DictionaryReadOut : Prop :=
  ∀ (s : State) (sym : Byte),
    (∃ d, Reads (.rddict sym 0#8) s d ∧
        d.toNat = match dictRead s.dict sym with
          | none => 0
          | some code => 2 ^ 31 + code.length % 2 ^ 8) ∧
      ∀ w : BitVec 8, 1 ≤ w.toNat → w.toNat ≤ 8 → ∃ d, Reads (.rddict sym w) s d ∧
        ∀ j, j < 32 → d.getLsbD (31 - j) =
          match dictRead s.dict sym with
          | none => false
          | some code => code.getD (32 * (w.toNat - 1) + j) false

/-- R63: a read-out changes nothing, or on failure nothing but the error record, and a repeated one gives the same response. -/
def Obligations.ReadOutsChangeNothing : Prop :=
  ∀ (i : Instr) (s t : State), isReadOut i = true → exec i s = .next t →
    ∃ r : Response, t.responses = s.responses ++ [r] ∧
      (r.code = 0#4 → t = { s with responses := t.responses }) ∧
      (r.code ≠ 0#4 → t = { s with err := t.err, lastErr := t.lastErr, eInfo := t.eInfo, responses := t.responses }) ∧
      ∃ u, exec i t = .next u ∧ u.responses = t.responses ++ [r]

/-! ## Tree builder -/

/-- R100: FREQ counts the occurrences of every symbol, sets FT_VALID, and changes nothing else. -/
def Obligations.FreqCountsOccurrences : Prop :=
  encode .freq = 0x20000000#32 ∧ ∀ s : State, s.flag .fatal = false → ∃ t, exec .freq s = .next t ∧
    t = { s with ft := t.ft, status := t.status, responses := t.responses } ∧
    (∀ sym, (ftRead t.ft sym).toNat = s.imem.count sym % 2 ^ 32) ∧ t.flag .ftValid = true ∧ FlagsKept s t [.ftValid] ∧
    Answered s t 0#4 0#32

/-- R43: after FREQ the counts sum to the length of the analysed input; a later INPUSH or INCLR does not change FT; before any FREQ FT is
all zero. -/
def Obligations.FreqSumsToTheInputLength : Prop :=
  (∀ s : State, s.flag .fatal = false → s.imem.length < 2 ^ 32 → ∃ t, exec .freq s = .next t ∧
      ftTotal t.ft = s.imem.length ∧ (∀ sym, (ftRead t.ft sym).toNat = s.imem.count sym) ∧
      ∀ u b, (exec .inclr t = .next u ∨ exec (.inpush b) t = .next u) → u.ft = t.ft) ∧
    ∀ p : Config.Params, ftTotal (State.resetWith p).ft = 0

/-- R108, R202, R206: BUILD on an all-zero FT raises EMPTY, fatal, and leaves no node, no entry and no root; SEQ before any FREQ. -/
def Obligations.BuildOfEmptyTable : Prop :=
  (∀ s : State, s.flag .fatal = false → s.flag .ftValid = false → exec .build s = raise 0x21#8 .seq 0 s) ∧
  ∀ s : State, s.flag .fatal = false → s.flag .ftValid = true → (∀ sym, ftRead s.ft sym = 0#32) →
    ∃ t, exec .build s = .next t ∧
      t = { s with
        arena := [], nc := [], root := 511#9, status := t.status, err := s.err ||| 4#11, lastErr := 0x2102#16, eInfo := 0#32
        responses := s.responses ++ [{ code := 2#4, data := 0#32 }] } ∧
      t.flag .fatal = true ∧ t.flag .treeValid = false ∧ t.flag .dictValid = false ∧ t.flag .leafRoot = false ∧
      FlagsKept s t [.fatal, .treeValid, .dictValid, .leafRoot]

/-- R104, R105, R109, R110, R24: BUILD on a table with a count completes: its leaves are the present symbols in ascending order with
their counts, at indices 0 to L − 1; the arena is a tree with 2L − 1 nodes in which every node is reachable; the root is last, is the
whole collection, and carries the sum of the counts. ARENA and NC are what the
seeding and then the merges in order make (the subjects of the seeding, insertion and merge statements). Everything else is unchanged. -/
def Obligations.BuildMakesTheTree : Prop :=
  encode .build = 0x21000000#32 ∧ ∀ s : State, s.flag .fatal = false → s.flag .ftValid = true → 0 < ftTotal s.ft →
    ftTotal s.ft < 2 ^ 32 → ∃ t, exec .build s = .next t ∧
      t = { s with arena := t.arena, nc := t.nc, root := t.root, status := t.status, responses := t.responses } ∧
      (∃ b, seed s.ft = .ok b ∧ mergeAll b.nc.length b = .ok ⟨t.arena, t.nc⟩) ∧
      t.arena.take (presentSymbols s.ft).length = ((presentSymbols s.ft).map fun sym => Node.leaf sym (ftRead s.ft sym)) ∧
      leafCount t.arena = (presentSymbols s.ft).length ∧ TreeWf t.arena t.root ∧
      (∀ n, n < t.arena.length → ∃ path m, follow t.arena t.root path = some m ∧ m.toNat = n) ∧
      t.nc = [t.root] ∧ freqOf t.arena t.root = ftTotal s.ft ∧ t.flag .treeValid = true ∧ t.flag .dictValid = false ∧
      t.flag .leafRoot = decide ((presentSymbols s.ft).length = 1) ∧ FlagsKept s t [.treeValid, .dictValid, .leafRoot] ∧
      Answered s t 0#4 0#32

/-- R107: with one distinct symbol the root is its Leaf, node 0, alone in the arena and in the collection. -/
def Obligations.BuildOfOneSymbol : Prop :=
  ∀ (s : State) (sym : Byte), s.flag .fatal = false → s.flag .ftValid = true → ftRead s.ft sym ≠ 0#32 →
    (∀ b, b ≠ sym → ftRead s.ft b = 0#32) → ∃ t, exec .build s = .next t ∧
      t = { s with
        arena := [.leaf sym (ftRead s.ft sym)], nc := [0#9], root := 0#9, status := t.status, responses := t.responses } ∧
      t.flag .treeValid = true ∧ t.flag .leafRoot = true ∧ t.flag .dictValid = false ∧
      FlagsKept s t [.treeValid, .dictValid, .leafRoot] ∧ Answered s t 0#4 0#32

/-- R101, R25: the insert puts the node after every entry of at most its frequency and before every greater one, keeps the order, and
never fails. -/
def Obligations.InsertIsStableAndSorted : Prop :=
  ∀ (b : Builder) (n : Idx), n.toNat < b.arena.length → (∀ q ∈ b.nc, q.toNat < b.arena.length) →
    b.nc.Pairwise (fun p q => freqOf b.arena p ≤ freqOf b.arena q) →
    ∃ before after, b.nc = before ++ after ∧ ncInsert b n = .ok { b with nc := before ++ n :: after } ∧
      (∀ q ∈ before, freqOf b.arena q ≤ freqOf b.arena n) ∧ (∀ q ∈ after, freqOf b.arena n < freqOf b.arena q) ∧
      (before ++ n :: after).Pairwise fun p q => freqOf b.arena p ≤ freqOf b.arena q

/-- R104 step 1, R105: seeding never fails; the leaves stand in ARENA in ascending symbol value, and in NC by ascending count, equal counts in
ascending symbol value. -/
def Obligations.SeedOrdersTheLeaves : Prop :=
  ∀ t : FreqTable, ∃ b, seed t = .ok b ∧ b.arena = (presentSymbols t).map (fun sym => Node.leaf sym (ftRead t sym)) ∧
    b.nc.Perm ((List.range (presentSymbols t).length).map (BitVec.ofNat 9)) ∧
    b.nc.Pairwise fun p q => freqOf b.arena p < freqOf b.arena q ∨ (freqOf b.arena p = freqOf b.arena q ∧ p.toNat < q.toNat)

/-- R102, R103, R106: a removal takes the head; a merge takes the two heads, the first as the left child, the second as the right, appends
one node and lowers NC_SIZE by one; every index in range, a merge answers. The merged node is inserted with `ncInsert`: in a sorted
collection it goes after every entry of at most its frequency, before every greater one, and the collection stays sorted. -/
def Obligations.MergeTakesTheTwoHeads : Prop :=
  (∀ r rest, ncRemoveMin (r :: rest) = .ok (r, rest)) ∧ ncRemoveMin [] = .error (.raised .empty 0) ∧
    ∀ (arena merged : List Node) (a c : Idx) (rest : List Idx) (x y : Node), arena.length < 2 ^ 9 →
      arena[a.toNat]? = some x → arena[c.toNat]? = some y → (∀ q ∈ rest, q.toNat < arena.length) →
      merged = arena ++ [.internal (nodeFreq x + nodeFreq y) a c] → ∃ nc,
        mergeStep ⟨arena, a :: c :: rest⟩ = .ok ⟨merged, nc⟩ ∧
        ncInsert ⟨merged, rest⟩ (BitVec.ofNat 9 arena.length) = .ok ⟨merged, nc⟩ ∧
        nc.length + 1 = (a :: c :: rest).length ∧ nc.Perm (BitVec.ofNat 9 arena.length :: rest) ∧
        (rest.Pairwise (fun p q => freqOf arena p ≤ freqOf arena q) → ∃ before after,
          rest = before ++ after ∧ nc = before ++ BitVec.ofNat 9 arena.length :: after ∧
          (∀ q ∈ before, freqOf arena q ≤ (nodeFreq x + nodeFreq y).toNat) ∧
          (∀ q ∈ after, (nodeFreq x + nodeFreq y).toNat < freqOf arena q) ∧
          nc.Pairwise fun p q => freqOf merged p ≤ freqOf merged q)

/-- R103, R110, R111: seeding and merging never fail; after k rounds of the loop, min(k, L − 1) merges are done, NC_SIZE is L less that many
and NODE_CNT is L plus as many, so NC_MAX and NODE_MAX are never exceeded, and BUILD never answers ALLOC. -/
def Obligations.BuildStaysWithinItsSpaces : Prop :=
  (∀ (t : FreqTable) (k : Nat), ∃ b b', seed t = .ok b ∧ mergeAll k b = .ok b' ∧
      b'.nc.length + min k ((presentSymbols t).length - 1) = (presentSymbols t).length ∧
      b'.arena.length = (presentSymbols t).length + min k ((presentSymbols t).length - 1) ∧
      b'.nc.length ≤ Config.ncMax ∧ b'.arena.length ≤ Config.nodeMax) ∧
    ∀ (s t : State) (r : Response), exec .build s = .next t → t.responses = s.responses ++ [r] → r.code ≠ 1#4

/-- R236, R243: BUILD leaves DICT_VALID 0, so an ENCODE right after it is SEQ, and it keeps the entries of DICT, the packed form, the output
and their flags. -/
def Obligations.BuildInvalidatesTheDictionary : Prop :=
  ∀ s t : State, s.flag .fatal = false → s.flag .ftValid = true → exec .build s = .next t →
    t.flag .dictValid = false ∧ t.dict = s.dict ∧ t.pmem = s.pmem ∧ t.bitLen = s.bitLen ∧ t.omem = s.omem ∧
      t.decCur = s.decCur ∧ t.ft = s.ft ∧ t.imem = s.imem ∧ FlagsKept s t [.treeValid, .dictValid, .leafRoot, .fatal] ∧
      (t.flag .fatal = false → exec .encode t = raise 0x40#8 .seq 0 t)

/-- R24(d): in a well-formed tree every node is reached from the root. -/
def Obligations.EveryNodeIsReachable : Prop :=
  ∀ (arena : List Node) (root : Idx), TreeWf arena root → ∀ n, n < arena.length →
    ∃ path m, follow arena root path = some m ∧ m.toNat = n

/-! ## Code dictionary -/

/-- R122: under a Leaf root GENDICT records the one-bit code "0" for its symbol and no other entry. -/
def Obligations.GendictOfLeafRoot : Prop :=
  ∀ (s : State) (sym : Byte) (f : Count), s.flag .fatal = false → s.flag .treeValid = true →
    s.arena[s.root.toNat]? = some (.leaf sym f) → ∃ t, exec .gendict s = .next t ∧
      t = { s with dict := t.dict, status := t.status, responses := t.responses } ∧
      dictRead t.dict sym = some [false] ∧ (∀ b, b ≠ sym → dictRead t.dict b = none) ∧ t.flag .dictValid = true ∧
      FlagsKept s t [.dictValid] ∧ Answered s t 0#4 0#32

/-- R120, R121: GENDICT records for every leaf symbol its path from the root and for no other symbol anything. -/
def Obligations.GendictRecordsEveryPath : Prop :=
  encode .gendict = 0x30000000#32 ∧ ∀ s : State, s.flag .fatal = false → s.flag .treeValid = true → TreeWf s.arena s.root →
    ∃ t, exec .gendict s = .next t ∧ t = { s with dict := t.dict, status := t.status, responses := t.responses } ∧
      (∀ sym code, dictRead t.dict sym = some code ↔ IsCode s.arena s.root sym code) ∧ t.flag .dictValid = true ∧
      FlagsKept s t [.dictValid] ∧ Answered s t 0#4 0#32

/-- R28, R123: a valid dictionary: entries exactly for the leaf symbols, each its path; prefix-free; Kraft's sum 1, or 1/2 under a Leaf
root (in units of 2^−255); lengths 1 to L − 1, or 1 when L = 1. -/
def Obligations.DictionaryIsAPrefixCode : Prop :=
  ∀ s : State, Inv s → s.flag .dictValid = true → s.flag .treeValid = true ∧
    (∀ sym, (dictRead s.dict sym).isSome = true ↔ sym ∈ s.arena.filterMap leafSym?) ∧
      (∀ sym code, dictRead s.dict sym = some code ↔ IsCode s.arena s.root sym code) ∧
      (∀ a b codeA codeB, a ≠ b → dictRead s.dict a = some codeA → dictRead s.dict b = some codeB → ¬ codeA <+: codeB) ∧
      ((allSymbols.filterMap (dictRead s.dict)).map fun code => 2 ^ (255 - code.length)).sum =
        (if isLeafAt s.arena s.root then 2 ^ 254 else 2 ^ 255) ∧
      ∀ sym code, dictRead s.dict sym = some code → 1 ≤ code.length ∧ code.length ≤ max 1 (leafCount s.arena - 1)

/-! ## Bit encoder -/

/-- R130, R131, R132, R133: ENCODE writes the concatenated codes, bit k at bit 7 − (k mod 8) of byte k div 8, zeros after them, PK_LEN =
ceil(BIT_LEN / 8), and changes nothing else. -/
def Obligations.EncodePacksTheBitString : Prop :=
  encode .encode = 0x40000000#32 ∧ ∀ (s : State) (bits : List Bool), s.flag .fatal = false → s.flag .dictValid = true →
    s.capPk.toNat ≤ 2 ^ 21 - 1 → (∀ b ∈ s.imem, (dictRead s.dict b).isSome = true) →
    bits = (s.imem.map fun b => (dictRead s.dict b).getD []).flatten → (bits.length + 7) / 8 ≤ s.capPk.toNat →
    ∃ t, exec .encode s = .next t ∧
      t = { s with pmem := t.pmem, bitLen := t.bitLen, status := t.status, responses := t.responses } ∧
      t.bitLen.toNat = bits.length ∧ t.pmem.length = (t.bitLen.toNat + 7) / 8 ∧
      (∀ k, k < 8 * t.pmem.length → ∃ b, memRead t.pmem (k / 8) = some b ∧ b.getLsbD (7 - k % 8) = bits.getD k false) ∧
      t.flag .encValid = true ∧ FlagsKept s t [.encValid] ∧ Answered s t 0#4 0#32

/-- R135(2), R204: the first byte without a code raises NOCODE with the byte and its index, before the size is looked at; the outputs are
emptied, nothing else changes. -/
def Obligations.EncodeOfUncodedByte : Prop :=
  ∀ (s : State) (before after : List Byte) (b : Byte), s.flag .fatal = false → s.flag .dictValid = true →
    s.imem = before ++ b :: after → (∀ x ∈ before, (dictRead s.dict x).isSome = true) → dictRead s.dict b = none →
    before.length < 2 ^ 24 → ∃ t, exec .encode s = .next t ∧
      t = { s with
        pmem := [], bitLen := 0#24, status := t.status, err := s.err ||| 32#11, lastErr := 0x4005#16, eInfo := t.eInfo
        responses := s.responses ++ [{ code := 5#4, data := 0#32 }] } ∧
      t.eInfo.toNat = b.toNat * 2 ^ 24 + before.length ∧ t.flag .encValid = false ∧ FlagsKept s t [.encValid]

/-- R135(3), R203, R204: when every byte has a code and more than PK_MAX bytes are needed, ALLOC, fatal, EINFO the bytes needed; the outputs
are emptied. -/
def Obligations.EncodeBeyondCapacity : Prop :=
  ∀ s : State, s.flag .fatal = false → s.flag .dictValid = true → (∀ b ∈ s.imem, (dictRead s.dict b).isSome = true) →
    s.capPk.toNat < ((s.imem.map fun b => ((dictRead s.dict b).getD []).length).sum + 7) / 8 → ∃ t, exec .encode s = .next t ∧
      t = { s with
        pmem := [], bitLen := 0#24, status := t.status, err := s.err ||| 2#11, lastErr := 0x4001#16, eInfo := t.eInfo
        responses := s.responses ++ [{ code := 1#4, data := 0#32 }] } ∧
      t.eInfo.toNat = ((s.imem.map fun b => ((dictRead s.dict b).getD []).length).sum + 7) / 8 % 2 ^ 32 ∧
      t.flag .fatal = true ∧ t.flag .encValid = false ∧ FlagsKept s t [.fatal, .encValid]

/-! ## Tree decoder -/

/-- R141, R142, R143, R144, R149: under an Internal root every bit string splits into complete codes and one incomplete rest, with at most one
symbol a bit; a decode command whose N bits split so, with at most OUT_MAX symbols, completes: it emits the codes' symbols and ends
where the rest leads. Nothing else changes. -/
def Obligations.DecodeWalksTheTree : Prop :=
  encode .decode = 0x50000000#32 ∧ encode .decodeb = 0x51000000#32 ∧
    (∀ (arena : List Node) (root : Idx) (bits : List Bool), TreeWf arena root → isInternalAt arena root = true →
      ∃ codes rest xs c, bits = codes.flatten ++ rest ∧ Spells arena root codes xs ∧ follow arena root rest = some c ∧
        isInternalAt arena c = true ∧ xs.length ≤ bits.length) ∧
    ∀ (s : State) (i : Instr) (n : Nat) (bits : List Bool) (codes : List (List Bool)) (rest : List Bool) (xs : List Byte)
      (c : Idx), s.flag .fatal = false → s.flag .treeValid = true → isInternalAt s.arena s.root = true →
      bitsConsumed s i = some n → n ≤ 8 * s.pmem.length → bits.length = n → (∀ k, k < n → bits[k]? = pbit s.pmem k) →
      bits = codes.flatten ++ rest → Spells s.arena s.root codes xs → follow s.arena s.root rest = some c →
      isInternalAt s.arena c = true → xs.length ≤ s.capOut.toNat → ∃ t, exec i s = .next t ∧
        t = { s with omem := xs, decCur := c, status := t.status, responses := t.responses } ∧
        t.flag .midTree = decide (c ≠ s.root) ∧ t.flag .decValid = true ∧ FlagsKept s t [.midTree, .decValid] ∧
        Answered s t 0#4 0#32

/-- R145: under a Leaf root every 0 bit emits the root's symbol; the first 1 bit raises BADBIT with its index, not fatal, and leaves the
outputs empty and the position at the root, before the capacity is looked at. -/
def Obligations.DecodeUnderLeafRoot : Prop :=
  ∀ (s : State) (i : Instr) (n : Nat) (sym : Byte) (f : Count), s.flag .fatal = false → s.flag .treeValid = true →
    s.arena[s.root.toNat]? = some (.leaf sym f) → bitsConsumed s i = some n → n ≤ 8 * s.pmem.length →
    ((∀ k, k < n → pbit s.pmem k = some false) → n ≤ s.capOut.toNat → ∃ t, exec i s = .next t ∧
        t = { s with omem := List.replicate n sym, decCur := s.root, status := t.status, responses := t.responses } ∧
        t.flag .midTree = false ∧ t.flag .decValid = true ∧ FlagsKept s t [.midTree, .decValid] ∧ Answered s t 0#4 0#32) ∧
      ∀ k, k < n → pbit s.pmem k = some true → (∀ j, j < k → pbit s.pmem j = some false) → ∃ t, exec i s = .next t ∧
        t = { s with
          omem := [], decCur := s.root, status := t.status, err := s.err ||| 64#11, lastErr := t.lastErr, eInfo := t.eInfo
          responses := s.responses ++ [{ code := 6#4, data := 0#32 }] } ∧
        t.lastErr.toNat = (opcodeOf i).toNat * 2 ^ 8 + 6 ∧ t.eInfo.toNat = k % 2 ^ 32 ∧ t.flag .midTree = false ∧
        t.flag .decValid = false ∧ FlagsKept s t [.midTree, .decValid]

/-- R141, R148, R204: a decode whose bits spell more symbols than OUT_MAX, under an Internal or under a Leaf root (where N zero bits spell N
symbols), raises ALLOC, fatal, EINFO the number of symbols, and leaves the outputs empty and the position at the root. -/
def Obligations.DecodeBeyondCapacity : Prop :=
  (∀ (s : State) (i : Instr) (n : Nat) (bits : List Bool) (codes : List (List Bool)) (rest : List Bool) (xs : List Byte)
      (c : Idx), s.flag .fatal = false → s.flag .treeValid = true → isInternalAt s.arena s.root = true →
      bitsConsumed s i = some n → n ≤ 8 * s.pmem.length → bits.length = n → (∀ k, k < n → bits[k]? = pbit s.pmem k) →
      bits = codes.flatten ++ rest → Spells s.arena s.root codes xs → follow s.arena s.root rest = some c →
      isInternalAt s.arena c = true → s.capOut.toNat < xs.length → DecodeAllocs i s xs.length) ∧
    ∀ (s : State) (i : Instr) (n : Nat), s.flag .fatal = false → s.flag .treeValid = true → isLeafAt s.arena s.root = true →
      bitsConsumed s i = some n → n ≤ 8 * s.pmem.length → (∀ k, k < n → pbit s.pmem k = some false) →
      s.capOut.toNat < n → DecodeAllocs i s n

/-- R149: with OUT_MAX at least the number of packed bits no decode command answers ALLOC. -/
def Obligations.AmpleOutputNeverAllocs : Prop :=
  ∀ (i : Instr) (s t : State) (n : Nat) (r : Response), bitsConsumed s i = some n → 8 * s.pmem.length ≤ s.capOut.toNat →
    exec i s = .next t → t.responses = s.responses ++ [r] → r.code ≠ 1#4

/-- R144: DECODEL beyond 8·PK_LEN is RANGE, not clamped; at 8·PK_LEN it equals DECODE, at BIT_LEN DECODEB (but for the opcode byte in
LASTERR when they fail). -/
def Obligations.DecodelBoundsAndEqualities : Prop :=
  (∀ n : BitVec 24, (encode (.decodel n)).toNat = 0x52000000 + n.toNat) ∧ ∀ (s : State) (n : BitVec 24),
    (s.flag .fatal = false → s.flag .treeValid = true → 8 * s.pmem.length < n.toNat →
        exec (.decodel n) s = raise 0x52#8 .range n.toNat s) ∧
      (n.toNat = 8 * s.pmem.length → SameButLastErr (exec (.decodel n) s) (exec .decode s)) ∧
      (n = s.bitLen → n.toNat ≤ 8 * s.pmem.length → SameButLastErr (exec (.decodel n) s) (exec .decodeb s))

/-! ## Headlines -/

/-- R235, R147: whatever IMEM holds, if the valid dictionary codes every byte of it and the capacities suffice, ENCODE then DECODEB, or
DECODEL with BIT_LEN, gives IMEM back. -/
def Obligations.EncodeDecodeRoundTrip : Prop :=
  ∀ s : State, Inv s → s.flag .fatal = false → s.flag .dictValid = true → (∀ b ∈ s.imem, (dictRead s.dict b).isSome = true) →
    bytesFor (bitString s.dict s.imem).length ≤ s.capPk.toNat → s.imem.length ≤ s.capOut.toNat →
    ∃ t u v, exec .encode s = .next t ∧ Answered s t 0#4 0#32 ∧ exec .decodeb t = .next u ∧ Answered t u 0#4 0#32 ∧
      u.omem = s.imem ∧ u.decCur = s.root ∧ u.flag .midTree = false ∧
      exec (.decodel t.bitLen) t = .next v ∧ v = u

/-- R146: DECODE of an encoder's output emits, after the true symbols, p div z copies of the symbol whose code is all zeros, p the number of
padding bits and z that code's length, and ends mid-tree exactly when p mod z is not 0, wherever OUT_MAX holds that many symbols. -/
def Obligations.PaddingEmitsSpuriousSymbols : Prop :=
  ∀ (s t : State) (z : Nat) (x : Byte), Inv s → s.flag .fatal = false → s.flag .treeValid = true → s.flag .encValid = true →
    ZeroCode s.arena s.root z x → exec .decodeb s = .next t → Answered s t 0#4 0#32 → t.flag .midTree = false →
    t.omem.length + (8 * s.pmem.length - s.bitLen.toNat) / z ≤ s.capOut.toNat → ∃ u, exec .decode s = .next u ∧ Answered s u 0#4 0#32 ∧
      u.omem = t.omem ++ List.replicate ((8 * s.pmem.length - s.bitLen.toNat) / z) x ∧
      u.flag .midTree = decide ((8 * s.pmem.length - s.bitLen.toNat) % z ≠ 0)

/-- R147: from every state the invariant allows with a non-empty input, FREQ, BUILD, GENDICT answer OK and code every byte of it; where the
capacities then suffice, ENCODE and DECODEB answer OK and OMEM is the input, and DECODE in place of DECODEB does the same exactly when
BIT_LEN is a multiple of 8. (`EncodedSizeBound` says that PK_MAX at least the input's length suffices.) -/
def Obligations.CompressThenDecodeRoundTrip : Prop :=
  ∀ s : State, Inv s → s.flag .fatal = false → s.imem ≠ [] →
    ∃ s₁ s₂ s₃, exec .freq s = .next s₁ ∧ Answered s s₁ 0#4 0#32 ∧ exec .build s₁ = .next s₂ ∧ Answered s₁ s₂ 0#4 0#32 ∧
      exec .gendict s₂ = .next s₃ ∧ Answered s₂ s₃ 0#4 0#32 ∧ s₃.imem = s.imem ∧
      (∀ b ∈ s.imem, (dictRead s₃.dict b).isSome = true) ∧
      (bytesFor (bitString s₃.dict s.imem).length ≤ s.capPk.toNat → s.imem.length ≤ s.capOut.toNat →
        ∃ s₄ s₅, exec .encode s₃ = .next s₄ ∧ Answered s₃ s₄ 0#4 0#32 ∧ exec .decodeb s₄ = .next s₅ ∧
          Answered s₄ s₅ 0#4 0#32 ∧ s₅.omem = s.imem ∧ s₅.flag .midTree = false ∧
          ((∃ u, exec .decode s₄ = .next u ∧ Answered s₄ u 0#4 0#32 ∧ u.omem = s.imem ∧ u.flag .midTree = false) ↔
            s₄.bitLen.toNat % 8 = 0))

/-- R113: for at least two symbols, no prefix-free code of them has a smaller total length under the counts than the dictionary BUILD and
GENDICT make. -/
def Obligations.TreeIsOptimal : Prop :=
  ∀ (s t u : State) (code : Byte → List Bool), s.flag .fatal = false → s.flag .ftValid = true → ftTotal s.ft < 2 ^ 32 →
    2 ≤ (presentSymbols s.ft).length →
    (∀ a ∈ presentSymbols s.ft, ∀ b ∈ presentSymbols s.ft, a ≠ b → ¬ code a <+: code b) →
    exec .build s = .next t → exec .gendict t = .next u →
    ((presentSymbols s.ft).map fun sym => (ftRead s.ft sym).toNat * ((dictRead u.dict sym).getD []).length).sum ≤
      ((presentSymbols s.ft).map fun sym => (ftRead s.ft sym).toNat * (code sym).length).sum

/-- R136 (its reason is general knowledge, 93_implementation_defined.md G2): with the dictionary just built from the input, the bit string has
at most 8 bits per input byte, and every byte has a code. -/
def Obligations.EncodedSizeBound : Prop :=
  ∀ s : State, Inv s → s.flag .fatal = false → s.imem ≠ [] → ∃ s₁ s₂ s₃, exec .freq s = .next s₁ ∧ exec .build s₁ = .next s₂ ∧
    exec .gendict s₂ = .next s₃ ∧ s₃.flag .dictValid = true ∧ (∀ b ∈ s.imem, (dictRead s₃.dict b).isSome = true) ∧
    (bitString s₃.dict s.imem).length ≤ 8 * s.imem.length

/-! ## Invariants -/

/-- The invariant holds after reset, for every choice of the capacities that R6 allows. -/
def Obligations.ResetMeetsTheInvariant : Prop :=
  (∀ p : Config.Params, p.Ok → Inv (State.resetWith p)) ∧ Inv State.reset

/-- R24 to R35, R42: every step keeps the invariant. -/
def Obligations.StepKeepsTheInvariant : Prop :=
  ∀ s t : State, Inv s → step s = .next t → Inv t

/-- R245, R247, R9 (internal reads never go out of range): under the invariant every step answers a next state. -/
def Obligations.StepNeverStops : Prop :=
  ∀ s : State, Inv s → ∃ t, step s = .next t

/-- R20, R36, R37: CAP_IN, CAP_PK and CAP_OUT are constants; no step, CLEAR and reset included, changes them. -/
def Obligations.CapacitiesAreConstant : Prop :=
  ∀ s t : State, step s = .next t → t.capIn = s.capIn ∧ t.capPk = s.capPk ∧ t.capOut = s.capOut

/-- R7, R33, R34, R35, R60, R71, R174: CLEAR apart, each space, register and flag is changed only by the commands that own it; FATAL only by an
ALLOC or EMPTY, the error record only by a failure; the capacities never. -/
def Obligations.SpacesHaveTheirWriters : Prop :=
  ∀ (i : Instr) (s t : State), i ≠ .clear → exec i s = .next t → ∃ r, t.responses = s.responses ++ [r] ∧
    (t.imem ≠ s.imem → i = .inclr ∨ ∃ b, i = .inpush b) ∧ (t.ft ≠ s.ft → i = .freq) ∧
      (t.arena ≠ s.arena ∨ t.nc ≠ s.nc ∨ t.root ≠ s.root → i = .build) ∧ (t.dict ≠ s.dict → i = .gendict) ∧
      (t.pmem ≠ s.pmem ∨ t.bitLen ≠ s.bitLen → i = .encode ∨ i = .pkclr ∨ ∃ b, i = .pkpush b) ∧
      (t.omem ≠ s.omem ∨ t.decCur ≠ s.decCur → IsDecode i) ∧
      (t.flag .ftValid ≠ s.flag .ftValid → i = .freq) ∧
      (t.flag .treeValid ≠ s.flag .treeValid ∨ t.flag .leafRoot ≠ s.flag .leafRoot → i = .build) ∧
      (t.flag .dictValid ≠ s.flag .dictValid → i = .build ∨ i = .gendict) ∧
      (t.flag .encValid ≠ s.flag .encValid → i = .encode ∨ i = .pkclr ∨ ∃ b, i = .pkpush b) ∧
      (t.flag .decValid ≠ s.flag .decValid ∨ t.flag .midTree ≠ s.flag .midTree → IsDecode i) ∧
      (t.flag .fatal ≠ s.flag .fatal → r.code = 1#4 ∨ r.code = 2#4) ∧
      (t.err ≠ s.err ∨ t.lastErr ≠ s.lastErr ∨ t.eInfo ≠ s.eInfo → r.code ≠ 0#4) ∧
      t.capIn = s.capIn ∧ t.capPk = s.capPk ∧ t.capOut = s.capOut ∧ t.pending = s.pending

/-- R33, the set and clear columns, CLEAR and reset apart: which command raises and which lowers each flag, and with which response. -/
def Obligations.FlagsRiseAndFallByTheirCommands : Prop :=
  ∀ (i : Instr) (s t : State) (r : Response), i ≠ .clear → exec i s = .next t → t.responses = s.responses ++ [r] →
    (Rises s t .ftValid → i = .freq ∧ r.code = 0#4) ∧ ¬ Falls s t .ftValid ∧
      (Rises s t .treeValid → i = .build ∧ r.code = 0#4) ∧ (Falls s t .treeValid → i = .build ∧ r.code = 2#4) ∧
      (Rises s t .dictValid → i = .gendict ∧ r.code = 0#4) ∧ (Falls s t .dictValid → i = .build) ∧
      (Rises s t .encValid → i = .encode ∧ r.code = 0#4) ∧
      (Falls s t .encValid → (i = .encode ∧ (r.code = 5#4 ∨ r.code = 1#4)) ∨ i = .pkclr ∨ ∃ b, i = .pkpush b) ∧
      (Rises s t .decValid → IsDecode i ∧ r.code = 0#4) ∧
      (Falls s t .decValid → IsDecode i ∧ (r.code = 6#4 ∨ r.code = 1#4)) ∧
      (Rises s t .leafRoot → i = .build ∧ r.code = 0#4 ∧ isLeafAt t.arena t.root = true) ∧ (Falls s t .leafRoot → i = .build) ∧
      (Rises s t .midTree → IsDecode i ∧ r.code = 0#4 ∧ t.decCur ≠ t.root) ∧
      (Falls s t .midTree → IsDecode i ∧ t.decCur = t.root ∧ (r.code = 0#4 ∨ r.code = 6#4 ∨ r.code = 1#4)) ∧
      (Rises s t .fatal → r.code = 1#4 ∨ r.code = 2#4) ∧ ¬ Falls s t .fatal
end

