-- ==== Sys2Proof/Laws/State.lean ====
section
/-! SUPPORT. What each named update of State does to each field, one lemma per field, true by rfl: no later proof unfolds an update. -/

namespace Sys2Proof.Machine

@[simp] theorem State.respond_imem (s : State) (code : BitVec 4) (data : Word) :
    (s.respond code data).imem = s.imem := rfl

@[simp] theorem State.respond_ft (s : State) (code : BitVec 4) (data : Word) :
    (s.respond code data).ft = s.ft := rfl

@[simp] theorem State.respond_arena (s : State) (code : BitVec 4) (data : Word) :
    (s.respond code data).arena = s.arena := rfl

@[simp] theorem State.respond_nc (s : State) (code : BitVec 4) (data : Word) :
    (s.respond code data).nc = s.nc := rfl

@[simp] theorem State.respond_root (s : State) (code : BitVec 4) (data : Word) :
    (s.respond code data).root = s.root := rfl

@[simp] theorem State.respond_dict (s : State) (code : BitVec 4) (data : Word) :
    (s.respond code data).dict = s.dict := rfl

@[simp] theorem State.respond_pmem (s : State) (code : BitVec 4) (data : Word) :
    (s.respond code data).pmem = s.pmem := rfl

@[simp] theorem State.respond_bitLen (s : State) (code : BitVec 4) (data : Word) :
    (s.respond code data).bitLen = s.bitLen := rfl

@[simp] theorem State.respond_omem (s : State) (code : BitVec 4) (data : Word) :
    (s.respond code data).omem = s.omem := rfl

@[simp] theorem State.respond_decCur (s : State) (code : BitVec 4) (data : Word) :
    (s.respond code data).decCur = s.decCur := rfl

@[simp] theorem State.respond_status (s : State) (code : BitVec 4) (data : Word) :
    (s.respond code data).status = s.status := rfl

@[simp] theorem State.respond_err (s : State) (code : BitVec 4) (data : Word) :
    (s.respond code data).err = s.err := rfl

@[simp] theorem State.respond_lastErr (s : State) (code : BitVec 4) (data : Word) :
    (s.respond code data).lastErr = s.lastErr := rfl

@[simp] theorem State.respond_eInfo (s : State) (code : BitVec 4) (data : Word) :
    (s.respond code data).eInfo = s.eInfo := rfl

@[simp] theorem State.respond_capIn (s : State) (code : BitVec 4) (data : Word) :
    (s.respond code data).capIn = s.capIn := rfl

@[simp] theorem State.respond_capPk (s : State) (code : BitVec 4) (data : Word) :
    (s.respond code data).capPk = s.capPk := rfl

@[simp] theorem State.respond_capOut (s : State) (code : BitVec 4) (data : Word) :
    (s.respond code data).capOut = s.capOut := rfl

@[simp] theorem State.respond_pending (s : State) (code : BitVec 4) (data : Word) :
    (s.respond code data).pending = s.pending := rfl

@[simp] theorem State.respond_responses (s : State) (code : BitVec 4) (data : Word) :
    (s.respond code data).responses = s.responses ++ [{ code := code, data := data }] := rfl

@[simp] theorem State.setFlag_imem (s : State) (f : Flag) (b : Bool) :
    (s.setFlag f b).imem = s.imem := rfl

@[simp] theorem State.setFlag_ft (s : State) (f : Flag) (b : Bool) :
    (s.setFlag f b).ft = s.ft := rfl

@[simp] theorem State.setFlag_arena (s : State) (f : Flag) (b : Bool) :
    (s.setFlag f b).arena = s.arena := rfl

@[simp] theorem State.setFlag_nc (s : State) (f : Flag) (b : Bool) :
    (s.setFlag f b).nc = s.nc := rfl

@[simp] theorem State.setFlag_root (s : State) (f : Flag) (b : Bool) :
    (s.setFlag f b).root = s.root := rfl

@[simp] theorem State.setFlag_dict (s : State) (f : Flag) (b : Bool) :
    (s.setFlag f b).dict = s.dict := rfl

@[simp] theorem State.setFlag_pmem (s : State) (f : Flag) (b : Bool) :
    (s.setFlag f b).pmem = s.pmem := rfl

@[simp] theorem State.setFlag_bitLen (s : State) (f : Flag) (b : Bool) :
    (s.setFlag f b).bitLen = s.bitLen := rfl

@[simp] theorem State.setFlag_omem (s : State) (f : Flag) (b : Bool) :
    (s.setFlag f b).omem = s.omem := rfl

@[simp] theorem State.setFlag_decCur (s : State) (f : Flag) (b : Bool) :
    (s.setFlag f b).decCur = s.decCur := rfl

@[simp] theorem State.setFlag_status (s : State) (f : Flag) (b : Bool) :
    (s.setFlag f b).status = putFlag s.status f b := rfl

@[simp] theorem State.setFlag_err (s : State) (f : Flag) (b : Bool) :
    (s.setFlag f b).err = s.err := rfl

@[simp] theorem State.setFlag_lastErr (s : State) (f : Flag) (b : Bool) :
    (s.setFlag f b).lastErr = s.lastErr := rfl

@[simp] theorem State.setFlag_eInfo (s : State) (f : Flag) (b : Bool) :
    (s.setFlag f b).eInfo = s.eInfo := rfl

@[simp] theorem State.setFlag_capIn (s : State) (f : Flag) (b : Bool) :
    (s.setFlag f b).capIn = s.capIn := rfl

@[simp] theorem State.setFlag_capPk (s : State) (f : Flag) (b : Bool) :
    (s.setFlag f b).capPk = s.capPk := rfl

@[simp] theorem State.setFlag_capOut (s : State) (f : Flag) (b : Bool) :
    (s.setFlag f b).capOut = s.capOut := rfl

@[simp] theorem State.setFlag_pending (s : State) (f : Flag) (b : Bool) :
    (s.setFlag f b).pending = s.pending := rfl

@[simp] theorem State.setFlag_responses (s : State) (f : Flag) (b : Bool) :
    (s.setFlag f b).responses = s.responses := rfl

@[simp] theorem State.recordError_imem (s : State) (op : Byte) (k : ErrKind) (info : Nat) :
    (s.recordError op k info).imem = s.imem := rfl

@[simp] theorem State.recordError_ft (s : State) (op : Byte) (k : ErrKind) (info : Nat) :
    (s.recordError op k info).ft = s.ft := rfl

@[simp] theorem State.recordError_arena (s : State) (op : Byte) (k : ErrKind) (info : Nat) :
    (s.recordError op k info).arena = s.arena := rfl

@[simp] theorem State.recordError_nc (s : State) (op : Byte) (k : ErrKind) (info : Nat) :
    (s.recordError op k info).nc = s.nc := rfl

@[simp] theorem State.recordError_root (s : State) (op : Byte) (k : ErrKind) (info : Nat) :
    (s.recordError op k info).root = s.root := rfl

@[simp] theorem State.recordError_dict (s : State) (op : Byte) (k : ErrKind) (info : Nat) :
    (s.recordError op k info).dict = s.dict := rfl

@[simp] theorem State.recordError_pmem (s : State) (op : Byte) (k : ErrKind) (info : Nat) :
    (s.recordError op k info).pmem = s.pmem := rfl

@[simp] theorem State.recordError_bitLen (s : State) (op : Byte) (k : ErrKind) (info : Nat) :
    (s.recordError op k info).bitLen = s.bitLen := rfl

@[simp] theorem State.recordError_omem (s : State) (op : Byte) (k : ErrKind) (info : Nat) :
    (s.recordError op k info).omem = s.omem := rfl

@[simp] theorem State.recordError_decCur (s : State) (op : Byte) (k : ErrKind) (info : Nat) :
    (s.recordError op k info).decCur = s.decCur := rfl

@[simp] theorem State.recordError_status (s : State) (op : Byte) (k : ErrKind) (info : Nat) :
    (s.recordError op k info).status = if errFatal k then putFlag s.status .fatal true else s.status := rfl

@[simp] theorem State.recordError_err (s : State) (op : Byte) (k : ErrKind) (info : Nat) :
    (s.recordError op k info).err = setErrBit s.err k := rfl

@[simp] theorem State.recordError_lastErr (s : State) (op : Byte) (k : ErrKind) (info : Nat) :
    (s.recordError op k info).lastErr = lastErrWord op k := rfl

@[simp] theorem State.recordError_eInfo (s : State) (op : Byte) (k : ErrKind) (info : Nat) :
    (s.recordError op k info).eInfo = BitVec.ofNat 32 info := rfl

@[simp] theorem State.recordError_capIn (s : State) (op : Byte) (k : ErrKind) (info : Nat) :
    (s.recordError op k info).capIn = s.capIn := rfl

@[simp] theorem State.recordError_capPk (s : State) (op : Byte) (k : ErrKind) (info : Nat) :
    (s.recordError op k info).capPk = s.capPk := rfl

@[simp] theorem State.recordError_capOut (s : State) (op : Byte) (k : ErrKind) (info : Nat) :
    (s.recordError op k info).capOut = s.capOut := rfl

@[simp] theorem State.recordError_pending (s : State) (op : Byte) (k : ErrKind) (info : Nat) :
    (s.recordError op k info).pending = s.pending := rfl

@[simp] theorem State.recordError_responses (s : State) (op : Byte) (k : ErrKind) (info : Nat) :
    (s.recordError op k info).responses = s.responses := rfl

@[simp] theorem State.toReset_imem (s : State) :
    (s.toReset).imem = [] := rfl

@[simp] theorem State.toReset_ft (s : State) :
    (s.toReset).ft = ftZero := rfl

@[simp] theorem State.toReset_arena (s : State) :
    (s.toReset).arena = [] := rfl

@[simp] theorem State.toReset_nc (s : State) :
    (s.toReset).nc = [] := rfl

@[simp] theorem State.toReset_root (s : State) :
    (s.toReset).root = Config.nilIdx := rfl

@[simp] theorem State.toReset_dict (s : State) :
    (s.toReset).dict = dictAbsent := rfl

@[simp] theorem State.toReset_pmem (s : State) :
    (s.toReset).pmem = [] := rfl

@[simp] theorem State.toReset_bitLen (s : State) :
    (s.toReset).bitLen = 0#24 := rfl

@[simp] theorem State.toReset_omem (s : State) :
    (s.toReset).omem = [] := rfl

@[simp] theorem State.toReset_decCur (s : State) :
    (s.toReset).decCur = Config.nilIdx := rfl

@[simp] theorem State.toReset_status (s : State) :
    (s.toReset).status = 0#8 := rfl

@[simp] theorem State.toReset_err (s : State) :
    (s.toReset).err = 0#11 := rfl

@[simp] theorem State.toReset_lastErr (s : State) :
    (s.toReset).lastErr = 0#16 := rfl

@[simp] theorem State.toReset_eInfo (s : State) :
    (s.toReset).eInfo = 0#32 := rfl

@[simp] theorem State.toReset_capIn (s : State) :
    (s.toReset).capIn = s.capIn := rfl

@[simp] theorem State.toReset_capPk (s : State) :
    (s.toReset).capPk = s.capPk := rfl

@[simp] theorem State.toReset_capOut (s : State) :
    (s.toReset).capOut = s.capOut := rfl

@[simp] theorem State.toReset_pending (s : State) :
    (s.toReset).pending = s.pending := rfl

@[simp] theorem State.toReset_responses (s : State) :
    (s.toReset).responses = s.responses := rfl

@[simp] theorem State.withFetchWord_imem (s : State) (nbits w : Nat) :
    (s.withFetchWord nbits w).imem = s.imem := rfl

@[simp] theorem State.withFetchWord_ft (s : State) (nbits w : Nat) :
    (s.withFetchWord nbits w).ft = s.ft := rfl

@[simp] theorem State.withFetchWord_arena (s : State) (nbits w : Nat) :
    (s.withFetchWord nbits w).arena = s.arena := rfl

@[simp] theorem State.withFetchWord_nc (s : State) (nbits w : Nat) :
    (s.withFetchWord nbits w).nc = s.nc := rfl

@[simp] theorem State.withFetchWord_root (s : State) (nbits w : Nat) :
    (s.withFetchWord nbits w).root = s.root := rfl

@[simp] theorem State.withFetchWord_dict (s : State) (nbits w : Nat) :
    (s.withFetchWord nbits w).dict = s.dict := rfl

@[simp] theorem State.withFetchWord_pmem (s : State) (nbits w : Nat) :
    (s.withFetchWord nbits w).pmem = s.pmem := rfl

@[simp] theorem State.withFetchWord_bitLen (s : State) (nbits w : Nat) :
    (s.withFetchWord nbits w).bitLen = s.bitLen := rfl

@[simp] theorem State.withFetchWord_omem (s : State) (nbits w : Nat) :
    (s.withFetchWord nbits w).omem = s.omem := rfl

@[simp] theorem State.withFetchWord_decCur (s : State) (nbits w : Nat) :
    (s.withFetchWord nbits w).decCur = s.decCur := rfl

@[simp] theorem State.withFetchWord_status (s : State) (nbits w : Nat) :
    (s.withFetchWord nbits w).status = s.status := rfl

@[simp] theorem State.withFetchWord_err (s : State) (nbits w : Nat) :
    (s.withFetchWord nbits w).err = s.err := rfl

@[simp] theorem State.withFetchWord_lastErr (s : State) (nbits w : Nat) :
    (s.withFetchWord nbits w).lastErr = s.lastErr := rfl

@[simp] theorem State.withFetchWord_eInfo (s : State) (nbits w : Nat) :
    (s.withFetchWord nbits w).eInfo = s.eInfo := rfl

@[simp] theorem State.withFetchWord_capIn (s : State) (nbits w : Nat) :
    (s.withFetchWord nbits w).capIn = s.capIn := rfl

@[simp] theorem State.withFetchWord_capPk (s : State) (nbits w : Nat) :
    (s.withFetchWord nbits w).capPk = s.capPk := rfl

@[simp] theorem State.withFetchWord_capOut (s : State) (nbits w : Nat) :
    (s.withFetchWord nbits w).capOut = s.capOut := rfl

@[simp] theorem State.withFetchWord_pending (s : State) (nbits w : Nat) :
    (s.withFetchWord nbits w).pending = .command (tableWord nbits w) :: s.pending := rfl

@[simp] theorem State.withFetchWord_responses (s : State) (nbits w : Nat) :
    (s.withFetchWord nbits w).responses = s.responses := rfl

@[simp] theorem buildCleared_imem (s : State) :
    (buildCleared s).imem = s.imem := rfl

@[simp] theorem buildCleared_ft (s : State) :
    (buildCleared s).ft = s.ft := rfl

@[simp] theorem buildCleared_arena (s : State) :
    (buildCleared s).arena = [] := rfl

@[simp] theorem buildCleared_nc (s : State) :
    (buildCleared s).nc = [] := rfl

@[simp] theorem buildCleared_root (s : State) :
    (buildCleared s).root = Config.nilIdx := rfl

@[simp] theorem buildCleared_dict (s : State) :
    (buildCleared s).dict = s.dict := rfl

@[simp] theorem buildCleared_pmem (s : State) :
    (buildCleared s).pmem = s.pmem := rfl

@[simp] theorem buildCleared_bitLen (s : State) :
    (buildCleared s).bitLen = s.bitLen := rfl

@[simp] theorem buildCleared_omem (s : State) :
    (buildCleared s).omem = s.omem := rfl

@[simp] theorem buildCleared_decCur (s : State) :
    (buildCleared s).decCur = s.decCur := rfl

@[simp] theorem buildCleared_status (s : State) :
    (buildCleared s).status = putFlag (putFlag (putFlag s.status .treeValid false) .dictValid false) .leafRoot false := rfl

@[simp] theorem buildCleared_err (s : State) :
    (buildCleared s).err = s.err := rfl

@[simp] theorem buildCleared_lastErr (s : State) :
    (buildCleared s).lastErr = s.lastErr := rfl

@[simp] theorem buildCleared_eInfo (s : State) :
    (buildCleared s).eInfo = s.eInfo := rfl

@[simp] theorem buildCleared_capIn (s : State) :
    (buildCleared s).capIn = s.capIn := rfl

@[simp] theorem buildCleared_capPk (s : State) :
    (buildCleared s).capPk = s.capPk := rfl

@[simp] theorem buildCleared_capOut (s : State) :
    (buildCleared s).capOut = s.capOut := rfl

@[simp] theorem buildCleared_pending (s : State) :
    (buildCleared s).pending = s.pending := rfl

@[simp] theorem buildCleared_responses (s : State) :
    (buildCleared s).responses = s.responses := rfl

@[simp] theorem encodeEmptied_imem (s : State) :
    (encodeEmptied s).imem = s.imem := rfl

@[simp] theorem encodeEmptied_ft (s : State) :
    (encodeEmptied s).ft = s.ft := rfl

@[simp] theorem encodeEmptied_arena (s : State) :
    (encodeEmptied s).arena = s.arena := rfl

@[simp] theorem encodeEmptied_nc (s : State) :
    (encodeEmptied s).nc = s.nc := rfl

@[simp] theorem encodeEmptied_root (s : State) :
    (encodeEmptied s).root = s.root := rfl

@[simp] theorem encodeEmptied_dict (s : State) :
    (encodeEmptied s).dict = s.dict := rfl

@[simp] theorem encodeEmptied_pmem (s : State) :
    (encodeEmptied s).pmem = [] := rfl

@[simp] theorem encodeEmptied_bitLen (s : State) :
    (encodeEmptied s).bitLen = 0#24 := rfl

@[simp] theorem encodeEmptied_omem (s : State) :
    (encodeEmptied s).omem = s.omem := rfl

@[simp] theorem encodeEmptied_decCur (s : State) :
    (encodeEmptied s).decCur = s.decCur := rfl

@[simp] theorem encodeEmptied_status (s : State) :
    (encodeEmptied s).status = putFlag s.status .encValid false := rfl

@[simp] theorem encodeEmptied_err (s : State) :
    (encodeEmptied s).err = s.err := rfl

@[simp] theorem encodeEmptied_lastErr (s : State) :
    (encodeEmptied s).lastErr = s.lastErr := rfl

@[simp] theorem encodeEmptied_eInfo (s : State) :
    (encodeEmptied s).eInfo = s.eInfo := rfl

@[simp] theorem encodeEmptied_capIn (s : State) :
    (encodeEmptied s).capIn = s.capIn := rfl

@[simp] theorem encodeEmptied_capPk (s : State) :
    (encodeEmptied s).capPk = s.capPk := rfl

@[simp] theorem encodeEmptied_capOut (s : State) :
    (encodeEmptied s).capOut = s.capOut := rfl

@[simp] theorem encodeEmptied_pending (s : State) :
    (encodeEmptied s).pending = s.pending := rfl

@[simp] theorem encodeEmptied_responses (s : State) :
    (encodeEmptied s).responses = s.responses := rfl

@[simp] theorem decodeEmptied_imem (s : State) :
    (decodeEmptied s).imem = s.imem := rfl

@[simp] theorem decodeEmptied_ft (s : State) :
    (decodeEmptied s).ft = s.ft := rfl

@[simp] theorem decodeEmptied_arena (s : State) :
    (decodeEmptied s).arena = s.arena := rfl

@[simp] theorem decodeEmptied_nc (s : State) :
    (decodeEmptied s).nc = s.nc := rfl

@[simp] theorem decodeEmptied_root (s : State) :
    (decodeEmptied s).root = s.root := rfl

@[simp] theorem decodeEmptied_dict (s : State) :
    (decodeEmptied s).dict = s.dict := rfl

@[simp] theorem decodeEmptied_pmem (s : State) :
    (decodeEmptied s).pmem = s.pmem := rfl

@[simp] theorem decodeEmptied_bitLen (s : State) :
    (decodeEmptied s).bitLen = s.bitLen := rfl

@[simp] theorem decodeEmptied_omem (s : State) :
    (decodeEmptied s).omem = [] := rfl

@[simp] theorem decodeEmptied_decCur (s : State) :
    (decodeEmptied s).decCur = s.root := rfl

@[simp] theorem decodeEmptied_status (s : State) :
    (decodeEmptied s).status = putFlag (putFlag s.status .decValid false) .midTree false := rfl

@[simp] theorem decodeEmptied_err (s : State) :
    (decodeEmptied s).err = s.err := rfl

@[simp] theorem decodeEmptied_lastErr (s : State) :
    (decodeEmptied s).lastErr = s.lastErr := rfl

@[simp] theorem decodeEmptied_eInfo (s : State) :
    (decodeEmptied s).eInfo = s.eInfo := rfl

@[simp] theorem decodeEmptied_capIn (s : State) :
    (decodeEmptied s).capIn = s.capIn := rfl

@[simp] theorem decodeEmptied_capPk (s : State) :
    (decodeEmptied s).capPk = s.capPk := rfl

@[simp] theorem decodeEmptied_capOut (s : State) :
    (decodeEmptied s).capOut = s.capOut := rfl

@[simp] theorem decodeEmptied_pending (s : State) :
    (decodeEmptied s).pending = s.pending := rfl

@[simp] theorem decodeEmptied_responses (s : State) :
    (decodeEmptied s).responses = s.responses := rfl

@[simp] theorem State.resetWith_imem (p : Config.Params) :
    (State.resetWith p).imem = [] := rfl

@[simp] theorem State.resetWith_ft (p : Config.Params) :
    (State.resetWith p).ft = ftZero := rfl

@[simp] theorem State.resetWith_arena (p : Config.Params) :
    (State.resetWith p).arena = [] := rfl

@[simp] theorem State.resetWith_nc (p : Config.Params) :
    (State.resetWith p).nc = [] := rfl

@[simp] theorem State.resetWith_root (p : Config.Params) :
    (State.resetWith p).root = Config.nilIdx := rfl

@[simp] theorem State.resetWith_dict (p : Config.Params) :
    (State.resetWith p).dict = dictAbsent := rfl

@[simp] theorem State.resetWith_pmem (p : Config.Params) :
    (State.resetWith p).pmem = [] := rfl

@[simp] theorem State.resetWith_bitLen (p : Config.Params) :
    (State.resetWith p).bitLen = 0#24 := rfl

@[simp] theorem State.resetWith_omem (p : Config.Params) :
    (State.resetWith p).omem = [] := rfl

@[simp] theorem State.resetWith_decCur (p : Config.Params) :
    (State.resetWith p).decCur = Config.nilIdx := rfl

@[simp] theorem State.resetWith_status (p : Config.Params) :
    (State.resetWith p).status = 0#8 := rfl

@[simp] theorem State.resetWith_err (p : Config.Params) :
    (State.resetWith p).err = 0#11 := rfl

@[simp] theorem State.resetWith_lastErr (p : Config.Params) :
    (State.resetWith p).lastErr = 0#16 := rfl

@[simp] theorem State.resetWith_eInfo (p : Config.Params) :
    (State.resetWith p).eInfo = 0#32 := rfl

@[simp] theorem State.resetWith_capIn (p : Config.Params) :
    (State.resetWith p).capIn = BitVec.ofNat 32 p.inMax := rfl

@[simp] theorem State.resetWith_capPk (p : Config.Params) :
    (State.resetWith p).capPk = BitVec.ofNat 32 p.pkMax := rfl

@[simp] theorem State.resetWith_capOut (p : Config.Params) :
    (State.resetWith p).capOut = BitVec.ofNat 32 p.outMax := rfl

@[simp] theorem State.resetWith_pending (p : Config.Params) :
    (State.resetWith p).pending = [] := rfl

@[simp] theorem State.resetWith_responses (p : Config.Params) :
    (State.resetWith p).responses = [] := rfl

/-- The host's own record grows by exactly the response. -/
theorem State.respond_eq (s : State) (code : BitVec 4) (data : Word) :
    s.respond code data = { s with responses := s.responses ++ [{ code := code, data := data }] } := rfl

end Sys2Proof.Machine
end

