-- ==== Sys2Proof/Laws/Flags.lean ====
section
/-! SUPPORT. Reading a flag or an ERR bit after writing one (10_state.md R33, R34). -/

namespace Sys2Proof.Machine

theorem flagBit_lt (f : Flag) : flagBit f < 8 := by cases f <;> decide

theorem flagBit_injective {f g : Flag} (h : flagBit f = flagBit g) : f = g := by
  cases f <;> cases g <;> first | rfl | exact absurd h (by decide)

/-- A flag after a write: the value written to that flag, the old value of every other. -/
@[simp] theorem getFlag_putFlag (st : BitVec 8) (f g : Flag) (b : Bool) :
    getFlag (putFlag st f b) g = if g = f then b else getFlag st g := by
  have hg := flagBit_lt g
  by_cases h : g = f
  · subst h
    cases b <;> simp [getFlag, putFlag, hg]
  · have hne : flagBit g ≠ flagBit f := fun e => h (flagBit_injective e)
    cases b
    · rcases Nat.lt_or_gt_of_ne hne with hlt | hgt
      · simp [getFlag, putFlag, h, hg, hlt]
      · have : ¬ flagBit g < flagBit f := by omega
        have : flagBit g - flagBit f ≠ 0 := by omega
        simp [getFlag, putFlag, *]
    · rcases Nat.lt_or_gt_of_ne hne with hlt | hgt
      · simp [getFlag, putFlag, h, hg, hlt]
      · have : ¬ flagBit g < flagBit f := by omega
        have : flagBit g - flagBit f ≠ 0 := by omega
        simp [getFlag, putFlag, *]

theorem State.flag_eq (s : State) (f : Flag) : s.flag f = getFlag s.status f := rfl

@[simp] theorem State.flag_mk (s : State) (st : BitVec 8) (f : Flag) :
    State.flag { s with status := st } f = getFlag st f := rfl

@[simp] theorem State.flag_respond (s : State) (code : BitVec 4) (data : Word) (f : Flag) :
    (s.respond code data).flag f = s.flag f := rfl

/-- The flags after a failure: FATAL may rise, every other is kept (60_exceptions.md R201, R202). -/
@[simp] theorem State.flag_recordError (s : State) (op : Byte) (k : ErrKind) (info : Nat) (f : Flag) :
    (s.recordError op k info).flag f = if f = .fatal ∧ errFatal k = true then true else s.flag f := by
  simp only [State.flag, State.recordError]
  by_cases hk : errFatal k = true <;> by_cases hf : f = .fatal <;> simp [hk, hf]

/-- After reset or CLEAR every flag is 0 (10_state.md R40). -/
@[simp] theorem State.flag_toReset (s : State) (f : Flag) : s.toReset.flag f = false := by
  cases f <;> simp [State.flag, getFlag]

theorem errCode_lt (k : ErrKind) : (errCode k).toNat < 11 := by cases k <;> decide

theorem errCode_injective {k l : ErrKind} (h : errCode k = errCode l) : k = l := by
  cases k <;> cases l <;> first | rfl | exact absurd h (by decide)

/-- An ERR bit after a failure: sticky, and the failing code's bit set (R201). -/
@[simp] theorem getLsbD_setErrBit (e : BitVec 11) (k : ErrKind) (j : Nat) :
    (setErrBit e k).getLsbD j = (e.getLsbD j || decide (j = (errCode k).toNat)) := by
  have hk := errCode_lt k
  rcases Nat.lt_trichotomy j (errCode k).toNat with h | h | h
  · have : j < 11 := by omega
    simp [setErrBit, this, h, Nat.ne_of_lt h]
  · subst h; simp [setErrBit, hk]
  · have : j ≠ (errCode k).toNat := by omega
    have : ¬ j < (errCode k).toNat := by omega
    have : j - (errCode k).toNat ≠ 0 := by omega
    simp [setErrBit, *]

end Sys2Proof.Machine
end

