-- ==== Sys2Proof/Laws/Memory.lean ====
section
/-! SUPPORT. The element-addressed spaces: every byte memory is in the one canonical form and every operation keeps it (20_memory.md R66);
reads after writes; bits, packing and unpacking (10_state.md R30, 30_encoding.md R89). -/

namespace Sys2Proof.Machine

/-! ## Byte memories -/

@[simp] theorem memCells_length (m : List Byte) : (memCells m).length = m.length := by simp [memCells]

/-- Every byte memory is canonical: it lists the addresses 0 to length − 1, each once. -/
theorem memCells_wf (m : List Byte) : Memory.wf (memCells m) = true := by
  simp only [Memory.wf, memCells_length, decide_eq_true_eq]
  apply List.ext_getElem
  · simp [memCells]
  · intro i h₁ h₂
    simp [memCells]

/-- The addresses listed rise strictly, and equal cells are equal memories. -/
theorem memCells_injective {m n : List Byte} (h : memCells m = memCells n) : m = n := by
  have := congrArg (List.map Prod.snd) h
  simpa [memCells, List.map_map, Function.comp_def, List.zipIdx_map_fst] using this

theorem memRead_eq_none_iff (m : List Byte) (i : Nat) : memRead m i = none ↔ m.length ≤ i := by simp [memRead]

@[simp] theorem memAppend_length (m : List Byte) (b : Byte) : (memAppend m b).length = m.length + 1 := by simp [memAppend]

/-- A read after an append: the new byte at the old length, every other index as before. -/
theorem memRead_memAppend (m : List Byte) (b : Byte) (i : Nat) :
    memRead (memAppend m b) i = if i = m.length then some b else memRead m i := by
  by_cases h : i = m.length
  · subst h; simp [memRead, memAppend]
  · rcases Nat.lt_or_gt_of_ne h with hlt | hgt
    · simp [memRead, memAppend, h, List.getElem?_append_left hlt]
    · have h' : m.length ≤ i := by omega
      simp [memRead, memAppend, h, h']
      omega

/-! ## FT and DICT -/

@[simp] theorem ftRead_ftWrite (t : FreqTable) (a b : Byte) (c : Count) :
    ftRead (ftWrite t a c) b = if b = a then c else ftRead t b := by
  by_cases h : b = a
  · subst h; simp [ftRead, ftWrite]
  · have : a.toNat ≠ b.toNat := fun e => h (BitVec.eq_of_toNat_eq e.symm)
    simp [ftRead, ftWrite, h, Vector.getElem_set_ne _ _ this]

@[simp] theorem ftRead_ftZero (a : Byte) : ftRead ftZero a = 0#32 := by simp [ftRead, ftZero]

@[simp] theorem dictRead_dictWrite (d : Dictionary) (a b : Byte) (e : DictEntry) :
    dictRead (dictWrite d a e) b = if b = a then e else dictRead d b := by
  by_cases h : b = a
  · subst h; simp [dictRead, dictWrite]
  · have : a.toNat ≠ b.toNat := fun e => h (BitVec.eq_of_toNat_eq e.symm)
    simp [dictRead, dictWrite, h, Vector.getElem_set_ne _ _ this]

@[simp] theorem dictRead_dictAbsent (a : Byte) : dictRead dictAbsent a = none := by simp [dictRead, dictAbsent]

/-- Two frequency tables with the same entries are equal. -/
theorem freqTable_ext {t u : FreqTable} (h : ∀ a, ftRead t a = ftRead u a) : t = u := by
  apply Vector.ext
  intro i hi
  have := h (BitVec.ofNat 8 i)
  simpa [ftRead, Nat.mod_eq_of_lt hi] using this

/-- Two dictionaries with the same entries are equal. -/
theorem dictionary_ext {d e : Dictionary} (h : ∀ a, dictRead d a = dictRead e a) : d = e := by
  apply Vector.ext
  intro i hi
  have := h (BitVec.ofNat 8 i)
  simpa [dictRead, Nat.mod_eq_of_lt hi] using this

/-! ## Bits -/

/-- Bit i of `msbFirst`, counted from the most significant, is bit i of the string, 0 where the string has ended. -/
theorem getMsbD_msbFirst (n : Nat) (bits : List Bool) (i : Nat) (h : i < n) :
    (msbFirst n bits).getMsbD i = bits.getD i false := by
  induction n generalizing bits i with
  | zero => omega
  | succ n ih =>
    cases i with
    | zero =>
      simp only [msbFirst, BitVec.getMsbD, h, decide_true, Bool.true_and, BitVec.getLsbD_cons]
      cases bits <;> simp
    | succ i =>
      have hi : i < n := by omega
      have h1 : n - 1 - i = n + 1 - 1 - (i + 1) := by omega
      have h2 : n + 1 - 1 - (i + 1) ≠ n := by omega
      have := ih bits.tail i hi
      simp only [BitVec.getMsbD, hi, decide_true, Bool.true_and, h1] at this
      simp only [msbFirst, BitVec.getMsbD, h, decide_true, Bool.true_and, BitVec.getLsbD_cons, h2, if_false, this]
      cases bits <;> simp

/-- The same bit counted from the least significant. -/
theorem getLsbD_msbFirst (n : Nat) (bits : List Bool) (i : Nat) (h : i < n) :
    (msbFirst n bits).getLsbD (n - 1 - i) = bits.getD i false := by
  have := getMsbD_msbFirst n bits i h
  simpa [BitVec.getMsbD, h] using this

@[simp] theorem pack_length (bits : List Bool) : (pack bits).length = bytesFor bits.length := by simp [pack]

/-- `pbit` is defined exactly below 8·PK_LEN (43_tree_decoder.md R140). -/
theorem pbit_isSome_iff (m : List Byte) (k : Nat) : (pbit m k).isSome = true ↔ k < 8 * m.length := by
  simp [pbit, memRead]; omega

/-- Bits in range are read, in order (R140). -/
theorem readBits_ok (m : List Byte) (k n : Nat) (h : k + n ≤ 8 * m.length) :
    ∃ bits, readBits m k n = .ok bits ∧ bits.length = n ∧ ∀ j, j < n → bits[j]? = pbit m (k + j) := by
  induction n generalizing k with
  | zero => exact ⟨[], rfl, rfl, by omega⟩
  | succ n ih =>
    obtain ⟨rest, hr, hl, hb⟩ := ih (k + 1) (by omega)
    obtain ⟨b, hbit⟩ := Option.isSome_iff_exists.mp ((pbit_isSome_iff m k).mpr (by omega))
    refine ⟨b :: rest, by simp [readBits, hbit, hr, bind, Except.bind, pure, Except.pure], by simp [hl], ?_⟩
    intro j hj
    cases j with
    | zero => simp [hbit]
    | succ j =>
      have := hb j (by omega)
      simp only [List.getElem?_cons_succ, this]
      congr 1; omega

/-- A read of bits that answers was in range and answers the bits of PMEM. -/
theorem readBits_inv {m : List Byte} {k n : Nat} {bits : List Bool} (h : readBits m k n = .ok bits) :
    bits.length = n ∧ ∀ j, j < n → bits[j]? = pbit m (k + j) := by
  induction n generalizing k bits with
  | zero => simp [readBits] at h; subst h; exact ⟨rfl, by omega⟩
  | succ n ih =>
    simp only [readBits] at h
    cases hp : pbit m k with
    | none => simp [hp] at h
    | some b =>
      cases hr : readBits m (k + 1) n with
      | error e => simp [hp, hr, bind, Except.bind] at h
      | ok rest =>
        simp [hp, hr, bind, Except.bind, pure, Except.pure] at h
        subst h
        obtain ⟨hl, hb⟩ := ih hr
        refine ⟨by simp [hl], ?_⟩
        intro j hj
        cases j with
        | zero => simp [hp]
        | succ j =>
          have := hb j (by omega)
          simp only [List.getElem?_cons_succ, this]
          congr 1; omega

end Sys2Proof.Machine
end

