-- ==== Sys2Proof/Laws/Ops.lean ====
section
/-! SUPPORT. What each shared operation can do, said once: the provers cite these instead of unfolding it. -/

namespace Sys2Proof.Machine

/-! ## Responding and failing -/

theorem succeed_eq (data : Word) (s : State) : succeed data s = .next (s.respond 0#4 data) := rfl

theorem raise_eq (op : Byte) (k : ErrKind) (info : Nat) (s : State) :
    raise op k info s = .next ((s.recordError op k info).respond (errCode k) 0#32) := rfl

/-- A failure always answers a next state (60_exceptions.md R201). -/
theorem raise_next {op : Byte} {k : ErrKind} {info : Nat} {s t : State} (h : raise op k info s = .next t) :
    t = (s.recordError op k info).respond (errCode k) 0#32 := by
  simpa [raise, eq_comm] using h

theorem raise_ne_fault (op : Byte) (k : ErrKind) (info : Nat) (s : State) (f : Fault) : raise op k info s ≠ .fault f := by
  simp [raise]

/-! ## The gates of R205 -/

@[simp] theorem unlessHalted_of_not_fatal {op : Byte} {s : State} {body : Result} (h : s.flag .fatal = false) :
    unlessHalted op s body = body := by simp [unlessHalted, h]

@[simp] theorem unlessHalted_of_fatal {op : Byte} {s : State} {body : Result} (h : s.flag .fatal = true) :
    unlessHalted op s body = raise op .halted 0 s := by simp [unlessHalted, h]

@[simp] theorem requireFlag_of_set {op : Byte} {f : Flag} {s : State} {body : Result} (h : s.flag f = true) :
    requireFlag op f s body = body := by simp [requireFlag, h]

@[simp] theorem requireFlag_of_clear {op : Byte} {f : Flag} {s : State} {body : Result} (h : s.flag f = false) :
    requireFlag op f s body = raise op .seq 0 s := by simp [requireFlag, h]

/-- A gated command is refused under FATAL or runs without it. -/
theorem unlessHalted_cases {op : Byte} {s : State} {body r : Result} (h : unlessHalted op s body = r) :
    (s.flag .fatal = true ∧ r = raise op .halted 0 s) ∨ (s.flag .fatal = false ∧ r = body) := by
  cases hf : s.flag .fatal
  · exact .inr ⟨rfl, by simpa [hf, eq_comm] using h⟩
  · exact .inl ⟨rfl, by simpa [hf, eq_comm] using h⟩

/-- A command with a prerequisite runs with it or is refused with SEQ. -/
theorem requireFlag_cases {op : Byte} {f : Flag} {s : State} {body r : Result} (h : requireFlag op f s body = r) :
    (s.flag f = true ∧ r = body) ∨ (s.flag f = false ∧ r = raise op .seq 0 s) := by
  cases hf : s.flag f
  · exact .inr ⟨rfl, by simpa [hf, eq_comm] using h⟩
  · exact .inl ⟨rfl, by simpa [hf, eq_comm] using h⟩

/-- The end of a command: its body on the helper's answer, a failure on `onFail`, or the helper's fault. -/
theorem complete_cases {α : Type} {op : Byte} {onFail : State} {x : Except Stop α} {body : α → Result} {r : Result}
    (h : complete op onFail x body = r) :
    (∃ a, x = .ok a ∧ r = body a) ∨ (∃ k info, x = .error (.raised k info) ∧ r = raise op k info onFail) ∨
      (∃ f, x = .error (.fault f) ∧ r = .fault f) := by
  unfold complete at h
  split at h
  · exact .inl ⟨_, rfl, h.symm⟩
  · exact .inr (.inl ⟨_, _, rfl, h.symm⟩)
  · exact .inr (.inr ⟨_, rfl, h.symm⟩)

@[simp] theorem complete_ok {α : Type} (op : Byte) (onFail : State) (a : α) (body : α → Result) :
    complete op onFail (.ok a) body = body a := rfl

@[simp] theorem complete_raised {α : Type} (op : Byte) (onFail : State) (k : ErrKind) (info : Nat) (body : α → Result) :
    complete op onFail (.error (.raised k info)) body = raise op k info onFail := rfl

@[simp] theorem complete_fault {α : Type} (op : Byte) (onFail : State) (f : Fault) (body : α → Result) :
    complete op onFail (.error (.fault f)) body = .fault f := rfl

/-- A read-out answers its datum or RANGE (20_memory.md R65). -/
theorem readOut_cases {op : Byte} {index : Nat} {datum : Option Word} {s : State} {r : Result}
    (h : readOut op index datum s = r) :
    (∃ d, datum = some d ∧ r = succeed d s) ∨ (datum = none ∧ r = raise op .range index s) := by
  unfold readOut at h
  split at h
  · exact .inl ⟨_, rfl, h.symm⟩
  · exact .inr ⟨rfl, h.symm⟩

/-! ## ARENA and NC -/

theorem nodeAt_ok_iff (arena : List Node) (n : Idx) (nd : Node) : nodeAt arena n = .ok nd ↔ arena[n.toNat]? = some nd := by
  unfold nodeAt; split <;> simp_all

theorem nodeAt_error {arena : List Node} {n : Idx} {e : Stop} (h : nodeAt arena n = .error e) :
    e = .fault .arenaIndex ∧ arena.length ≤ n.toNat := by
  unfold nodeAt at h
  split at h
  · simp at h
  · exact ⟨by simpa [eq_comm] using h, by simpa using ‹arena[n.toNat]? = none›⟩

/-- The insertion position when every entry is a node: the number of entries of at most the frequency (40_tree_builder.md R101). -/
theorem ncPosition_ok {arena : List Node} {f : Count} {nc : List Idx} (h : ∀ q ∈ nc, q.toNat < arena.length) :
    ncPosition arena f nc =
      .ok (nc.countP fun q => (arena[q.toNat]?.map fun nd => decide ((nodeFreq nd).toNat ≤ f.toNat)).getD false) := by
  induction nc with
  | nil => rfl
  | cons q rest ih =>
    have hq : q.toNat < arena.length := h q (by simp)
    have hr := ih (fun x hx => h x (by simp [hx]))
    have hn : nodeAt arena q = .ok arena[q.toNat] := (nodeAt_ok_iff _ _ _).mpr (by simp [hq])
    by_cases hle : (nodeFreq arena[q.toNat]).toNat ≤ f.toNat <;>
      simp [ncPosition, hn, hr, bind, Except.bind, pure, Except.pure, hq, hle]

/-- The stable insert never fails on indices of nodes, and only moves NC (R101). -/
theorem ncInsert_ok {b : Builder} {n : Idx} (hn : n.toNat < b.arena.length) (h : ∀ q ∈ b.nc, q.toNat < b.arena.length) :
    ∃ p, ncInsert b n = .ok { b with nc := b.nc.take p ++ n :: b.nc.drop p } := by
  have hnode : nodeAt b.arena n = .ok b.arena[n.toNat] := (nodeAt_ok_iff _ _ _).mpr (by simp [hn])
  exact ⟨_, by simp [ncInsert, hnode, ncPosition_ok h, bind, Except.bind, pure, Except.pure]; rfl⟩

/-- What an insert answers: NC with the new index somewhere, the arena kept. -/
theorem ncInsert_inv {b b' : Builder} {n : Idx} (h : ncInsert b n = .ok b') :
    b'.arena = b.arena ∧ ∃ p, b'.nc = b.nc.take p ++ n :: b.nc.drop p := by
  unfold ncInsert at h
  cases h₁ : nodeAt b.arena n with
  | error e => simp [h₁, bind, Except.bind] at h
  | ok nd =>
    cases h₂ : ncPosition b.arena (nodeFreq nd) b.nc with
    | error e => simp [h₁, h₂, bind, Except.bind] at h
    | ok p =>
      simp [h₁, h₂, bind, Except.bind, pure, Except.pure] at h
      subst h
      exact ⟨rfl, p, rfl⟩

/-- An insert adds exactly one entry (R103). -/
theorem ncInsert_length {b b' : Builder} {n : Idx} (h : ncInsert b n = .ok b') : b'.nc.length = b.nc.length + 1 := by
  obtain ⟨-, p, hp⟩ := ncInsert_inv h
  rw [hp]; simp; omega

/-! ## The encoder's scan -/

/-- Every byte has a code exactly when the scan finds none missing (42_bit_encoder.md R130). -/
theorem firstMissing_eq_none_iff (d : Dictionary) (i : Nat) (input : List Byte) :
    firstMissing d i input = none ↔ ∀ b ∈ input, (dictRead d b).isSome = true := by
  induction input generalizing i with
  | nil => simp [firstMissing]
  | cons b rest ih => by_cases h : (dictRead d b).isSome = true <;> simp [firstMissing, h, ih]

/-- The scan reports the first byte without a code and its index (R135). -/
theorem firstMissing_append (d : Dictionary) (i : Nat) (pre post : List Byte) (b : Byte)
    (hpre : ∀ x ∈ pre, (dictRead d x).isSome = true) (hb : dictRead d b = none) :
    firstMissing d i (pre ++ b :: post) = some (b, i + pre.length) := by
  induction pre generalizing i with
  | nil => simp [firstMissing, hb]
  | cons x rest ih =>
    have hx : (dictRead d x).isSome = true := hpre x (by simp)
    have := ih (i + 1) (fun y hy => hpre y (by simp [hy]))
    simp [firstMissing, hx, this]; omega

/-! ## DECODEL's bound -/

theorem bitLimit_ok_iff (s : State) (n : BitVec 24) (k : Nat) :
    bitLimit s n = .ok k ↔ k = n.toNat ∧ n.toNat ≤ 8 * s.pmem.length := by
  unfold bitLimit; split <;> simp_all [eq_comm]

end Sys2Proof.Machine
end

