-- ==== Sys2Proof/Laws/Codec.lean ====
section
/-! SUPPORT. What the helpers of the four codec components can do, said once: the builder (40_tree_builder.md), the dictionary walk
(41_code_dict_generator.md), the encoder (42_bit_encoder.md), the decoder (43_tree_decoder.md). -/

namespace Sys2Proof.Machine

/-! ## Builder -/

theorem ncRemoveMin_ok_iff (nc : List Idx) (r : Idx) (rest : List Idx) : ncRemoveMin nc = .ok (r, rest) ↔ nc = r :: rest := by
  cases nc <;> simp [ncRemoveMin]

theorem ncHead_ok_iff (nc : List Idx) (r : Idx) : ncHead nc = .ok r ↔ nc.head? = some r := by
  cases nc <;> simp [ncHead]

/-- What adding a node answers: the node last in ARENA, its index somewhere in NC (R101, R109). -/
theorem addNode_inv {b b' : Builder} {nd : Node} (h : addNode b nd = .ok b') :
    b'.arena = b.arena ++ [nd] ∧ ∃ p, b'.nc = b.nc.take p ++ BitVec.ofNat 9 b.arena.length :: b.nc.drop p :=
  ncInsert_inv h

/-- Adding a node to a builder whose indices are all in range never fails, as long as the new index fits its 9 bits. -/
theorem addNode_ok {b : Builder} (nd : Node) (hlen : b.arena.length < 2 ^ 9) (h : ∀ q ∈ b.nc, q.toNat < b.arena.length) :
    ∃ p, addNode b nd =
      .ok { arena := b.arena ++ [nd], nc := b.nc.take p ++ BitVec.ofNat 9 b.arena.length :: b.nc.drop p } := by
  have hn : (BitVec.ofNat 9 b.arena.length).toNat < (b.arena ++ [nd]).length := by
    simp; omega
  exact ncInsert_ok (b := { b with arena := b.arena ++ [nd] }) hn
    fun q hq => by have := h q hq; simp; omega

/-- What a merge answers: the two heads became the children of a new last node (R106). -/
theorem mergeStep_inv {b b' : Builder} (h : mergeStep b = .ok b') :
    ∃ a c rest x y p, b.nc = a :: c :: rest ∧ b.arena[a.toNat]? = some x ∧ b.arena[c.toNat]? = some y ∧
      b'.arena = b.arena ++ [.internal (nodeFreq x + nodeFreq y) a c] ∧
      b'.nc = rest.take p ++ BitVec.ofNat 9 b.arena.length :: rest.drop p := by
  obtain ⟨arena, nc⟩ := b
  unfold mergeStep at h
  match nc, h with
  | [], h => simp [ncRemoveMin, bind, Except.bind] at h
  | [a], h => simp [ncRemoveMin, bind, Except.bind] at h
  | a :: c :: rest, h =>
    cases hx : nodeAt arena a with
    | error e => simp [ncRemoveMin, hx, bind, Except.bind] at h
    | ok x =>
      cases hy : nodeAt arena c with
      | error e => simp [ncRemoveMin, hx, hy, bind, Except.bind] at h
      | ok y =>
        simp only [ncRemoveMin, hx, hy, bind, Except.bind] at h
        obtain ⟨harena, p, hnc⟩ := addNode_inv h
        exact ⟨a, c, rest, x, y, p, rfl, (nodeAt_ok_iff _ _ _).mp hx, (nodeAt_ok_iff _ _ _).mp hy, harena, hnc⟩

/-- A merge lowers NC_SIZE by one (R103). -/
theorem mergeStep_length {b b' : Builder} (h : mergeStep b = .ok b') : b'.nc.length + 1 = b.nc.length := by
  obtain ⟨a, c, rest, x, y, p, hnc, -, -, -, hnc'⟩ := mergeStep_inv h
  rw [hnc, hnc']; simp; omega

/-- The rules of the loop: it stops at one entry, else it merges and goes on (R104). -/
theorem mergeAll_stop {k : Nat} {b : Builder} (h : b.nc.length ≤ 1) : mergeAll k b = .ok b := by
  cases k with
  | zero => rfl
  | succ k => simp [mergeAll, Nat.not_lt.mpr h]

theorem mergeAll_step {k : Nat} {b b' : Builder} (h : 1 < b.nc.length) (hm : mergeStep b = .ok b') :
    mergeAll (k + 1) b = mergeAll k b' := by
  simp [mergeAll, h, hm, bind, Except.bind]

/-- A loop given NC_SIZE rounds that answers ends with at most one entry (R103, R245). -/
theorem mergeAll_nc_length {k : Nat} {b b' : Builder} (h : mergeAll k b = .ok b') (hk : b.nc.length ≤ k + 1) :
    b'.nc.length ≤ 1 := by
  induction k generalizing b with
  | zero => simp [mergeAll] at h; subst h; omega
  | succ k ih =>
    by_cases hl : 1 < b.nc.length
    · cases hm : mergeStep b with
      | error e => simp [mergeAll, hl, hm, bind, Except.bind] at h
      | ok b₁ =>
        rw [mergeAll_step hl hm] at h
        have := mergeStep_length hm
        exact ih h (by omega)
    · rw [mergeAll_stop (by omega)] at h
      simp at h; subst h; omega

/-! ## Dictionary -/

theorem walk_leaf {arena : List Node} {k : Nat} {n : Idx} {path : List Bool} {d : Dictionary} {sym : Byte} {f : Count}
    (h : arena[n.toNat]? = some (.leaf sym f)) : walk arena (k + 1) n path d = .ok (dictWrite d sym (some path)) := by
  simp [walk, (nodeAt_ok_iff _ _ _).mpr h, bind, Except.bind, pure, Except.pure]

theorem walk_internal {arena : List Node} {k : Nat} {n l r : Idx} {path : List Bool} {d d₁ : Dictionary} {f : Count}
    (h : arena[n.toNat]? = some (.internal f l r)) (hl : walk arena k l (path ++ [false]) d = .ok d₁) :
    walk arena (k + 1) n path d = walk arena k r (path ++ [true]) d₁ := by
  simp [walk, (nodeAt_ok_iff _ _ _).mpr h, hl, bind, Except.bind]

theorem dictOf_leaf {arena : List Node} {root : Idx} {sym : Byte} {f : Count} (h : arena[root.toNat]? = some (.leaf sym f)) :
    dictOf arena root = .ok (dictWrite dictAbsent sym (some [false])) := by
  simp [dictOf, (nodeAt_ok_iff _ _ _).mpr h, bind, Except.bind, pure, Except.pure]

theorem dictOf_internal {arena : List Node} {root l r : Idx} {f : Count} (h : arena[root.toNat]? = some (.internal f l r)) :
    dictOf arena root = walk arena arena.length root [] dictAbsent := by
  simp [dictOf, (nodeAt_ok_iff _ _ _).mpr h, bind, Except.bind]

/-! ## Encoder -/

/-- The three outcomes of the encoder's passes (R130, R135). -/
theorem encodeBits_cases (d : Dictionary) (input : List Byte) (pkMax : Nat) :
    (∃ b i, firstMissing d 0 input = some (b, i) ∧
        encodeBits d input pkMax = .error (.raised .noCode ((b.toNat <<< 24) ||| i))) ∨
      (firstMissing d 0 input = none ∧ bytesFor (bitString d input).length ≤ pkMax ∧
        encodeBits d input pkMax = .ok (bitString d input)) ∨
      (firstMissing d 0 input = none ∧ pkMax < bytesFor (bitString d input).length ∧
        encodeBits d input pkMax = .error (.raised .alloc (bytesFor (bitString d input).length))) := by
  unfold encodeBits
  cases hm : firstMissing d 0 input with
  | some x => exact .inl ⟨x.1, x.2, rfl, rfl⟩
  | none =>
    by_cases h : bytesFor (bitString d input).length ≤ pkMax
    · exact .inr (.inl ⟨rfl, h, by simp [h]⟩)
    · exact .inr (.inr ⟨rfl, by omega, by simp [h]⟩)

@[simp] theorem bitString_nil (d : Dictionary) : bitString d [] = [] := rfl

@[simp] theorem bitString_cons (d : Dictionary) (b : Byte) (rest : List Byte) :
    bitString d (b :: rest) = entryCode (dictRead d b) ++ bitString d rest := rfl

/-- Bit k of a packed string is bit k of the string, 0 in the padding (30_encoding.md R89, 42_bit_encoder.md R132). -/
theorem pbit_pack (bits : List Bool) (k : Nat) (h : k < 8 * bytesFor bits.length) :
    pbit (pack bits) k = some (bits.getD k false) := by
  have hj : k / 8 < bytesFor bits.length := by omega
  have := getLsbD_msbFirst 8 (bits.drop (8 * (k / 8))) (k % 8) (by omega)
  simp only [Nat.reduceSub] at this
  simp only [pbit, memRead, pack, List.getElem?_map, List.getElem?_range hj, Option.map_some, this, List.getD_eq_getElem?_getD,
    List.getElem?_drop, Nat.div_add_mod]

/-! ## Decoder -/

@[simp] theorem walkBits_nil (arena : List Node) (root cur : Idx) : walkBits arena root cur [] = .ok ([], cur) := rfl

/-- A bit that reaches a Leaf emits its symbol and returns to the root (43_tree_decoder.md R141). -/
theorem walkBits_leaf {arena : List Node} {root cur l r : Idx} {f g : Count} {bit : Bool} {rest : List Bool} {sym : Byte}
    (hn : arena[cur.toNat]? = some (.internal f l r)) (hl : arena[(if bit then r else l).toNat]? = some (.leaf sym g)) :
    walkBits arena root cur (bit :: rest) = (do
      let (out, last) ← walkBits arena root root rest
      return (sym :: out, last)) := by
  simp [walkBits, (nodeAt_ok_iff _ _ _).mpr hn, nodeLeft, nodeRight, (nodeAt_ok_iff _ _ _).mpr hl, bind, Except.bind]

/-- A bit that reaches an Internal moves there (R141). -/
theorem walkBits_internal {arena : List Node} {root cur l r l' r' : Idx} {f g : Count} {bit : Bool} {rest : List Bool}
    (hn : arena[cur.toNat]? = some (.internal f l r))
    (hi : arena[(if bit then r else l).toNat]? = some (.internal g l' r')) :
    walkBits arena root cur (bit :: rest) = walkBits arena root (if bit then r else l) rest := by
  simp [walkBits, (nodeAt_ok_iff _ _ _).mpr hn, nodeLeft, nodeRight, (nodeAt_ok_iff _ _ _).mpr hi, bind, Except.bind]

/-- Under a Leaf root: only 0 bits, one symbol each, or BADBIT at the first 1 bit (R145). -/
theorem leafBits_cases (sym : Byte) (bits : List Bool) :
    ((∀ b ∈ bits, b = false) ∧ leafBits sym bits = .ok (List.replicate bits.length sym)) ∨
      ∃ k, bits.findIdx? id = some k ∧ leafBits sym bits = .error (.raised .badBit k) := by
  unfold leafBits
  cases h : bits.findIdx? id with
  | some k => exact .inr ⟨k, rfl, rfl⟩
  | none => exact .inl ⟨by simpa [List.findIdx?_eq_none_iff] using h, by simp [List.map_const']⟩

/-- Under a Leaf root the bits spell the Leaf's symbols and the position stays at the root (R145). -/
theorem decodeSymbols_leaf {arena : List Node} {root : Idx} {sym : Byte} {f : Count} (h : arena[root.toNat]? = some (.leaf sym f))
    (bits : List Bool) : decodeSymbols arena root bits = (leafBits sym bits).map fun out => (out, root) := by
  simp [decodeSymbols, (nodeAt_ok_iff _ _ _).mpr h, bind, Except.bind]

/-- Under an Internal root the bits are walked from the root (R141). -/
theorem decodeSymbols_internal {arena : List Node} {root l r : Idx} {f : Count}
    (h : arena[root.toNat]? = some (.internal f l r)) (bits : List Bool) :
    decodeSymbols arena root bits = walkBits arena root root bits := by
  simp [decodeSymbols, (nodeAt_ok_iff _ _ _).mpr h, bind, Except.bind]

/-- The capacity test passes its argument on, or raises ALLOC with the number of symbols (R148). -/
theorem fitOutput_cases (outMax : Nat) (r : List Byte × Idx) :
    (r.1.length ≤ outMax ∧ fitOutput outMax r = .ok r) ∨
      (outMax < r.1.length ∧ fitOutput outMax r = .error (.raised .alloc r.1.length)) := by
  by_cases h : r.1.length ≤ outMax
  · exact .inl ⟨h, by simp [fitOutput, h]⟩
  · exact .inr ⟨by omega, by simp [fitOutput, h]⟩

/-- A decode's bits, once read, are spelled and then tested against OUT_MAX, under either kind of root (R141). -/
theorem decodeBits_of_read {s : State} {n : Nat} {bits : List Bool} (h : readBits s.pmem 0 n = .ok bits) :
    decodeBits s n = decodeSymbols s.arena s.root bits >>= fitOutput s.capOut.toNat := by
  simp [decodeBits, h, bind, Except.bind]

/-- The output a decode answers fits OMEM (R31, R148). -/
theorem decodeBits_fits {s : State} {n : Nat} {out : List Byte} {cur : Idx} (h : decodeBits s n = .ok (out, cur)) :
    out.length ≤ s.capOut.toNat := by
  cases hr : readBits s.pmem 0 n with
  | error e => simp [decodeBits, hr, bind, Except.bind] at h
  | ok bits =>
    rw [decodeBits_of_read hr] at h
    cases hd : decodeSymbols s.arena s.root bits with
    | error e => simp [hd, bind, Except.bind] at h
    | ok r =>
      simp only [hd, bind, Except.bind] at h
      rcases fitOutput_cases s.capOut.toNat r with ⟨hle, he⟩ | ⟨-, he⟩
      · rw [he] at h; cases h; exact hle
      · rw [he] at h; cases h

/-- The outcomes of a decode after its prerequisites (R141, R148). -/
theorem decodeRun_cases (op : Byte) (n : Nat) (s : State) :
    (∃ out cur, decodeBits s n = .ok (out, cur) ∧ decodeRun op n s = succeed 0#32 { s with
        omem := out, decCur := cur, status := putFlag (putFlag s.status .midTree (cur != s.root)) .decValid true }) ∨
      (∃ k info, decodeBits s n = .error (.raised k info) ∧ decodeRun op n s = raise op k info (decodeEmptied s)) ∨
      ∃ f, decodeBits s n = .error (.fault f) ∧ decodeRun op n s = .fault f := by
  unfold decodeRun
  cases h : decodeBits s n with
  | ok x => exact .inl ⟨x.1, x.2, rfl, rfl⟩
  | error e =>
    cases e with
    | raised k info => exact .inr (.inl ⟨k, info, rfl, rfl⟩)
    | fault f => exact .inr (.inr ⟨f, rfl, rfl⟩)

end Sys2Proof.Machine
end

