-- ==== Sys2Proof/Laws/Encoding.lean ====
section
/-! SUPPORT. Words and their fields as numbers, so that facts about encodings are arithmetic (00_scope.md R8, 30_encoding.md R81). -/

namespace Sys2Proof

/-- Concatenation, the left part more significant (R8). -/
theorem toNat_append {m n : Nat} (a : BitVec m) (b : BitVec n) : (a ++ b).toNat = a.toNat * 2 ^ n + b.toNat := by
  rw [BitVec.toNat_append, Nat.shiftLeft_eq, ← Nat.shiftLeft_eq, Nat.shiftLeft_add_eq_or_of_lt b.isLt]

/-- A bit slice (R8). -/
theorem toNat_slice {n : Nat} (a : BitVec n) (lo k : Nat) : (a.extractLsb' lo k).toNat = a.toNat / 2 ^ lo % 2 ^ k := by
  simp [BitVec.extractLsb'_toNat, Nat.shiftRight_eq_div_pow]

/-- The word of a command is its opcode above its operand field (R81). -/
theorem encode_toNat (i : Instr) : (encode i).toNat = (opcodeOf i).toNat * 2 ^ 24 + (operandOf i).toNat := by
  simp only [encode, toNat_append]

/-- The operand field as a number, format by format (R81, R82). -/
def operandNat : Instr → Nat
  | .nop | .clear | .inclr | .pkclr | .freq | .build | .gendict | .encode | .decode | .decodeb => 0
  | .inpush b | .pkpush b | .rdfreq b => b.toNat
  | .decodel n | .rdin n | .rdpk n | .rdout n => n.toNat
  | .rdreg r => r.toNat
  | .rdnode n w => w.toNat * 2 ^ 16 + n.toNat
  | .rddict b w => w.toNat * 2 ^ 16 + b.toNat
  | .rdnc p => p.toNat

/-- A zero field above another adds nothing. -/
theorem toNat_zero_append {m n : Nat} (b : BitVec n) : (0#m ++ b).toNat = b.toNat := by
  rw [toNat_append]; simp

theorem operandOf_toNat (i : Instr) : (operandOf i).toNat = operandNat i := by
  cases i with
  | inpush b | pkpush b | rdfreq b => exact toNat_zero_append (m := 16) b
  | rdreg r => exact toNat_zero_append (m := 20) r
  | rdnc p => exact toNat_zero_append (m := 15) p
  | rdnode n w =>
    exact (toNat_append w (0#7 ++ n)).trans (congrArg (w.toNat * 2 ^ 16 + ·) (toNat_zero_append (m := 7) n))
  | rddict b w =>
    exact (toNat_append w (0#8 ++ b)).trans (congrArg (w.toNat * 2 ^ 16 + ·) (toNat_zero_append (m := 8) b))
  | _ => rfl

/-- The decoder sees the opcode the encoder wrote. -/
theorem opcodeField_encode (i : Instr) : opcodeField (encode i) = opcodeOf i := by
  apply BitVec.eq_of_toNat_eq
  have := (operandOf i).isLt
  have := (opcodeOf i).isLt
  rw [opcodeField, toNat_slice, encode_toNat]
  omega

/-- The decoder sees the operand field the encoder wrote. -/
theorem imm24Field_encode (i : Instr) : imm24Field (encode i) = operandOf i := by
  apply BitVec.eq_of_toNat_eq
  have := (operandOf i).isLt
  rw [imm24Field, toNat_slice, encode_toNat]
  omega

end Sys2Proof
end

