-- ==== Sys2Proof/Laws/PerInstr.lean ====
section
/-! SUPPORT. Per instruction: the word of a well-formed command has the fixed bits of its row of spec/opcode_table.json. -/

namespace Sys2Proof.Laws.TableRow

/-- The "fixed" entries of a command's row of the table: high bit, low bit, value. -/
def fixedBits : Instr → List (Nat × Nat × Nat)
  | .nop => [(31, 0, 0)]
  | .clear => [(31, 0, 16777216)]
  | .inclr => [(31, 0, 268435456)]
  | .inpush _ => [(31, 8, 1114112)]
  | .pkclr => [(31, 0, 301989888)]
  | .pkpush _ => [(31, 8, 1245184)]
  | .freq => [(31, 0, 536870912)]
  | .build => [(31, 0, 553648128)]
  | .gendict => [(31, 0, 805306368)]
  | .encode => [(31, 0, 1073741824)]
  | .decode => [(31, 0, 1342177280)]
  | .decodeb => [(31, 0, 1358954496)]
  | .decodel _ => [(31, 24, 82)]
  | .rdreg _ => [(31, 4, 100663296)]
  | .rdin _ => [(31, 24, 97)]
  | .rdpk _ => [(31, 24, 98)]
  | .rdout _ => [(31, 24, 99)]
  | .rdfreq _ => [(31, 8, 6553600)]
  | .rdnode _ _ => [(15, 9, 0), (31, 17, 12928)]
  | .rddict _ _ => [(15, 8, 0), (31, 20, 1632)]
  | .rdnc _ => [(31, 9, 3375104)]

/-- The row's fixed bits stand in the word of a well-formed command. -/
def Statement (i : Instr) : Prop :=
  i.wf = true → ∀ f ∈ fixedBits i, (Sys2Proof.encode i).toNat / 2 ^ f.2.1 % 2 ^ (f.1 + 1 - f.2.1) = f.2.2

theorem nop : Statement .nop := fun _ => by decide

theorem clear : Statement .clear := fun _ => by decide

theorem inclr : Statement .inclr := fun _ => by decide

theorem inpush (b : Byte) : Statement (.inpush b) := fun _ => by
  have hb := b.isLt
  simp [fixedBits, encode_toNat, opcodeOf, operandOf_toNat, operandNat]
  omega

theorem pkclr : Statement .pkclr := fun _ => by decide

theorem pkpush (b : Byte) : Statement (.pkpush b) := fun _ => by
  have hb := b.isLt
  simp [fixedBits, encode_toNat, opcodeOf, operandOf_toNat, operandNat]
  omega

theorem freq : Statement .freq := fun _ => by decide

theorem build : Statement .build := fun _ => by decide

theorem gendict : Statement .gendict := fun _ => by decide

theorem encode : Statement .encode := fun _ => by decide

theorem decode : Statement .decode := fun _ => by decide

theorem decodeb : Statement .decodeb := fun _ => by decide

theorem decodel (n : BitVec 24) : Statement (.decodel n) := fun _ => by
  have hn := n.isLt
  simp [fixedBits, encode_toNat, opcodeOf, operandOf_toNat, operandNat]
  omega

theorem rdreg (r : BitVec 4) : Statement (.rdreg r) := fun _ => by
  have hr := r.isLt
  simp [fixedBits, encode_toNat, opcodeOf, operandOf_toNat, operandNat]
  omega

theorem rdin (n : BitVec 24) : Statement (.rdin n) := fun _ => by
  have hn := n.isLt
  simp [fixedBits, encode_toNat, opcodeOf, operandOf_toNat, operandNat]
  omega

theorem rdpk (n : BitVec 24) : Statement (.rdpk n) := fun _ => by
  have hn := n.isLt
  simp [fixedBits, encode_toNat, opcodeOf, operandOf_toNat, operandNat]
  omega

theorem rdout (n : BitVec 24) : Statement (.rdout n) := fun _ => by
  have hn := n.isLt
  simp [fixedBits, encode_toNat, opcodeOf, operandOf_toNat, operandNat]
  omega

theorem rdfreq (b : Byte) : Statement (.rdfreq b) := fun _ => by
  have hb := b.isLt
  simp [fixedBits, encode_toNat, opcodeOf, operandOf_toNat, operandNat]
  omega

theorem rdnode (n : Idx) (w : BitVec 8) : Statement (.rdnode n w) := fun h => by
  have hn := n.isLt
  have hw := w.isLt
  simp only [Instr.wf, nodeSelectorOk, decide_eq_true_eq] at h
  simp [fixedBits, encode_toNat, opcodeOf, operandOf_toNat, operandNat]
  omega

theorem rddict (b : Byte) (w : BitVec 8) : Statement (.rddict b w) := fun h => by
  have hb := b.isLt
  have hw := w.isLt
  simp only [Instr.wf, dictSelectorOk, decide_eq_true_eq] at h
  simp [fixedBits, encode_toNat, opcodeOf, operandOf_toNat, operandNat]
  omega

theorem rdnc (p : BitVec 9) : Statement (.rdnc p) := fun _ => by
  have hp := p.isLt
  simp [fixedBits, encode_toNat, opcodeOf, operandOf_toNat, operandNat]
  omega

end Sys2Proof.Laws.TableRow
end

