-- ==== Sys2Proof/Laws/Step.lean ====
section
/-! SUPPORT. The cases of a step, and the three byte memories after reset. -/

namespace Sys2Proof.Machine

theorem perform_instr {w : Word} {i : Instr} (s : State) (h : decode w = .instr i) : perform w s = exec i s := by
  simp [perform, h]

theorem perform_illegal {w : Word} {c : IllegalCause} (s : State) (h : decode w = .illegal c) :
    perform w s = rejectIllegal w s := by
  simp [perform, h]

/-- What a step can be: no move, a reset, an ILLEGAL word, or a command. -/
theorem step_cases (s : State) :
    (s.pending = [] ∧ step s = .next s) ∨
      (∃ a rest, s.pending = .reset a :: rest ∧ step s = .next { s.toReset with pending := rest }) ∨
      ∃ w rest, s.pending = .command w :: rest ∧
        ((∃ c, decode w = .illegal c ∧ step s = rejectIllegal w { s with pending := rest }) ∨
          ∃ i, decode w = .instr i ∧ step s = exec i { s with pending := rest }) := by
  match h : s.pending with
  | [] => exact .inl ⟨rfl, by simp [step, h]⟩
  | .reset a :: rest => exact .inr (.inl ⟨a, rest, rfl, by simp [step, h]⟩)
  | .command w :: rest =>
    refine .inr (.inr ⟨w, rest, rfl, ?_⟩)
    cases hd : decode w with
    | illegal c => exact .inl ⟨c, rfl, by simp [step, h, perform, hd]⟩
    | instr i => exact .inr ⟨i, rfl, by simp [step, h, perform, hd]⟩

/-- `withFetchWord` changes nothing but the host's moves. -/
@[simp] theorem withFetchWord_pending (s : State) (nbits w : Nat) :
    (s.withFetchWord nbits w).pending = .command (tableWord nbits w) :: s.pending := rfl

/-- After reset every flag is 0 (10_state.md R40). -/
@[simp] theorem State.flag_resetWith (p : Config.Params) (f : Flag) : (State.resetWith p).flag f = false := by
  cases f <;> simp [State.flag, getFlag, State.resetWith]

/-- The byte memories are canonical after reset. -/
theorem reset_memories_wf : Memory.wf (memCells State.reset.imem) = true ∧ Memory.wf (memCells State.reset.pmem) = true ∧
    Memory.wf (memCells State.reset.omem) = true :=
  ⟨memCells_wf _, memCells_wf _, memCells_wf _⟩

end Sys2Proof.Machine
end

