-- ==== Sys2Proof/Tests/Slice0.lean ====
section
/-! SUPPORT. Tests of the model against values written out from the spec's encodings (30_encoding.md) and vectors (95_test_vectors.md),
and for every obligation with hypotheses a witness that meets them. -/

namespace Sys2Proof.Tests

open Sys2Proof Sys2Proof.Machine Sys2Proof.Safety

-- One thread: many kernel evaluations at once need more memory than the sandbox has.
set_option Elab.async false

/-! ## Well-formedness (30_encoding.md R81, R84(c)) -/

theorem test_wf_rdnode_selector : (Instr.rdnode 0#9 1#8).wf = true ∧ (Instr.rdnode 0#9 2#8).wf = false := by decide

theorem test_wf_rddict_selector : (Instr.rddict 0#8 8#8).wf = true ∧ (Instr.rddict 0#8 9#8).wf = false := by decide

theorem test_wf_ill_formed_is_illegal : decode (encode (.rdnode 3#9 2#8)) = .illegal .selector ∧
    decode (encode (.rddict 0x61#8 9#8)) = .illegal .selector := by decide

/-! ## Decoding: one word per command, written out field by field from R81 and R83 -/

theorem test_decode_control : decode 0b00000000_000000000000000000000000#32 = .instr .nop ∧
    decode 0b00000001_000000000000000000000000#32 = .instr .clear := by decide

theorem test_decode_load : decode 0b00010000_000000000000000000000000#32 = .instr .inclr ∧
    decode 0b00010001_0000000000000000_01100001#32 = .instr (.inpush 0x61#8) ∧
    decode 0b00010010_000000000000000000000000#32 = .instr .pkclr ∧
    decode 0b00010011_0000000000000000_11111110#32 = .instr (.pkpush 0xFE#8) := by decide

theorem test_decode_builder : decode 0b00100000_000000000000000000000000#32 = .instr .freq ∧
    decode 0b00100001_000000000000000000000000#32 = .instr .build := by decide

theorem test_decode_dict_and_encoder : decode 0b00110000_000000000000000000000000#32 = .instr .gendict ∧
    decode 0b01000000_000000000000000000000000#32 = .instr .encode := by decide

theorem test_decode_decoder : decode 0b01010000_000000000000000000000000#32 = .instr .decode ∧
    decode 0b01010001_000000000000000000000000#32 = .instr .decodeb ∧
    decode 0b01010010_100000000000000000000001#32 = .instr (.decodel 0x800001#24) := by decide

theorem test_decode_readout : decode 0b01100000_00000000000000000000_1110#32 = .instr (.rdreg 14#4) ∧
    decode 0b01100001_000000000000000100000010#32 = .instr (.rdin 258#24) ∧
    decode 0b01100010_100000000000000000000000#32 = .instr (.rdpk 0x800000#24) ∧
    decode 0b01100011_000000000000000000000011#32 = .instr (.rdout 3#24) ∧
    decode 0b01100100_0000000000000000_10000000#32 = .instr (.rdfreq 0x80#8) ∧
    decode 0b01100101_00000001_0000000_100000010#32 = .instr (.rdnode 258#9 1#8) ∧
    decode 0b01100110_00001000_00000000_01100010#32 = .instr (.rddict 0x62#8 8#8) ∧
    decode 0b01100111_000000000000000_100000001#32 = .instr (.rdnc 257#9) := by decide

/-- 95_test_vectors.md section 2.1, the Illegal rows. -/
theorem test_decode_illegal : decode 0x00000001#32 = .illegal .mustBeZero ∧ decode 0x02000000#32 = .illegal .opcode ∧
    decode 0x11000100#32 = .illegal .mustBeZero ∧ decode 0x60000010#32 = .illegal .mustBeZero ∧
    decode 0x64000161#32 = .illegal .mustBeZero ∧ decode 0x65020000#32 = .illegal .selector ∧
    decode 0x65000200#32 = .illegal .mustBeZero ∧ decode 0x66090061#32 = .illegal .selector ∧
    decode 0x67000200#32 = .illegal .mustBeZero ∧ decode 0xFF000000#32 = .illegal .opcode := by decide

theorem test_decodeTableWord : decodeTableWord 32 0x66080061 = some (.rddict 0x61#8 8#8) ∧
    decodeTableWord 32 0x02000000 = none := by decide

/-! ## States: the stages of vector V1 "aab", of V2 "aaaa", and failed ones -/

/-- The state a result answers, if it is a next state. -/
def stateOf : Result → Option State
  | .next t => some t
  | .fault _ => none
  | .refused _ => none

/-- What the tests compare: everything of a state but the host's moves, FT and DICT at a few symbols (comparing all 256 entries in the
kernel is slow). -/
structure View where
  spaces : List Byte × List Node × List Idx × List Byte × List Byte
  counts : List Count
  entries : List DictEntry
  positions : Idx × Idx × BitVec 24
  record : BitVec 8 × BitVec 11 × BitVec 16 × BitVec 32
  capacities : Word × Word × Word
  answers : List Response
  deriving DecidableEq, Repr

def view (s : State) : View where
  spaces := (s.imem, s.arena, s.nc, s.pmem, s.omem)
  counts := [0x00#8, 0x61#8, 0x62#8, 0x63#8, 0xFF#8].map (ftRead s.ft)
  entries := [0x00#8, 0x61#8, 0x62#8, 0x63#8, 0xFF#8].map (dictRead s.dict)
  positions := (s.root, s.decCur, s.bitLen)
  record := (s.status, s.err, s.lastErr, s.eInfo)
  capacities := (s.capIn, s.capPk, s.capOut)
  answers := s.responses

/-- The result is a next state that looks like `t`. -/
abbrev Gives (r : Result) (t : State) : Prop := (stateOf r).map view = some (view t)

/-- The state a result answers, `s` where it answers none. -/
def after (r : Result) (s : State) : State := (stateOf r).getD s

theorem next_after {r : Result} {s : State} (h : (stateOf r).isSome = true) : r = .next (after r s) := by
  cases r with
  | next u => rfl
  | fault f => simp [stateOf] at h
  | refused x => simp [stateOf] at h

/-- Adds one response. -/
def State.ans (s : State) (code : BitVec 4) (data : Word) : State :=
  { s with responses := s.responses ++ [{ code := code, data := data }] }

/-- A core with IN_MAX = 4, PK_MAX = 2, OUT_MAX = 8 after reset. -/
def small : State := State.resetWith { inMax := 4, pkMax := 2, outMax := 8 }

def aabInput : State := { small with imem := [0x61#8, 0x61#8, 0x62#8] }

/-- After FREQ (V1). -/
def aabFreq : State := { aabInput with ft := ftWrite (ftWrite ftZero 0x61#8 2#32) 0x62#8 1#32, status := 0x01#8 }

/-- After BUILD (V1). -/
def aabTree : State := { aabFreq with
  arena := [.leaf 0x61#8 2#32, .leaf 0x62#8 1#32, .internal 3#32 1#9 0#9], nc := [2#9], root := 2#9, status := 0x03#8 }

/-- After GENDICT (V1). -/
def aabDict : State := { aabTree with
  dict := dictWrite (dictWrite dictAbsent 0x62#8 (some [false])) 0x61#8 (some [true]), status := 0x07#8 }

/-- After ENCODE (V1). -/
def aabEnc : State := { aabDict with pmem := [0xC0#8], bitLen := 3#24, status := 0x0F#8 }

/-- After DECODEB (V1). -/
def aabDec : State := { aabEnc with omem := [0x61#8, 0x61#8, 0x62#8], decCur := 2#9, status := 0x1F#8 }

def aaaaInput : State := { small with imem := [0x61#8, 0x61#8, 0x61#8, 0x61#8] }

/-- After FREQ (V2). -/
def aaaaFreq : State := { aaaaInput with ft := ftWrite ftZero 0x61#8 4#32, status := 0x01#8 }

/-- After BUILD (V2). -/
def aaaaTree : State := { aaaaFreq with arena := [.leaf 0x61#8 4#32], nc := [0#9], root := 0#9, status := 0x23#8 }

/-- After GENDICT (V2). -/
def aaaaDict : State := { aaaaTree with dict := dictWrite dictAbsent 0x61#8 (some [false]), status := 0x27#8 }

/-- After ENCODE (V2). -/
def aaaaEnc : State := { aaaaDict with pmem := [0x00#8], bitLen := 4#24, status := 0x2F#8 }

/-- FREQ done on the empty input (S2). -/
def emptyFreq : State := { small with status := 0x01#8 }

/-- BUILD failed on the empty input (S2). -/
def halted : State := { small with status := 0x81#8, err := 0x004#11, lastErr := 0x2102#16 }

/-- A foreign packed form under a Leaf root, bits 0,0,1,0,… (V14). -/
def foreign : State := { aaaaTree with pmem := [0x20#8], bitLen := 8#24 }

/-- As V15: the output memory holds 4 bytes and DECODE would emit 8 symbols. -/
def narrow : State := { aabEnc with capOut := 4#32 }

/-- A Leaf root whose eight zero bits spell one symbol more than OUT_MAX = 7 (R141, R148). -/
def narrowLeaf : State := { aaaaEnc with capOut := 7#32 }

/-- After COMPRESS of "abccc" (V7), with OUT_MAX = 5: DECODE's eight bits spell exactly five symbols. -/
def abcccEnc : State := { small with
  arena := [.leaf 0x61#8 1#32, .leaf 0x62#8 1#32, .leaf 0x63#8 3#32, .internal 2#32 0#9 1#9, .internal 5#32 3#9 2#9]
  nc := [4#9], root := 4#9, pmem := [0x1E#8], bitLen := 7#24, status := 0x0F#8, capOut := 5#32 }

/-- As V11: the packed form would need one byte more than PK_MAX. -/
def tight : State := { aabDict with
  dict := dictWrite (dictWrite dictAbsent 0x61#8 (some (List.replicate 8 true))) 0x62#8 (some [false]) }

/-- As V9: a byte without a code at index 2. -/
def uncoded : State := { aabDict with imem := [0x61#8, 0x62#8, 0x63#8] }

/-! ## One step per command -/

/-- S2, V21: NOP and CLEAR answer OK under FATAL. -/
theorem test_nop : Gives (exec .nop halted) (State.ans halted 0#4 0#32) := by decide +kernel

theorem test_clear : Gives (exec .clear halted) (State.ans small 0#4 0#32) := by decide +kernel

theorem test_inclr : Gives (exec .inclr aabInput) (State.ans small 0#4 0#32) := by decide +kernel

/-- S2: INPUSH under FATAL is HALTED with LASTERR = 0x1108. -/
theorem test_inpush_halted : Gives (exec (.inpush 0x61#8) halted)
    (State.ans { halted with err := 0x104#11, lastErr := 0x1108#16 } 8#4 0#32) := by decide +kernel

/-- V18: a push into a full memory. -/
theorem test_inpush_full : Gives (exec (.inpush 0x61#8) aaaaInput)
    (State.ans { aaaaInput with err := 0x200#11, lastErr := 0x1109#16, eInfo := 4#32 } 9#4 0#32) := by decide +kernel

theorem test_pkclr : Gives (exec .pkclr aabEnc) (State.ans aabDict 0#4 0#32) := by decide +kernel

/-- V17. -/
theorem test_pkpush : Gives (exec (.pkpush 0xFF#8) aabEnc)
    (State.ans { aabEnc with pmem := [0xC0#8, 0xFF#8], bitLen := 16#24, status := 0x07#8 } 0#4 0#32) := by decide +kernel

theorem test_freq : Gives (exec .freq aabInput) (State.ans aabFreq 0#4 0#32) := by decide +kernel

theorem test_build : Gives (exec .build aabFreq) (State.ans aabTree 0#4 0#32) := by decide +kernel

theorem test_build_empty : Gives (exec .build emptyFreq) (State.ans halted 2#4 0#32) := by decide +kernel

/-- V3: the tie-break of "abcc". -/
theorem test_build_ties : (buildTree (ftWrite (ftWrite (ftWrite ftZero 0x61#8 1#32) 0x62#8 1#32) 0x63#8 2#32)).toOption =
    some (⟨[.leaf 0x61#8 1#32, .leaf 0x62#8 1#32, .leaf 0x63#8 2#32, .internal 2#32 0#9 1#9, .internal 4#32 2#9 3#9], [4#9]⟩,
      4#9, .internal 4#32 2#9 3#9) := by decide +kernel

theorem test_build_one_symbol : Gives (exec .build aaaaFreq) (State.ans aaaaTree 0#4 0#32) := by decide +kernel

theorem test_gendict : Gives (exec .gendict aabTree) (State.ans aabDict 0#4 0#32) := by decide +kernel

theorem test_gendict_leaf : Gives (exec .gendict aaaaTree) (State.ans aaaaDict 0#4 0#32) := by decide +kernel

theorem test_encode : Gives (exec .encode aabDict) (State.ans aabEnc 0#4 0#32) := by decide +kernel

/-- V9. -/
theorem test_encode_nocode : Gives (exec .encode uncoded)
    (State.ans { uncoded with err := 0x020#11, lastErr := 0x4005#16, eInfo := 0x63000002#32 } 5#4 0#32) := by
  decide +kernel

/-- V1: DECODE emits five spurious symbols. -/
theorem test_decode : Gives (exec .decode aabEnc)
    (State.ans { aabDec with omem := [0x61#8, 0x61#8] ++ List.replicate 6 0x62#8 } 0#4 0#32) := by decide +kernel

/-- V14: BADBIT at bit 2. -/
theorem test_decode_badbit : Gives (exec .decode foreign)
    (State.ans { foreign with decCur := 0#9, err := 0x040#11, lastErr := 0x5006#16, eInfo := 2#32 } 6#4 0#32) := by
  decide +kernel

/-- R141, R148: ALLOC under a Leaf root, with EINFO the number of symbols, and OK with exactly OUT_MAX symbols. -/
theorem test_decode_leaf_alloc : Gives (exec .decode narrowLeaf)
      (State.ans { narrowLeaf with decCur := 0#9, status := 0xAF#8, err := 0x002#11, lastErr := 0x5001#16, eInfo := 8#32 } 1#4 0#32) ∧
    Gives (exec (.decodel 7#24) narrowLeaf)
      (State.ans { narrowLeaf with omem := List.replicate 7 0x61#8, decCur := 0#9, status := 0x3F#8 } 0#4 0#32) := by
  decide +kernel

/-- V15: ALLOC under an Internal root. -/
theorem test_decode_alloc : Gives (exec .decode narrow)
    (State.ans { narrow with decCur := 2#9, status := 0x8F#8, err := 0x002#11, lastErr := 0x5001#16, eInfo := 8#32 } 1#4 0#32) := by
  decide +kernel

/-- V7: DECODE ends mid-tree. -/
theorem test_decode_midtree : Gives (exec .decode abcccEnc)
    (State.ans { abcccEnc with
      omem := [0x61#8, 0x62#8, 0x63#8, 0x63#8, 0x63#8], decCur := 3#9, status := 0x5F#8 } 0#4 0#32) := by decide +kernel

theorem test_decodeb : Gives (exec .decodeb aabEnc) (State.ans aabDec 0#4 0#32) := by decide +kernel

/-- V13: beyond the packed bits. -/
theorem test_decodel_range : Gives (exec (.decodel 9#24) aabEnc)
    (State.ans { aabEnc with err := 0x200#11, lastErr := 0x5209#16, eInfo := 9#32 } 9#4 0#32) := by decide +kernel

theorem test_decodel : Gives (exec (.decodel 3#24) aabEnc) (State.ans aabDec 0#4 0#32) := by decide +kernel

/-- V1: RDREG 0 and RDREG 11 after DECODEB. -/
theorem test_rdreg : Gives (exec (.rdreg 0#4) aabDec) (State.ans aabDec 0#4 0x1F#32) ∧
    Gives (exec (.rdreg 11#4) aabDec) (State.ans aabDec 0#4 2#32) := by decide +kernel

theorem test_rdin : Gives (exec (.rdin 2#24) aabDec) (State.ans aabDec 0#4 0x62#32) := by decide +kernel

/-- V19. -/
theorem test_rdpk : Gives (exec (.rdpk 0#24) aabDec) (State.ans aabDec 0#4 0xC0#32) := by decide +kernel

theorem test_rdout : Gives (exec (.rdout 2#24) aabDec) (State.ans aabDec 0#4 0x62#32) := by decide +kernel

theorem test_rdfreq : Gives (exec (.rdfreq 0x61#8) aabDec) (State.ans aabDec 0#4 2#32) := by decide +kernel

/-- V1: the words of a Leaf and of an Internal. -/
theorem test_rdnode : Gives (exec (.rdnode 0#9 0#8) aabDec) (State.ans aabDec 0#4 0x0FFFFC61#32) ∧
    Gives (exec (.rdnode 2#9 0#8) aabDec) (State.ans aabDec 0#4 0x80080000#32) := by decide +kernel

/-- R92: the header and the first slice of code "1". -/
theorem test_rddict : Gives (exec (.rddict 0x61#8 0#8) aabDec) (State.ans aabDec 0#4 0x80000001#32) ∧
    Gives (exec (.rddict 0x61#8 1#8) aabDec) (State.ans aabDec 0#4 0x80000000#32) := by decide +kernel

theorem test_rdnc : Gives (exec (.rdnc 0#9) aabDec) (State.ans aabDec 0#4 2#32) := by decide +kernel

/-- R84: an ILLEGAL word's record (section 2.1). -/
theorem test_illegal : Gives (step (small.withFetchWord 32 0xFF000000))
    (State.ans { small with err := 0x400#11, lastErr := 0xFF0A#16, eInfo := 0xFF000000#32 } 10#4 0#32) := by
  decide +kernel

/-- `withFetchWord` at reset: the very next step runs the command. -/
theorem test_step_runs : Gives (step (State.reset.withFetchWord 32 0x110000FF))
    (State.ans { State.reset with imem := [0xFF#8] } 0#4 0#32) := by decide +kernel

/-! ## States that meet the invariant -/

theorem aab_dict : dictOf aabEnc.arena aabEnc.root = .ok aabEnc.dict := rfl

theorem aab_tree : TreeWf aabEnc.arena aabEnc.root where
  size := by decide
  leaves := by decide
  rootLast := by decide
  leavesFirst := by
    intro n nd h
    match n, h with
    | 0, h => cases h; decide
    | 1, h => cases h; decide
    | 2, h => cases h; decide
    | n + 3, h => simp [aabEnc, aabDict, aabTree] at h
  childrenBelow := by
    intro n f l r h
    match n, h with
    | 0, h => cases h
    | 1, h => cases h
    | 2, h => cases h; decide
    | n + 3, h => simp [aabEnc, aabDict, aabTree] at h
  oneParent := by decide +kernel
  symsAscend := by decide
  freqSum := by
    intro n f l r nl nr h hl hr
    match n, h with
    | 0, h => cases h
    | 1, h => cases h
    | 2, h => cases h; cases hl; cases hr; decide
    | n + 3, h => simp [aabEnc, aabDict, aabTree] at h

theorem aab_codes (sym : Byte) (code : List Bool) (h : dictRead aabEnc.dict sym = some code) :
    1 ≤ code.length ∧ code.length ≤ 255 := by
  have h' : dictRead (dictWrite (dictWrite dictAbsent 0x62#8 (some [false])) 0x61#8 (some [true])) sym = some code := h
  simp only [dictRead_dictWrite, dictRead_dictAbsent] at h'
  split at h'
  · simp at h'; subst h'; decide
  · split at h'
    · simp at h'; subst h'; decide
    · simp at h'

/-- The invariant holds of the state after the whole of V1's compression. -/
theorem aab_inv : Inv aabEnc where
  capIn := by decide
  capPk := by decide
  capOut := by decide
  imemFits := by decide
  pmemFits := by decide
  omemFits := by decide
  pkLen := by decide
  padding := by decide
  ftBound := by decide +kernel
  ftUnset := by decide
  dictNeedsTree := by decide
  treeNeedsFt := by decide
  leafRootNeedsTree := by decide
  midTreeNeedsDec := by decide
  rootNil := by decide
  noTree := by decide
  tree := fun _ => aab_tree
  ncRoot := by decide
  leafRoot := by decide
  codeLength := aab_codes
  dictCurrent := fun _ => aab_dict
  outUnset := by decide
  errReserved := by decide
  lastErrReserved := by decide
  fatalRecorded := by decide
theorem aaaa_tree : TreeWf aaaaEnc.arena aaaaEnc.root where
  size := by decide
  leaves := by decide
  rootLast := by decide
  leavesFirst := by
    intro n nd h
    match n, h with
    | 0, h => cases h; decide
    | n + 1, h => simp [aaaaEnc, aaaaDict, aaaaTree] at h
  childrenBelow := by
    intro n f l r h
    match n, h with
    | 0, h => cases h
    | n + 1, h => simp [aaaaEnc, aaaaDict, aaaaTree] at h
  oneParent := by decide +kernel
  symsAscend := by decide
  freqSum := by
    intro n f l r nl nr h hl hr
    match n, h with
    | 0, h => cases h
    | n + 1, h => simp [aaaaEnc, aaaaDict, aaaaTree] at h

theorem aaaa_codes (sym : Byte) (code : List Bool) (h : dictRead aaaaEnc.dict sym = some code) :
    1 ≤ code.length ∧ code.length ≤ 255 := by
  have h' : dictRead (dictWrite dictAbsent 0x61#8 (some [false])) sym = some code := h
  simp only [dictRead_dictWrite, dictRead_dictAbsent] at h'
  split at h'
  · simp at h'; subst h'; decide
  · simp at h'

/-- The invariant holds of the state after the whole of V2's compression, under a Leaf root. -/
theorem aaaa_inv : Inv aaaaEnc where
  capIn := by decide
  capPk := by decide
  capOut := by decide
  imemFits := by decide
  pmemFits := by decide
  omemFits := by decide
  pkLen := by decide
  padding := by decide
  ftBound := by decide +kernel
  ftUnset := by decide
  dictNeedsTree := by decide
  treeNeedsFt := by decide
  leafRootNeedsTree := by decide
  midTreeNeedsDec := by decide
  rootNil := by decide
  noTree := by decide
  tree := fun _ => aaaa_tree
  ncRoot := by decide
  leafRoot := by decide
  codeLength := aaaa_codes
  dictCurrent := fun _ => rfl
  outUnset := by decide
  errReserved := by decide
  lastErrReserved := by decide
  fatalRecorded := by decide

theorem inv_pending {s : State} (h : Inv s) (p : List HostEvent) : Inv { s with pending := p } := by
  cases h; constructor <;> assumption

/-! ## Witnesses: for every obligation with hypotheses, data that meet them all, each clause at a boundary -/

/-- The command answers a next state with one response more. -/
abbrev Answers (i : Instr) (s : State) (code : BitVec 4) (data : Word) : Prop :=
  (stateOf (exec i s)).map (fun t => t.responses) = some (s.responses ++ [{ code := code, data := data }])

theorem next_of_answers {i : Instr} {s : State} {code : BitVec 4} {data : Word} (h : Answers i s code data) :
    ∃ t, exec i s = .next t ∧ t.responses = s.responses ++ [{ code := code, data := data }] := by
  unfold Answers at h
  cases hr : exec i s with
  | next t => exact ⟨t, rfl, by simpa [hr, stateOf] using h⟩
  | fault f => simp [hr, stateOf] at h
  | refused x => simp [hr, stateOf] at h

/-- A state whose host presents the word next. -/
def presents (s : State) (w : Word) : State := { s with pending := [.command w] }

theorem witness_EveryWordHasOneVerdict : decode 0x110000FF#32 = .instr (.inpush 0xFF#8) := by decide

/-- The edge of every format: the last legal word and the first ILLEGAL one. -/
theorem witness_IllegalWordsAreRejected : (presents small 0x65020000#32).pending = [.command 0x65020000#32] ∧
    ([0x00000000#32, 0x110000FF#32, 0x6000000F#32, 0x52FFFFFF#32, 0x650101FF#32, 0x660800FF#32,
      0x670001FF#32].all legalWord) = true ∧
    ([0x00000001#32, 0x11000100#32, 0x60000010#32, 0x65020000#32, 0x65000200#32, 0x66090000#32, 0x66000100#32, 0x67000200#32,
      0x02000000#32, 0x53000000#32, 0xFF000000#32].any legalWord) = false := by decide

theorem witness_StepPerformsTheCommand : (presents small 0x110000FF#32).pending = [.command 0x110000FF#32] ∧
    decode 0x110000FF#32 = .instr (.inpush 0xFF#8) ∧ (Instr.rddict 0#8 8#8).wf = true := by decide

theorem witness_IdleAndResetMoves : aabEnc.pending = [] ∧
    ({ aabEnc with pending := [.reset none] } : State).pending = [.reset none] ∧
    ({ aabEnc with pending := [.reset (some 0x21000000#32)] } : State).pending = [.reset (some 0x21000000#32)] :=
  ⟨rfl, rfl, rfl⟩

/-- A read-out that answers a datum other than 0, and a word that fails. -/
theorem witness_OneResponsePerCommand :
    step (presents aabDec 0x60000000#32) = .next (after (step (presents aabDec 0x60000000#32)) small) ∧
    step (presents aabDec 0x02000000#32) = .next (after (step (presents aabDec 0x02000000#32)) small) :=
  ⟨next_after (by decide +kernel), next_after (by decide +kernel)⟩

theorem witness_ResetStateValues : ({ inMax := 1, pkMax := 1, outMax := 1 } : Config.Params).Ok ∧
    ({ inMax := 16777215, pkMax := 2097151, outMax := 16777215 } : Config.Params).Ok ∧ Config.Params.default.Ok ∧
    exec .clear halted = .next (after (exec .clear halted) small) ∧
    step { aabEnc with pending := [.reset none] } = .next (after (step { aabEnc with pending := [.reset none] }) small) :=
  ⟨by decide, by decide, by decide, next_after (by decide +kernel), next_after (by decide +kernel)⟩

theorem witness_ResetMeetsTheInvariant : ({ inMax := 1, pkMax := 1, outMax := 1 } : Config.Params).Ok ∧
    ({ inMax := 16777215, pkMax := 2097151, outMax := 16777215 } : Config.Params).Ok := by decide

theorem witness_FatalGate : halted.flag .fatal = true ∧ isGated .encode = true ∧ isGated .clear = false := by decide

/-- FATAL rises by the EMPTY of BUILD and falls by CLEAR and by reset. -/
theorem witness_FatalRisesAndFallsOnlyByItsCauses : emptyFreq.flag .fatal = false ∧ halted.flag .fatal = true ∧
    ((stateOf (step (presents emptyFreq 0x21000000#32))).map fun t => t.flag .fatal) = some true ∧
    ((stateOf (step (presents halted 0x01000000#32))).map fun t => t.flag .fatal) = some false ∧
    ((stateOf (step { halted with pending := [.reset none] })).map fun t => t.flag .fatal) = some false := by decide +kernel

theorem witness_MissingArtefactIsSeq : aabTree.flag .fatal = false ∧ requiredFlag .encode = some .dictValid ∧
    aabTree.flag .dictValid = false ∧ requiredFlag (.rdnc 0#9) = none := by decide

/-- Every clause at the first index that does not exist. -/
theorem witness_IndicesBeyondTheLengthAreRange : aabDec.imem.length ≤ (3#24).toNat ∧ aabDec.pmem.length ≤ (1#24).toNat ∧
    aabDec.omem.length ≤ (3#24).toNat ∧ (1#8).toNat < 2 ∧ aabDec.arena.length ≤ (3#9).toNat ∧
    aabDec.nc.length ≤ (1#9).toNat ∧
    aaaaInput.flag .fatal = false ∧ aaaaInput.imem.length = aaaaInput.capIn.toNat ∧
    ({ small with pmem := [0#8, 0#8] } : State).pmem.length = small.capPk.toNat ∧ (8#8).toNat < 9 := by decide

theorem witness_FailedCommandsLeaveTheirState :
    (∃ t, exec .encode aabTree = .next t ∧ t.responses = aabTree.responses ++ [{ code := 7#4, data := 0#32 }]) ∧
    (∃ t, exec .build halted = .next t ∧ t.responses = halted.responses ++ [{ code := 8#4, data := 0#32 }]) ∧
    (∃ t, exec (.decodel 9#24) aabEnc = .next t ∧ t.responses = aabEnc.responses ++ [{ code := 9#4, data := 0#32 }]) ∧
    (∃ t, exec (.rdnode 0#9 2#8) aabEnc = .next t ∧ t.responses = aabEnc.responses ++ [{ code := 10#4, data := 0#32 }]) ∧
    (∃ t, exec .build emptyFreq = .next t ∧ t.responses = emptyFreq.responses ++ [{ code := 2#4, data := 0#32 }]) ∧
    (∃ t, exec .encode uncoded = .next t ∧ t.responses = uncoded.responses ++ [{ code := 5#4, data := 0#32 }]) ∧
    (∃ t, exec .encode tight = .next t ∧ t.responses = tight.responses ++ [{ code := 1#4, data := 0#32 }]) ∧
    (∃ t, exec .decode foreign = .next t ∧ t.responses = foreign.responses ++ [{ code := 6#4, data := 0#32 }]) ∧
    ∃ t, exec .decode narrow = .next t ∧ t.responses = narrow.responses ++ [{ code := 1#4, data := 0#32 }] :=
  ⟨next_of_answers (by decide +kernel), next_of_answers (by decide +kernel), next_of_answers (by decide +kernel),
    next_of_answers (by decide +kernel), next_of_answers (by decide +kernel), next_of_answers (by decide +kernel),
    next_of_answers (by decide +kernel), next_of_answers (by decide +kernel), next_of_answers (by decide +kernel)⟩

theorem witness_ErrorRecordIsKeptOrWritten : Instr.rdin 2#24 ≠ .clear ∧
    (∃ t, exec (.rdin 2#24) aabDec = .next t ∧ t.responses = aabDec.responses ++ [{ code := 0#4, data := 0x62#32 }]) ∧
    ∃ t, exec (.rdin 3#24) aabDec = .next t ∧ t.responses = aabDec.responses ++ [{ code := 9#4, data := 0#32 }] :=
  ⟨by decide, next_of_answers (by decide +kernel), next_of_answers (by decide +kernel)⟩

theorem witness_NopOnlyResponds : (1#32).toNat / 2 ^ 24 = 0 ∧ 1#32 ≠ 0#32 ∧ (0xFFFFFF#32).toNat / 2 ^ 24 = 0 := by decide

theorem witness_InclrEmptiesTheInput : halted.flag .fatal = true ∧ aabInput.flag .fatal = false := by decide

theorem witness_InpushAppendsOneByte : halted.flag .fatal = true ∧ aabInput.flag .fatal = false ∧ aabInput.imem.length ≠ aabInput.capIn.toNat ∧
    aaaaInput.flag .fatal = false ∧ aaaaInput.imem.length = aaaaInput.capIn.toNat := by decide

theorem witness_PkclrEmptiesThePackedForm : halted.flag .fatal = true ∧ aabEnc.flag .fatal = false ∧ aabEnc.flag .encValid = true := by decide

theorem witness_PkpushAppendsOneByte : halted.flag .fatal = true ∧ aabEnc.flag .fatal = false ∧ aabEnc.pmem.length ≠ aabEnc.capPk.toNat ∧
    ({ aabEnc with pmem := [0#8, 0#8] } : State).pmem.length = aabEnc.capPk.toNat := by decide

theorem witness_ScalarReadOuts : memRead aabDec.imem (2#24).toNat = some 0x62#8 ∧ memRead aabDec.pmem (0#24).toNat = some 0xC0#8 ∧
    memRead aabDec.omem (2#24).toNat = some 0x62#8 := by decide

theorem witness_CountAndPositionReadOuts : aabDec.nc[(0#9).toNat]? = some 2#9 := by decide

theorem witness_NodeReadOut : aabDec.arena[(0#9).toNat]? = some (.leaf 0x61#8 2#32) ∧
    aabDec.arena[(2#9).toNat]? = some (.internal 3#32 1#9 0#9) := by decide

theorem witness_DictionaryReadOut : 1 ≤ (1#8).toNat ∧ (8#8).toNat ≤ 8 ∧ dictRead aabDec.dict 0x61#8 = some [true] ∧
    dictRead aabDec.dict 0x63#8 = none := by decide +kernel

theorem witness_ReadOutsChangeNothing : isReadOut (.rdin 2#24) = true ∧
    (∃ t, exec (.rdin 2#24) aabDec = .next t ∧ t.responses = aabDec.responses ++ [{ code := 0#4, data := 0x62#32 }]) ∧
    ∃ t, exec (.rdin 3#24) aabDec = .next t ∧ t.responses = aabDec.responses ++ [{ code := 9#4, data := 0#32 }] :=
  ⟨by decide, next_of_answers (by decide +kernel), next_of_answers (by decide +kernel)⟩

theorem witness_FreqCountsOccurrences : aabInput.flag .fatal = false := by decide

theorem witness_FreqSumsToTheInputLength : aabInput.flag .fatal = false ∧ aabInput.imem.length < 2 ^ 32 ∧
    (∃ u, exec .inclr aabFreq = .next u ∧ u.responses = aabFreq.responses ++ [{ code := 0#4, data := 0#32 }]) ∧
    ∃ u, exec (.inpush 0x61#8) aabFreq = .next u ∧ u.responses = aabFreq.responses ++ [{ code := 0#4, data := 0#32 }] :=
  ⟨by decide, by decide, next_of_answers (by decide +kernel), next_of_answers (by decide +kernel)⟩

theorem witness_BuildOfEmptyTable : emptyFreq.flag .fatal = false ∧ emptyFreq.flag .ftValid = true ∧
    (∀ sym, ftRead emptyFreq.ft sym = 0#32) ∧ small.flag .fatal = false ∧ small.flag .ftValid = false :=
  ⟨by decide, by decide, ftRead_ftZero, by decide, by decide⟩

theorem witness_BuildMakesTheTree : aabFreq.flag .fatal = false ∧ aabFreq.flag .ftValid = true ∧ 0 < ftTotal aabFreq.ft ∧
    ftTotal aabFreq.ft < 2 ^ 32 := by decide +kernel

theorem witness_BuildOfOneSymbol : aaaaFreq.flag .fatal = false ∧ aaaaFreq.flag .ftValid = true ∧
    ftRead aaaaFreq.ft 0x61#8 ≠ 0#32 ∧ ∀ b, b ≠ 0x61#8 → ftRead aaaaFreq.ft b = 0#32 := by
  refine ⟨by decide, by decide, by decide +kernel, fun b hb => ?_⟩
  show ftRead (ftWrite ftZero 0x61#8 4#32) b = 0#32
  simp [hb]

/-- An equal frequency and a greater one in the collection. -/
theorem witness_InsertIsStableAndSorted :
    let b : Builder := ⟨[.leaf 0x61#8 1#32, .leaf 0x62#8 2#32, .leaf 0x63#8 1#32], [0#9, 1#9]⟩
    (2#9).toNat < b.arena.length ∧ (∀ q ∈ b.nc, q.toNat < b.arena.length) ∧
      b.nc.Pairwise (fun p q => freqOf b.arena p ≤ freqOf b.arena q) := by decide

/-- The last arena length at which an index still fits its 9 bits; and V3's first merge, with an entry of exactly the merged frequency. -/
theorem witness_MergeTakesTheTwoHeads :
    (let arena := List.replicate 511 (Node.leaf 0x61#8 1#32)
    arena.length < 2 ^ 9 ∧ arena[(0#9).toNat]? = some (.leaf 0x61#8 1#32) ∧ arena[(1#9).toNat]? = some (.leaf 0x61#8 1#32) ∧
      (∀ q ∈ [510#9], q.toNat < arena.length) ∧ [510#9].Pairwise (fun p q => freqOf arena p ≤ freqOf arena q)) ∧
    let arena := [Node.leaf 0x61#8 1#32, .leaf 0x62#8 1#32, .leaf 0x63#8 2#32]
    arena.length < 2 ^ 9 ∧ arena[(0#9).toNat]? = some (.leaf 0x61#8 1#32) ∧ arena[(1#9).toNat]? = some (.leaf 0x62#8 1#32) ∧
      (∀ q ∈ [2#9], q.toNat < arena.length) ∧ [2#9].Pairwise (fun p q => freqOf arena p ≤ freqOf arena q) ∧
      freqOf arena 2#9 = (1#32 + 1#32).toNat := by decide +kernel

/-- V3: the merged node goes after the leaf of equal frequency, and V4's second merge before the greater one. -/
theorem test_merge_ties :
    (mergeStep ⟨[.leaf 0x61#8 1#32, .leaf 0x62#8 1#32, .leaf 0x63#8 2#32], [0#9, 1#9, 2#9]⟩).toOption =
      some ⟨[.leaf 0x61#8 1#32, .leaf 0x62#8 1#32, .leaf 0x63#8 2#32, .internal 2#32 0#9 1#9], [2#9, 3#9]⟩ ∧
    (mergeStep ⟨[.leaf 0x61#8 5#32, .leaf 0x62#8 2#32, .leaf 0x63#8 1#32, .leaf 0x64#8 1#32, .leaf 0x72#8 2#32,
        .internal 2#32 2#9 3#9], [1#9, 4#9, 5#9, 0#9]⟩).toOption.map Builder.nc = some [5#9, 6#9, 0#9] := by decide +kernel

theorem witness_BuildStaysWithinItsSpaces :
    ∃ t, exec .build aabFreq = .next t ∧ t.responses = aabFreq.responses ++ [{ code := 0#4, data := 0#32 }] :=
  next_of_answers (by decide +kernel)

theorem witness_AmpleOutputNeverAllocs : bitsConsumed aabEnc .decode = some 8 ∧
    8 * aabEnc.pmem.length ≤ aabEnc.capOut.toNat ∧
    ∃ t, exec .decode aabEnc = .next t ∧ t.responses = aabEnc.responses ++ [{ code := 0#4, data := 0#32 }] :=
  ⟨by decide, by decide, next_of_answers (by decide +kernel)⟩

theorem witness_BuildInvalidatesTheDictionary : aabDict.flag .fatal = false ∧ aabDict.flag .ftValid = true ∧
    ∃ t, exec .build aabDict = .next t ∧ t.responses = aabDict.responses ++ [{ code := 0#4, data := 0#32 }] :=
  ⟨by decide, by decide, next_of_answers (by decide +kernel)⟩

theorem witness_EveryNodeIsReachable : TreeWf aabEnc.arena aabEnc.root ∧ 0 < aabEnc.arena.length := ⟨aab_tree, by decide⟩

theorem witness_GendictOfLeafRoot : aaaaTree.flag .fatal = false ∧ aaaaTree.flag .treeValid = true ∧
    aaaaTree.arena[aaaaTree.root.toNat]? = some (.leaf 0x61#8 4#32) := by decide

theorem witness_GendictRecordsEveryPath : aabTree.flag .fatal = false ∧ aabTree.flag .treeValid = true ∧
    TreeWf aabTree.arena aabTree.root :=
  ⟨by decide, by decide, aab_tree⟩

theorem witness_DictionaryIsAPrefixCode :
    (Inv aabEnc ∧ aabEnc.flag .dictValid = true ∧ isLeafAt aabEnc.arena aabEnc.root = false) ∧
    Inv aaaaEnc ∧ aaaaEnc.flag .dictValid = true ∧ isLeafAt aaaaEnc.arena aaaaEnc.root = true :=
  ⟨⟨aab_inv, by decide, by decide⟩, aaaa_inv, by decide, by decide⟩

/-- PK_MAX exactly the bytes needed. -/
theorem witness_EncodePacksTheBitString :
    let s : State := { aabDict with capPk := 1#32 }
    s.flag .fatal = false ∧ s.flag .dictValid = true ∧ s.capPk.toNat ≤ 2 ^ 21 - 1 ∧
      (∀ b ∈ s.imem, (dictRead s.dict b).isSome = true) ∧
      [true, true, false] = (s.imem.map fun b => (dictRead s.dict b).getD []).flatten ∧ (3 + 7) / 8 ≤ s.capPk.toNat := by
  decide +kernel

theorem witness_EncodeOfUncodedByte : uncoded.flag .fatal = false ∧ uncoded.flag .dictValid = true ∧
    uncoded.imem = [0x61#8, 0x62#8] ++ 0x63#8 :: [] ∧
    (∀ x ∈ [0x61#8, 0x62#8], (dictRead uncoded.dict x).isSome = true) ∧ dictRead uncoded.dict 0x63#8 = none ∧
    [0x61#8, 0x62#8].length < 2 ^ 24 := by decide +kernel

/-- One byte more than PK_MAX. -/
theorem witness_EncodeBeyondCapacity : tight.flag .fatal = false ∧ tight.flag .dictValid = true ∧
    (∀ b ∈ tight.imem, (dictRead tight.dict b).isSome = true) ∧
    tight.capPk.toNat < ((tight.imem.map fun b => ((dictRead tight.dict b).getD []).length).sum + 7) / 8 := by decide +kernel

/-- A well-formed tree; and eight bits that spell exactly OUT_MAX = 5 symbols and end mid-tree, for all three commands. -/
theorem witness_DecodeWalksTheTree : (TreeWf aabEnc.arena aabEnc.root ∧ isInternalAt aabEnc.arena aabEnc.root = true) ∧
    let bits := [false, false, false, true, true, true, true, false]
    let codes := [[false, false], [false, true], [true], [true], [true]]
    let xs := [0x61#8, 0x62#8, 0x63#8, 0x63#8, 0x63#8]
    abcccEnc.flag .fatal = false ∧ abcccEnc.flag .treeValid = true ∧ isInternalAt abcccEnc.arena abcccEnc.root = true ∧
      bitsConsumed abcccEnc .decode = some 8 ∧ bitsConsumed { abcccEnc with bitLen := 8#24 } .decodeb = some 8 ∧
      bitsConsumed abcccEnc (.decodel 8#24) = some 8 ∧ 8 ≤ 8 * abcccEnc.pmem.length ∧ bits.length = 8 ∧
      (∀ k, k < 8 → bits[k]? = pbit abcccEnc.pmem k) ∧ bits = codes.flatten ++ [false] ∧
      Spells abcccEnc.arena abcccEnc.root codes xs ∧ follow abcccEnc.arena abcccEnc.root [false] = some 3#9 ∧
      isInternalAt abcccEnc.arena 3#9 = true ∧ xs.length ≤ abcccEnc.capOut.toNat := by
  refine ⟨⟨aab_tree, by decide⟩, by decide, by decide, by decide, by decide, by decide, by decide, by decide, by decide,
    by decide, by decide, ?_, by decide, by decide, by decide⟩
  repeat first | exact .nil | refine .cons (by decide) ?_

theorem witness_DecodeUnderLeafRoot : (aaaaEnc.flag .fatal = false ∧ aaaaEnc.flag .treeValid = true ∧
      aaaaEnc.arena[aaaaEnc.root.toNat]? = some (.leaf 0x61#8 4#32) ∧ bitsConsumed aaaaEnc .decode = some 8 ∧
      8 ≤ 8 * aaaaEnc.pmem.length ∧ (∀ k, k < 8 → pbit aaaaEnc.pmem k = some false) ∧ 8 ≤ aaaaEnc.capOut.toNat) ∧
    foreign.flag .fatal = false ∧ foreign.flag .treeValid = true ∧
      foreign.arena[foreign.root.toNat]? = some (.leaf 0x61#8 4#32) ∧ bitsConsumed foreign (.decodel 3#24) = some 3 ∧
      3 ≤ 8 * foreign.pmem.length ∧ 2 < 3 ∧ pbit foreign.pmem 2 = some true ∧
      ∀ j, j < 2 → pbit foreign.pmem j = some false := by decide

/-- Under an Internal root; and under a Leaf root at n = OUT_MAX + 1. -/
theorem witness_DecodeBeyondCapacity :
    let bits := [true, true] ++ List.replicate 6 false
    let codes := [[true], [true]] ++ List.replicate 6 [false]
    let xs := [0x61#8, 0x61#8] ++ List.replicate 6 0x62#8
    narrow.flag .fatal = false ∧ narrow.flag .treeValid = true ∧ isInternalAt narrow.arena narrow.root = true ∧
      bitsConsumed narrow .decode = some 8 ∧ bits.length = 8 ∧ (∀ k, k < 8 → bits[k]? = pbit narrow.pmem k) ∧
      8 ≤ 8 * narrow.pmem.length ∧ bits = codes.flatten ++ [] ∧ Spells narrow.arena narrow.root codes xs ∧
      follow narrow.arena narrow.root [] = some 2#9 ∧ isInternalAt narrow.arena 2#9 = true ∧
      narrow.capOut.toNat < xs.length ∧
      narrowLeaf.flag .fatal = false ∧ narrowLeaf.flag .treeValid = true ∧ isLeafAt narrowLeaf.arena narrowLeaf.root = true ∧
      bitsConsumed narrowLeaf .decode = some 8 ∧ 8 ≤ 8 * narrowLeaf.pmem.length ∧
      (∀ k, k < 8 → pbit narrowLeaf.pmem k = some false) ∧ 8 = narrowLeaf.capOut.toNat + 1 := by
  refine ⟨by decide, by decide, by decide, by decide, by decide, by decide, by decide, by decide, ?_, by decide,
    by decide, by decide, by decide, by decide, by decide, by decide, by decide, by decide, by decide⟩
  simp only [List.replicate, List.cons_append, List.nil_append]
  repeat first | exact .nil | refine .cons (by decide) ?_

theorem witness_DecodelBoundsAndEqualities : aabEnc.flag .fatal = false ∧ aabEnc.flag .treeValid = true ∧
    8 * aabEnc.pmem.length < (9#24).toNat ∧ (8#24).toNat = 8 * aabEnc.pmem.length ∧ 3#24 = aabEnc.bitLen ∧
    (3#24).toNat ≤ 8 * aabEnc.pmem.length := by decide

theorem witness_EncodeDecodeRoundTrip : Inv aabEnc ∧ aabEnc.flag .fatal = false ∧ aabEnc.flag .dictValid = true ∧
    (∀ b ∈ aabEnc.imem, (dictRead aabEnc.dict b).isSome = true) ∧
    bytesFor (bitString aabEnc.dict aabEnc.imem).length ≤ aabEnc.capPk.toNat ∧ aabEnc.imem.length ≤ aabEnc.capOut.toNat :=
  ⟨aab_inv, by decide, by decide, by decide +kernel, by decide +kernel, by decide⟩

/-- Under an Internal root, z = 1 and p = 5; under a Leaf root, z = 1 and p = 4. -/
theorem witness_PaddingEmitsSpuriousSymbols :
    (Inv aabEnc ∧ aabEnc.flag .fatal = false ∧ aabEnc.flag .treeValid = true ∧ aabEnc.flag .encValid = true ∧
      3 + (8 * aabEnc.pmem.length - aabEnc.bitLen.toNat) / 1 ≤ aabEnc.capOut.toNat ∧ ZeroCode aabEnc.arena aabEnc.root 1 0x62#8 ∧
      (∃ t, exec .decodeb aabEnc = .next t ∧ t.responses = aabEnc.responses ++ [{ code := 0#4, data := 0#32 }]) ∧
      ((stateOf (exec .decodeb aabEnc)).map fun t => (t.flag .midTree, t.omem.length)) = some (false, 3)) ∧
    Inv aaaaEnc ∧ aaaaEnc.flag .encValid = true ∧
      4 + (8 * aaaaEnc.pmem.length - aaaaEnc.bitLen.toNat) / 1 ≤ aaaaEnc.capOut.toNat ∧
      ZeroCode aaaaEnc.arena aaaaEnc.root 1 0x61#8 ∧
      ((stateOf (exec .decodeb aaaaEnc)).map fun t => (t.flag .midTree, t.omem.length)) = some (false, 4) :=
  ⟨⟨aab_inv, by decide, by decide, by decide, by decide, by decide, next_of_answers (by decide +kernel), by decide +kernel⟩,
    aaaa_inv, by decide, by decide, by decide, by decide +kernel⟩

theorem witness_CompressThenDecodeRoundTrip : Inv aabEnc ∧ aabEnc.flag .fatal = false ∧ aabEnc.imem ≠ [] ∧
    bytesFor (bitString aabDict.dict aabEnc.imem).length ≤ aabEnc.capPk.toNat ∧ aabEnc.imem.length ≤ aabEnc.capOut.toNat :=
  ⟨aab_inv, by decide, by decide, by decide +kernel, by decide⟩

theorem witness_EncodedSizeBound : Inv aabEnc ∧ aabEnc.flag .fatal = false ∧ aabEnc.imem ≠ [] :=
  ⟨aab_inv, by decide, by decide⟩

theorem witness_TreeIsOptimal : aabFreq.flag .fatal = false ∧ aabFreq.flag .ftValid = true ∧ ftTotal aabFreq.ft < 2 ^ 32 ∧
    presentSymbols aabFreq.ft = [0x61#8, 0x62#8] ∧ (∀ a ∈ [0x61#8, 0x62#8], ∀ b ∈ [0x61#8, 0x62#8], a ≠ b →
      ¬ (if a = 0x61#8 then [true] else [false]) <+: (if b = 0x61#8 then [true] else [false])) ∧
    (∃ t, exec .build aabFreq = .next t ∧ t.responses = aabFreq.responses ++ [{ code := 0#4, data := 0#32 }]) ∧
    ∃ u, exec .gendict aabTree = .next u ∧ u.responses = aabTree.responses ++ [{ code := 0#4, data := 0#32 }] :=
  ⟨by decide, by decide, by decide +kernel, by decide +kernel, by decide, next_of_answers (by decide +kernel),
    next_of_answers (by decide +kernel)⟩

theorem witness_StepKeepsTheInvariant : Inv (presents aabEnc 0x51000000#32) ∧
    step (presents aabEnc 0x51000000#32) = .next (after (step (presents aabEnc 0x51000000#32)) small) :=
  ⟨inv_pending aab_inv _, next_after (by decide +kernel)⟩

theorem witness_StepNeverStops : Inv (presents aabEnc 0x51000000#32) := inv_pending aab_inv _

theorem witness_CapacitiesAreConstant :
    step (presents aabEnc 0x01000000#32) = .next (after (step (presents aabEnc 0x01000000#32)) small) :=
  next_after (by decide +kernel)

/-- A command that changes the space it owns. -/
theorem witness_SpacesHaveTheirWriters : Instr.inclr ≠ .clear ∧
    (∃ t, exec .inclr aabInput = .next t ∧ t.responses = aabInput.responses ++ [{ code := 0#4, data := 0#32 }]) ∧
    ((stateOf (exec .inclr aabInput)).map fun t => decide (t.imem ≠ aabInput.imem)) = some true :=
  ⟨by decide, next_of_answers (by decide +kernel), by decide +kernel⟩

/-- A flag that rises, with its success, and one that falls. -/
theorem witness_FlagsRiseAndFallByTheirCommands :
    (∃ t, exec .encode aabDict = .next t ∧ t.responses = aabDict.responses ++ [{ code := 0#4, data := 0#32 }]) ∧
    ((stateOf (exec .encode aabDict)).map fun t => decide (Rises aabDict t .encValid)) = some true ∧
    (∃ t, exec .decode { foreign with status := 0x33#8 } = .next t ∧
      t.responses = foreign.responses ++ [{ code := 6#4, data := 0#32 }]) ∧
    ((stateOf (exec .decode { foreign with status := 0x33#8 })).map
      fun t => decide (Falls { foreign with status := 0x33#8 } t .decValid)) = some true :=
  ⟨next_of_answers (by decide +kernel), by decide +kernel, next_of_answers (by decide +kernel), by decide +kernel⟩

end Sys2Proof.Tests
end

/-! SUPPORT. Reading back a command's own word, format by format (30_encoding.md R81, R87), and the step that performs it
(60_exceptions.md R205). -/

namespace Sys2Proof

/-- A slice inside the operand field of a command's word holds what the operand, as a number, has there (R81). -/
theorem slice_encode {i : Instr} {lo k : Nat} {x : BitVec k} (hlo : lo + k ≤ 24)
    (hx : operandNat i / 2 ^ lo % 2 ^ k = x.toNat) : (encode i).extractLsb' lo k = x := by
  have hfield : (encode i).extractLsb' lo k = (operandOf i).extractLsb' lo k :=
    BitVec.extractLsb'_append_eq_of_add_le hlo
  apply BitVec.eq_of_toNat_eq
  rw [hfield, toNat_slice, operandOf_toNat, hx]

theorem formatB_encode {i : Instr} {b : Byte} (f : Byte → Instr) (h : operandNat i = b.toNat) :
    formatB (encode i) (f (imm8Field (encode i))) = .instr (f b) := by
  have hb := b.isLt
  have hzero : (encode i).extractLsb' 8 16 = 0#16 := slice_encode (by decide) (by simp [h]; omega)
  have himm : imm8Field (encode i) = b := slice_encode (by decide) (by simp [h]; omega)
  simp [formatB, checkZero, hzero, himm]

theorem formatR_encode {i : Instr} {r : BitVec 4} (f : BitVec 4 → Instr) (h : operandNat i = r.toNat) :
    formatR (encode i) (f (regField (encode i))) = .instr (f r) := by
  have hr := r.isLt
  have hzero : (encode i).extractLsb' 4 20 = 0#20 := slice_encode (by decide) (by simp [h]; omega)
  have hreg : regField (encode i) = r := slice_encode (by decide) (by simp [h]; omega)
  simp [formatR, checkZero, hzero, hreg]

theorem formatI_encode {i : Instr} {p : BitVec 9} (f : BitVec 9 → Instr) (h : operandNat i = p.toNat) :
    formatI (encode i) (f (idxField (encode i))) = .instr (f p) := by
  have hp := p.isLt
  have hzero : (encode i).extractLsb' 9 15 = 0#15 := slice_encode (by decide) (by simp [h]; omega)
  have hidx : idxField (encode i) = p := slice_encode (by decide) (by simp [h]; omega)
  simp [formatI, checkZero, hzero, hidx]

theorem formatXN_encode {i : Instr} {n : Idx} {w : BitVec 8} (f : Idx → BitVec 8 → Instr)
    (h : operandNat i = w.toNat * 2 ^ 16 + n.toNat) (hw : nodeSelectorOk w = true) :
    formatXN (encode i) (f (idxField (encode i)) (selectorField (encode i))) = .instr (f n w) := by
  have hn := n.isLt
  have hw8 := w.isLt
  have hzero : (encode i).extractLsb' 9 7 = 0#7 := slice_encode (by decide) (by simp [h]; omega)
  have hidx : idxField (encode i) = n := slice_encode (by decide) (by simp [h]; omega)
  have hsel : selectorField (encode i) = w := slice_encode (by decide) (by simp [h]; omega)
  simp [formatXN, checkSelector, hzero, hidx, hsel, hw]

theorem formatXD_encode {i : Instr} {b : Byte} {w : BitVec 8} (f : Byte → BitVec 8 → Instr)
    (h : operandNat i = w.toNat * 2 ^ 16 + b.toNat) (hw : dictSelectorOk w = true) :
    formatXD (encode i) (f (imm8Field (encode i)) (selectorField (encode i))) = .instr (f b w) := by
  have hb := b.isLt
  have hw8 := w.isLt
  have hzero : (encode i).extractLsb' 8 8 = 0#8 := slice_encode (by decide) (by simp [h]; omega)
  have himm : imm8Field (encode i) = b := slice_encode (by decide) (by simp [h]; omega)
  have hsel : selectorField (encode i) = w := slice_encode (by decide) (by simp [h]; omega)
  simp [formatXD, checkSelector, hzero, himm, hsel, hw]

/-- Reading back a command's own word gives the command (R87). -/
theorem decode_encode {i : Instr} (h : i.wf = true) : decode (encode i) = .instr i := by
  cases i with
  | nop | clear | inclr | pkclr | freq | build | gendict | encode | decode | decodeb => decide
  | decodel n | rdin n | rdpk n | rdout n =>
    simp [decode, opcodeField_encode, opcodeOf, imm24Field_encode, operandOf]
  | inpush b | pkpush b | rdfreq b =>
    simpa [decode, opcodeField_encode, opcodeOf] using formatB_encode _ rfl
  | rdreg r => simpa [decode, opcodeField_encode, opcodeOf] using formatR_encode _ rfl
  | rdnc p => simpa [decode, opcodeField_encode, opcodeOf] using formatI_encode _ rfl
  | rdnode n w => simpa [decode, opcodeField_encode, opcodeOf] using formatXN_encode _ rfl h
  | rddict b w => simpa [decode, opcodeField_encode, opcodeOf] using formatXD_encode _ rfl h

theorem tableWord_toNat (w : Word) : tableWord 32 w.toNat = w := by
  rw [tableWord, Nat.mod_eq_of_lt w.isLt, BitVec.ofNat_toNat, BitVec.setWidth_eq]

namespace Machine

theorem step_command {s : State} {w : Word} {rest : List HostEvent} {i : Instr} (hp : s.pending = .command w :: rest)
    (hd : decode w = .instr i) : step s = exec i { s with pending := rest } := by
  simp [step, hp, perform_instr _ hd]

/-- Presenting a word and taking it again leaves the state as it was. -/
theorem withFetchWord_taken (s : State) (nbits w : Nat) :
    { s.withFetchWord nbits w with pending := s.pending } = s := rfl

end Machine

/-- Settles O5: the step on a word that decodes, and the word that `withFetchWord` presents decodes to its command. -/
theorem stepPerformsTheCommand : Obligations.StepPerformsTheCommand := by
  unfold Obligations.StepPerformsTheCommand
  refine ⟨fun s w rest i hp hd => Machine.step_command hp hd, fun s i hi => ?_⟩
  have hd : decode (tableWord 32 (encode i).toNat) = .instr i := by rw [tableWord_toNat, decode_encode hi]
  rw [Machine.step_command (Machine.withFetchWord_pending s 32 _) hd, Machine.withFetchWord_taken]

end Sys2Proof

/-! SUPPORT. How a command other than CLEAR can end, said once for every later proof (60_exceptions.md R205, R206): it succeeds on a state
that holds its own writes, it is refused on an unchanged state, or it stops in its helper and its error is recorded on the state its
rule leaves on failure. Then which spaces and flags those writes are (20_memory.md R60, 10_state.md R33). -/

namespace Sys2Proof.Machine

open Sys2Proof.Safety

/-! ## How a command ends -/

/-- The checks of R205 before the operand's own are passed: FATAL is 0 where it gates the command, and the required flag is 1. -/
def Admitted (i : Instr) (s : State) : Prop :=
  (isGated i = true → s.flag .fatal = false) ∧ ∀ f, requiredFlag i = some f → s.flag f = true

/-- A command other than CLEAR succeeds on `s` with a datum and, before it responds, this state. -/
inductive Succeeds (s : State) : Instr → Word → State → Prop
  | nop : Succeeds s .nop 0#32 s
  | readOut {i : Instr} (d : Word) : isReadOut i = true → Succeeds s i d s
  | inclr : Succeeds s .inclr 0#32 { s with imem := [] }
  | inpush (b : Byte) : s.imem.length ≠ s.capIn.toNat →
      Succeeds s (.inpush b) 0#32 { s with imem := memAppend s.imem b }
  | pkclr : Succeeds s .pkclr 0#32 (encodeEmptied s)
  | pkpush (b : Byte) : s.pmem.length ≠ s.capPk.toNat →
      Succeeds s (.pkpush b) 0#32 { s with
        pmem := memAppend s.pmem b
        bitLen := BitVec.ofNat 24 (8 * (s.pmem.length + 1))
        status := putFlag s.status .encValid false }
  | freq : Succeeds s .freq 0#32
      { s with ft := s.imem.foldl countByte ftZero, status := putFlag s.status .ftValid true }
  | build {b : Builder} {root : Idx} {nd : Node} : buildTree s.ft = .ok (b, root, nd) →
      Succeeds s .build 0#32 { buildCleared s with
        arena := b.arena
        nc := b.nc
        root := root
        status := putFlag (putFlag (buildCleared s).status .leafRoot (!nodeIsInternal nd)) .treeValid true }
  | gendict {d : Dictionary} : dictOf s.arena s.root = .ok d →
      Succeeds s .gendict 0#32 { s with dict := d, status := putFlag s.status .dictValid true }
  | encode {bits : List Bool} : encodeBits s.dict s.imem s.capPk.toNat = .ok bits →
      Succeeds s .encode 0#32 { s with
        pmem := pack bits
        bitLen := BitVec.ofNat 24 bits.length
        status := putFlag s.status .encValid true }
  | decode {i : Instr} {n : Nat} {out : List Byte} {cur : Idx} :
      bitsConsumed s i = some n → decodeBits s n = .ok (out, cur) →
      Succeeds s i 0#32 { s with
        omem := out
        decCur := cur
        status := putFlag (putFlag s.status .midTree (cur != s.root)) .decValid true }

/-- The helper of a command stops early on `s`, with an error or a fault; the state is the one an error is recorded on. -/
inductive Stops (s : State) : Instr → Stop → State → Prop
  | build {e : Stop} : buildTree s.ft = .error e → Stops s .build e (buildCleared s)
  | gendict {e : Stop} : dictOf s.arena s.root = .error e → Stops s .gendict e s
  | encode {e : Stop} : encodeBits s.dict s.imem s.capPk.toNat = .error e → Stops s .encode e (encodeEmptied s)
  | decode {i : Instr} {n : Nat} {e : Stop} :
      bitsConsumed s i = some n → decodeBits s n = .error e → Stops s i e (decodeEmptied s)

/-- The kinds whose failure writes nothing but the error record (60_exceptions.md R206). -/
def isRefusal (k : ErrKind) : Bool := k = .seq ∨ k = .halted ∨ k = .range ∨ k = .illegal

/-- How a command other than CLEAR ends on `s`. -/
inductive Ends (s : State) (i : Instr) : Result → Prop
  | success {d : Word} {u : State} : Admitted i s → Succeeds s i d u → Ends s i (succeed d u)
  | refusal {k : ErrKind} (info : Nat) : isRefusal k = true → Ends s i (raise (opcodeOf i) k info s)
  | failure {k : ErrKind} {info : Nat} {u : State} :
      Admitted i s → Stops s i (.raised k info) u → Ends s i (raise (opcodeOf i) k info u)
  | fault {f : Fault} {u : State} : Admitted i s → Stops s i (.fault f) u → Ends s i (.fault f)

variable {s : State} {i : Instr}

/-- The FATAL gate of a command without a prerequisite (R205 step 2). -/
theorem ends_unlessHalted {body : Result} (hr : requiredFlag i = none) (h : Admitted i s → Ends s i body) :
    Ends s i (unlessHalted (opcodeOf i) s body) := by
  rcases unlessHalted_cases (s := s) rfl with ⟨-, e⟩ | ⟨hf, e⟩ <;> rw [e]
  · exact .refusal 0 rfl
  · exact h ⟨fun _ => hf, by simp [hr]⟩

/-- Both gates of a command with a prerequisite (R205 steps 2 and 3). -/
theorem ends_requireFlag {body : Result} {f : Flag} (hr : requiredFlag i = some f) (h : Admitted i s → Ends s i body) :
    Ends s i (unlessHalted (opcodeOf i) s (requireFlag (opcodeOf i) f s body)) := by
  rcases unlessHalted_cases (s := s) rfl with ⟨-, e⟩ | ⟨hf, e⟩ <;> rw [e]
  · exact .refusal 0 rfl
  rcases requireFlag_cases (s := s) rfl with ⟨hf', e⟩ | ⟨-, e⟩ <;> rw [e]
  · exact h ⟨fun _ => hf, by simp [hr, hf']⟩
  · exact .refusal 0 rfl

/-- The end of a command with a helper. -/
theorem ends_complete {α : Type} {onFail : State} {x : Except Stop α} {body : α → Result} (ha : Admitted i s)
    (hok : ∀ a, x = .ok a → Ends s i (body a)) (hstop : ∀ e, x = .error e → Stops s i e onFail) :
    Ends s i (complete (opcodeOf i) onFail x body) := by
  rcases complete_cases (x := x) rfl with ⟨a, hx, e⟩ | ⟨k, info, hx, e⟩ | ⟨f, hx, e⟩ <;> rw [e]
  · exact hok a hx
  · exact .failure ha (hstop _ hx)
  · exact .fault ha (hstop _ hx)

/-- A read-out passes no gate (R207, R233). -/
theorem admitted_of_isReadOut (hi : isReadOut i = true) : Admitted i s := by
  cases i <;> simp_all [Admitted, isGated, requiredFlag, isReadOut]

theorem ends_readOut_some (hi : isReadOut i = true) (d : Word) : Ends s i (succeed d s) :=
  .success (admitted_of_isReadOut hi) (.readOut d hi)

theorem ends_readOut (hi : isReadOut i = true) (index : Nat) (datum : Option Word) :
    Ends s i (readOut (opcodeOf i) index datum s) := by
  rcases readOut_cases (datum := datum) rfl with ⟨d, -, e⟩ | ⟨-, e⟩ <;> rw [e]
  · exact ends_readOut_some hi d
  · exact .refusal index rfl

/-- A selector out of range fails as the decoder's ILLEGAL does (30_encoding.md R84(c)). -/
theorem ends_selector {ok : Bool} {body : Result} (h : Ends s i body) :
    Ends s i (if ok then body else rejectIllegal (Sys2Proof.encode i) s) := by
  split
  · exact h
  · rw [rejectIllegal, opcodeField_encode]
    exact .refusal _ rfl

theorem ends_decodeRun {n : Nat} (hn : bitsConsumed s i = some n) (ha : Admitted i s) :
    Ends s i (decodeRun (opcodeOf i) n s) :=
  ends_complete ha (fun _ h => .success ha (.decode hn h)) fun _ h => .decode hn h

/-- Every command but CLEAR ends in one of these ways. -/
theorem exec_ends (s : State) {i : Instr} (hi : i ≠ .clear) : Ends s i (exec i s) := by
  cases i with
  | nop => exact .success ⟨nofun, nofun⟩ .nop
  | clear => exact absurd rfl hi
  | inclr => exact ends_unlessHalted rfl fun ha => .success ha .inclr
  | pkclr => exact ends_unlessHalted rfl fun ha => .success ha .pkclr
  | freq => exact ends_unlessHalted rfl fun ha => .success ha .freq
  | inpush b =>
    refine ends_unlessHalted rfl fun ha => ?_
    split
    · exact .refusal _ rfl
    · exact .success ha (.inpush b ‹_›)
  | pkpush b =>
    refine ends_unlessHalted rfl fun ha => ?_
    split
    · exact .refusal _ rfl
    · exact .success ha (.pkpush b ‹_›)
  | build => exact ends_requireFlag rfl fun ha => ends_complete ha (fun _ h => .success ha (.build h)) fun _ h => .build h
  | gendict =>
    exact ends_requireFlag rfl fun ha => ends_complete ha (fun _ h => .success ha (.gendict h)) fun _ h => .gendict h
  | encode =>
    exact ends_requireFlag rfl fun ha => ends_complete ha (fun _ h => .success ha (.encode h)) fun _ h => .encode h
  | decode | decodeb => exact ends_requireFlag rfl (ends_decodeRun rfl)
  | decodel n =>
    refine ends_requireFlag rfl fun ha => ?_
    by_cases h : n.toNat ≤ 8 * s.pmem.length
    · simpa [bitLimit, h] using ends_decodeRun rfl ha
    · simpa [bitLimit, h] using Ends.refusal n.toNat rfl
  | rdreg _ | rdin _ | rdpk _ | rdout _ | rdnc _ => exact ends_readOut rfl _ _
  | rdfreq _ => exact ends_readOut_some rfl _
  | rdnode _ _ => exact ends_selector (ends_readOut rfl _ _)
  | rddict _ _ => exact ends_selector (ends_readOut_some rfl _)

/-- What a command that answers a next state did: it succeeded, or its error was recorded on `s` or, after its gates, on the state
its rule leaves on failure. -/
theorem exec_next_cases {t : State} (hi : i ≠ .clear) (h : exec i s = .next t) :
    (∃ d u, Admitted i s ∧ Succeeds s i d u ∧ t = u.respond 0#4 d) ∨
      ∃ k info u, (isRefusal k = true ∧ u = s ∨ Admitted i s ∧ Stops s i (.raised k info) u) ∧
        t = (u.recordError (opcodeOf i) k info).respond (errCode k) 0#32 := by
  have hends := exec_ends s hi
  generalize exec i s = r at h hends
  cases hends with
  | success ha hs => exact .inl ⟨_, _, ha, hs, by simpa [succeed_eq, eq_comm] using h⟩
  | refusal info hk => exact .inr ⟨_, info, s, .inl ⟨hk, rfl⟩, raise_next h⟩
  | failure ha hs => exact .inr ⟨_, _, _, .inr ⟨ha, hs⟩, raise_next h⟩
  | fault ha hs => cases h

/-! ## What each command owns -/

/-- The commands that write PMEM, BIT_LEN and ENC_VALID (10_state.md R33, 20_memory.md R60). -/
abbrev WritesPacked (i : Instr) : Prop := i = .encode ∨ i = .pkclr ∨ ∃ b, i = .pkpush b

/-- Of the spaces (R60) and of the flags but FATAL (R33), only what the command owns differs between `s` and `u`. -/
def ChangesOnlyItsOwn (i : Instr) (s u : State) : Prop :=
  (u.imem ≠ s.imem → i = .inclr ∨ ∃ b, i = .inpush b) ∧ (u.ft ≠ s.ft → i = .freq) ∧
    (u.arena ≠ s.arena ∨ u.nc ≠ s.nc ∨ u.root ≠ s.root → i = .build) ∧ (u.dict ≠ s.dict → i = .gendict) ∧
    (u.pmem ≠ s.pmem ∨ u.bitLen ≠ s.bitLen → WritesPacked i) ∧
    (u.omem ≠ s.omem ∨ u.decCur ≠ s.decCur → IsDecode i) ∧
    (u.flag .ftValid ≠ s.flag .ftValid → i = .freq) ∧
    (u.flag .treeValid ≠ s.flag .treeValid ∨ u.flag .leafRoot ≠ s.flag .leafRoot → i = .build) ∧
    (u.flag .dictValid ≠ s.flag .dictValid → i = .build ∨ i = .gendict) ∧
    (u.flag .encValid ≠ s.flag .encValid → WritesPacked i) ∧
    (u.flag .decValid ≠ s.flag .decValid ∨ u.flag .midTree ≠ s.flag .midTree → IsDecode i)

/-- What no command but CLEAR writes before it responds or raises: FATAL, the error record, the capacities, the host's side. -/
structure KeepsTheRest (s u : State) : Prop where
  fatal : u.flag .fatal = s.flag .fatal
  err : u.err = s.err
  lastErr : u.lastErr = s.lastErr
  eInfo : u.eInfo = s.eInfo
  capIn : u.capIn = s.capIn
  capPk : u.capPk = s.capPk
  capOut : u.capOut = s.capOut
  pending : u.pending = s.pending
  responses : u.responses = s.responses

theorem changesOnlyItsOwn_refl (i : Instr) (s : State) : ChangesOnlyItsOwn i s s := by simp [ChangesOnlyItsOwn]

theorem keepsTheRest_refl (s : State) : KeepsTheRest s s := ⟨rfl, rfl, rfl, rfl, rfl, rfl, rfl, rfl, rfl⟩

theorem isDecode_of_bitsConsumed {n : Nat} (h : bitsConsumed s i = some n) : IsDecode i := by
  cases i <;> simp_all [bitsConsumed, IsDecode]

theorem Succeeds.changesOnlyItsOwn {d : Word} {u : State} (h : Succeeds s i d u) : ChangesOnlyItsOwn i s u := by
  cases h with
  | nop | readOut => exact changesOnlyItsOwn_refl _ s
  | inclr | inpush | freq | gendict => simp [ChangesOnlyItsOwn, State.flag_eq]
  | pkclr | pkpush | encode => simp [ChangesOnlyItsOwn, WritesPacked, State.flag_eq, encodeEmptied]
  | build => simp [ChangesOnlyItsOwn, State.flag_eq, buildCleared]
  | decode hn =>
    have hd : IsDecode i := isDecode_of_bitsConsumed hn
    simp [ChangesOnlyItsOwn, State.flag_eq, hd]

theorem Succeeds.keepsTheRest {d : Word} {u : State} (h : Succeeds s i d u) : KeepsTheRest s u := by
  cases h <;> exact
    ⟨by simp [State.flag_eq, encodeEmptied, buildCleared], rfl, rfl, rfl, rfl, rfl, rfl, rfl, rfl⟩

theorem Stops.changesOnlyItsOwn {e : Stop} {u : State} (h : Stops s i e u) : ChangesOnlyItsOwn i s u := by
  cases h with
  | gendict => exact changesOnlyItsOwn_refl _ s
  | build => simp [ChangesOnlyItsOwn, State.flag_eq, buildCleared]
  | encode => simp [ChangesOnlyItsOwn, WritesPacked, State.flag_eq, encodeEmptied]
  | decode hn =>
    have hd : IsDecode i := isDecode_of_bitsConsumed hn
    simp [ChangesOnlyItsOwn, State.flag_eq, decodeEmptied, hd]

theorem Stops.keepsTheRest {e : Stop} {u : State} (h : Stops s i e u) : KeepsTheRest s u := by
  cases h <;> exact
    ⟨by simp [State.flag_eq, encodeEmptied, buildCleared, decodeEmptied], rfl, rfl, rfl, rfl, rfl, rfl, rfl, rfl⟩

/-- The error record is in no space and in no flag but FATAL (60_exceptions.md R201). -/
theorem ChangesOnlyItsOwn.recordError {u : State} (h : ChangesOnlyItsOwn i s u) (op : Byte) (k : ErrKind) (info : Nat) :
    ChangesOnlyItsOwn i s (u.recordError op k info) := by
  simpa [ChangesOnlyItsOwn] using h

/-- FATAL rises with a fatal kind, and those are ALLOC and EMPTY (R202). -/
theorem code_of_fatal_changed {u : State} {op : Byte} {k : ErrKind} {info : Nat}
    (h : (u.recordError op k info).flag .fatal ≠ u.flag .fatal) : errCode k = 1#4 ∨ errCode k = 2#4 := by
  cases k <;> simp_all [errFatal, errCode]

theorem errCode_ne_zero (k : ErrKind) : errCode k ≠ 0#4 := by cases k <;> decide

end Sys2Proof.Machine

namespace Sys2Proof

open Sys2Proof.Machine

/-- Settles O58: what a command writes before it ends is its own; a response adds nothing to that, and a failure adds the error
record and, for ALLOC and EMPTY, FATAL. -/
theorem spacesHaveTheirWriters : Obligations.SpacesHaveTheirWriters := by
  unfold Obligations.SpacesHaveTheirWriters
  intro i s t hi h
  rcases exec_next_cases hi h with ⟨d, u, -, hs, rfl⟩ | ⟨k, info, u, hu, rfl⟩
  · have rest := hs.keepsTheRest
    obtain ⟨himem, hft, htree, hdict, hpacked, hout, hftValid, htreeFlags, hdictValid, hencValid, hdecFlags⟩ :=
      hs.changesOnlyItsOwn
    exact ⟨_, congrArg (· ++ _) rest.responses, himem, hft, htree, hdict, hpacked, hout, hftValid, htreeFlags, hdictValid,
      hencValid, hdecFlags, fun hf => absurd rest.fatal hf, by simp [rest.err, rest.lastErr, rest.eInfo],
      rest.capIn, rest.capPk, rest.capOut, rest.pending⟩
  · have hown : ChangesOnlyItsOwn i s u ∧ KeepsTheRest s u := by
      rcases hu with ⟨-, rfl⟩ | ⟨-, hs⟩
      · exact ⟨changesOnlyItsOwn_refl i u, keepsTheRest_refl u⟩
      · exact ⟨hs.changesOnlyItsOwn, hs.keepsTheRest⟩
    obtain ⟨own, rest⟩ := hown
    obtain ⟨himem, hft, htree, hdict, hpacked, hout, hftValid, htreeFlags, hdictValid, hencValid, hdecFlags⟩ :=
      own.recordError (opcodeOf i) k info
    exact ⟨_, congrArg (· ++ _) rest.responses, himem, hft, htree, hdict, hpacked, hout, hftValid, htreeFlags, hdictValid,
      hencValid, hdecFlags, fun hf => code_of_fatal_changed (op := opcodeOf i) (info := info) (rest.fatal ▸ hf),
      fun _ => errCode_ne_zero k, rest.capIn, rest.capPk, rest.capOut, rest.pending⟩

end Sys2Proof

/-! SUPPORT. Paths in the tree that ARENA holds (10_state.md R24): how `follow` and `leafOn` go down it, that a path is known by the node it
ends at, that every node has one, and how long a path can be. -/

namespace Sys2Proof.Safety

open Sys2Proof.Machine

/-! ## Following a path -/

section Follow

variable {arena : List Node} {n m : Idx}

@[simp] theorem follow_nil (arena : List Node) (n : Idx) : follow arena n [] = some n := rfl

/-- The first branch of a path leaves an Internal. -/
theorem follow_cons_eq_some {b : Bool} {path : List Bool} : follow arena n (b :: path) = some m ↔
    ∃ f l r, arena[n.toNat]? = some (.internal f l r) ∧ follow arena (if b then r else l) path = some m := by
  rw [follow]
  cases arena[n.toNat]? with
  | none => simp
  | some nd => cases nd <;> simp

theorem follow_append (arena : List Node) (n : Idx) (p q : List Bool) :
    follow arena n (p ++ q) = (follow arena n p).bind fun m => follow arena m q := by
  induction p generalizing n with
  | nil => rfl
  | cons b p ih =>
    simp only [List.cons_append, follow]
    cases arena[n.toNat]? with
    | none => rfl
    | some nd =>
      cases nd with
      | leaf _ _ => rfl
      | internal _ _ _ => exact ih _

/-- The last branch of a path goes from an Internal to its child. -/
theorem follow_concat_eq_some {b : Bool} {path : List Bool} : follow arena n (path ++ [b]) = some m ↔
    ∃ u f l r, follow arena n path = some u ∧ arena[u.toNat]? = some (.internal f l r) ∧ m = if b then r else l := by
  simp only [follow_append, Option.bind_eq_some_iff, follow_cons_eq_some, follow_nil, Option.some.injEq]
  exact ⟨fun ⟨u, hu, f, l, r, hn, hm⟩ => ⟨u, f, l, r, hu, hn, hm.symm⟩,
    fun ⟨u, f, l, r, hu, hn, hm⟩ => ⟨u, hu, f, l, r, hn, hm.symm⟩⟩

/-- No path leads on from a Leaf. -/
theorem follow_leaf_eq_some {sym : Byte} {f : Count} {path : List Bool} (hn : arena[n.toNat]? = some (.leaf sym f)) :
    follow arena n path = some m ↔ path = [] ∧ m = n := by
  cases path with
  | nil => simp [eq_comm]
  | cons b path => simp [follow_cons_eq_some, hn]

theorem leafOn_eq_some {path : List Bool} {sym : Byte} : leafOn arena n path = some sym ↔
    ∃ m f, follow arena n path = some m ∧ arena[m.toNat]? = some (.leaf sym f) := by
  rw [leafOn]
  cases follow arena n path with
  | none => simp
  | some m =>
    cases h : arena[m.toNat]? with
    | none => simp [h]
    | some nd => cases nd <;> simp [h]

theorem leafOn_cons_eq_some {b : Bool} {path : List Bool} {sym : Byte} : leafOn arena n (b :: path) = some sym ↔
    ∃ f l r, arena[n.toNat]? = some (.internal f l r) ∧ leafOn arena (if b then r else l) path = some sym := by
  simp only [leafOn_eq_some, follow_cons_eq_some]
  exact ⟨fun ⟨m, g, ⟨f, l, r, hn, hm⟩, hs⟩ => ⟨f, l, r, hn, m, g, hm, hs⟩,
    fun ⟨f, l, r, hn, m, g, hm, hs⟩ => ⟨m, g, ⟨f, l, r, hn, hm⟩, hs⟩⟩

theorem leafOn_leaf_eq_some {sym sym' : Byte} {f : Count} {path : List Bool} (hn : arena[n.toNat]? = some (.leaf sym f)) :
    leafOn arena n path = some sym' ↔ path = [] ∧ sym' = sym := by
  simp only [leafOn_eq_some, follow_leaf_eq_some hn]
  constructor
  · rintro ⟨m, g, ⟨rfl, rfl⟩, hs⟩
    simp_all
  · rintro ⟨rfl, rfl⟩
    exact ⟨n, f, ⟨rfl, rfl⟩, hn⟩

theorem isLeafAt_iff : isLeafAt arena n = true ↔ ∃ sym f, arena[n.toNat]? = some (.leaf sym f) := by
  rw [isLeafAt]
  cases arena[n.toNat]? with
  | none => simp
  | some nd => cases nd <;> simp

theorem isInternalAt_iff : isInternalAt arena n = true ↔ ∃ f l r, arena[n.toNat]? = some (.internal f l r) := by
  rw [isInternalAt]
  cases arena[n.toNat]? with
  | none => simp
  | some nd => cases nd <;> simp

end Follow

/-! ## Parents and children -/

/-- A branch bit leads to one of the node's children. -/
theorem branch_mem_children (f : Count) (l r : Idx) (b : Bool) : (if b then r else l) ∈ children (.internal f l r) := by
  cases b <;> simp [children]

theorem mem_children {nd : Node} {i : Idx} : i ∈ children nd ↔ ∃ f l r, nd = .internal f l r ∧ (i = l ∨ i = r) := by
  cases nd with
  | leaf _ _ => simp [children]
  | internal f l r => simp [children]

theorem mem_leafSyms {arena : List Node} {sym : Byte} : sym ∈ arena.filterMap leafSym? ↔ ∃ f, Node.leaf sym f ∈ arena := by
  simp only [List.mem_filterMap]
  constructor
  · rintro ⟨nd, hnd, hsym⟩
    cases nd with
    | leaf s f => simp only [leafSym?, Option.some.injEq] at hsym; exact ⟨f, hsym ▸ hnd⟩
    | internal _ _ _ => simp [leafSym?] at hsym
  · rintro ⟨f, hf⟩
    exact ⟨_, hf, rfl⟩

/-- An index that names a node is below NODE_CNT. -/
theorem lt_length_of_node {arena : List Node} {n : Idx} {nd : Node} (hn : arena[n.toNat]? = some nd) :
    n.toNat < arena.length :=
  (List.getElem?_eq_some_iff.mp hn).1

namespace TreeWf

variable {arena : List Node} {root : Idx}

/-- The arena's indices fit their 9 bits (10_state.md R23). -/
theorem length_le (h : TreeWf arena root) : arena.length ≤ 511 := by
  have := h.size
  have := h.leaves
  omega

theorem exists_idx (h : TreeWf arena root) {n : Nat} (hn : n < arena.length) : ∃ i : Idx, i.toNat = n :=
  ⟨BitVec.ofNat 9 n, by have := h.length_le; simp; omega⟩

/-- A parent has a greater index than its child (R24(b)). -/
theorem child_lt (h : TreeWf arena root) {n i : Idx} {nd : Node} (hn : arena[n.toNat]? = some nd) (hi : i ∈ children nd) :
    i.toNat < n.toNat := by
  obtain ⟨f, l, r, rfl, hlr⟩ := mem_children.mp hi
  obtain ⟨hl, hr, -⟩ := h.childrenBelow n.toNat f l r hn
  rcases hlr with rfl | rfl <;> assumption

/-- Every index is listed at most once as a child. -/
theorem nodup_children (h : TreeWf arena root) : (arena.flatMap children).Nodup := by
  refine List.nodup_iff_count_le_one.mpr fun i => ?_
  by_cases hi : i ∈ arena.flatMap children
  · obtain ⟨nd, hnd, hic⟩ := List.mem_flatMap.mp hi
    obtain ⟨n, hn, rfl⟩ := List.getElem_of_mem hnd
    obtain ⟨f, l, r, hnd, hlr⟩ := mem_children.mp hic
    obtain ⟨hl, hr, -⟩ := h.childrenBelow n f l r (List.getElem?_eq_some_iff.mpr ⟨hn, hnd⟩)
    have hlt : i.toNat < arena.length := by rcases hlr with rfl | rfl <;> omega
    rw [h.oneParent i hlt]
    split <;> decide
  · simp [List.count_eq_zero.mpr hi]

/-- The root is no node's child (R24(b)). -/
theorem root_not_child (h : TreeWf arena root) {nd : Node} (hnd : nd ∈ arena) : root ∉ children nd := by
  intro hroot
  have hlast := h.rootLast
  have hcount := h.oneParent root (by omega)
  rw [if_pos rfl, List.count_eq_zero] at hcount
  exact hcount (List.mem_flatMap.mpr ⟨nd, hnd, hroot⟩)

/-- A node has one parent only (R24(b)). -/
theorem parent_unique (h : TreeWf arena root) {u v i : Idx} {x y : Node} (hu : arena[u.toNat]? = some x)
    (hv : arena[v.toNat]? = some y) (hx : i ∈ children x) (hy : i ∈ children y) : u = v := by
  obtain ⟨hul, rfl⟩ := List.getElem?_eq_some_iff.mp hu
  obtain ⟨hvl, rfl⟩ := List.getElem?_eq_some_iff.mp hv
  have hdisjoint := List.pairwise_iff_getElem.mp (List.nodup_flatMap.mp h.nodup_children).2
  rcases Nat.lt_trichotomy u.toNat v.toNat with hlt | heq | hlt
  · exact (List.disjoint_left.mp (hdisjoint _ _ hul hvl hlt) hx hy).elim
  · exact BitVec.eq_of_toNat_eq heq
  · exact (List.disjoint_left.mp (hdisjoint _ _ hvl hul hlt) hy hx).elim

/-- Every node but the root has a parent (R24(b)). -/
theorem exists_parent (h : TreeWf arena root) {i : Idx} (hi : i.toNat < arena.length) (hroot : i ≠ root) :
    ∃ (u : Idx) (f : Count) (l r : Idx), arena[u.toNat]? = some (.internal f l r) ∧ (i = l ∨ i = r) := by
  have hcount := h.oneParent i hi
  rw [if_neg hroot] at hcount
  obtain ⟨nd, hnd, hic⟩ := List.mem_flatMap.mp (List.one_le_count_iff.mp hcount.ge)
  obtain ⟨n, hn, rfl⟩ := List.getElem_of_mem hnd
  obtain ⟨f, l, r, hnode, hlr⟩ := mem_children.mp hic
  obtain ⟨u, rfl⟩ := h.exists_idx hn
  exact ⟨u, f, l, r, List.getElem?_eq_some_iff.mpr ⟨hn, hnode⟩, hlr⟩

/-! ## Paths from the root -/

/-- Every node is reached from the root: from its parent, which has a greater index (R24(d)). -/
theorem exists_path (h : TreeWf arena root) (m : Idx) (hm : m.toNat < arena.length) :
    ∃ path, follow arena root path = some m := by
  by_cases hroot : m = root
  · exact ⟨[], by rw [hroot, follow_nil]⟩
  · obtain ⟨u, f, l, r, hu, hlr⟩ := h.exists_parent hm hroot
    have hlt : m.toNat < u.toNat := h.child_lt hu (mem_children.mpr ⟨f, l, r, rfl, hlr⟩)
    have hul : u.toNat < arena.length := lt_length_of_node hu
    obtain ⟨path, hpath⟩ := h.exists_path u hul
    rcases hlr with rfl | rfl
    · exact ⟨path ++ [false], follow_concat_eq_some.mpr ⟨u, f, m, r, hpath, hu, rfl⟩⟩
    · exact ⟨path ++ [true], follow_concat_eq_some.mpr ⟨u, f, l, m, hpath, hu, rfl⟩⟩
termination_by arena.length - m.toNat

/-- A path is known by the node it ends at: no node has two parents, and a parent's two children differ. -/
theorem path_unique (h : TreeWf arena root) {m : Idx} {p q : List Bool} (hp : follow arena root p = some m)
    (hq : follow arena root q = some m) : p = q := by
  induction p using List.reverseRecOn generalizing m q with
  | nil =>
    cases q using List.reverseRecOn with
    | nil => rfl
    | append_singleton q b =>
      obtain ⟨v, f, l, r, -, hv, rfl⟩ := follow_concat_eq_some.mp hq
      simp only [follow_nil, Option.some.injEq] at hp
      exact (h.root_not_child (List.mem_of_getElem? hv) (hp ▸ branch_mem_children f l r b)).elim
  | append_singleton p a ih =>
    obtain ⟨u, f, l, r, hpu, hu, rfl⟩ := follow_concat_eq_some.mp hp
    have hchild := branch_mem_children f l r a
    cases q using List.reverseRecOn with
    | nil =>
      simp only [follow_nil, Option.some.injEq] at hq
      exact (h.root_not_child (List.mem_of_getElem? hu) (hq ▸ hchild)).elim
    | append_singleton q b =>
      obtain ⟨v, f', l', r', hqv, hv, hbranch⟩ := follow_concat_eq_some.mp hq
      obtain rfl : u = v := h.parent_unique hu hv hchild (hbranch ▸ branch_mem_children f' l' r' b)
      obtain ⟨rfl, rfl, rfl⟩ : f = f' ∧ l = l' ∧ r = r' := by simpa [hu] using hv
      have hne : l ≠ r := (h.childrenBelow _ f l r hu).2.2
      have hab : a = b := by cases a <;> cases b <;> simp_all
      rw [ih hpu hqv, hab]

/-- A path goes down at least one index with each branch (R24(b)). -/
theorem follow_toNat_add_length_le (h : TreeWf arena root) {n m : Idx} {path : List Bool}
    (hp : follow arena n path = some m) : m.toNat + path.length ≤ n.toNat := by
  induction path generalizing n with
  | nil => simp_all
  | cons b path ih =>
    obtain ⟨f, l, r, hn, hrest⟩ := follow_cons_eq_some.mp hp
    have := ih hrest
    have := h.child_lt hn (branch_mem_children f l r b)
    simp only [List.length_cons]
    omega

/-- A path has fewer branches than the tree has leaves: it leaves Internal nodes only, and those have the indices from L (R109). -/
theorem path_length_lt (h : TreeWf arena root) {m : Idx} {path : List Bool} (hp : follow arena root path = some m) :
    path.length < leafCount arena := by
  have hsize := h.size
  have hlast := h.rootLast
  cases path using List.reverseRecOn with
  | nil => simp only [List.length_nil]; omega
  | append_singleton path b =>
    obtain ⟨u, f, l, r, hu, hnode, -⟩ := follow_concat_eq_some.mp hp
    have hlen := h.follow_toNat_add_length_le hu
    have hinternal : ¬ u.toNat < leafCount arena := fun hlt => by
      simpa [nodeIsInternal] using (h.leavesFirst u.toNat _ hnode).mpr hlt
    simp only [List.length_append, List.length_singleton]
    omega

/-! ## Leaves -/

/-- A symbol has one Leaf only (R24(e)). -/
theorem leaf_unique (h : TreeWf arena root) {m n : Idx} {sym : Byte} {f g : Count} (hm : arena[m.toNat]? = some (.leaf sym f))
    (hn : arena[n.toNat]? = some (.leaf sym g)) : m = n := by
  obtain ⟨hml, hm⟩ := List.getElem?_eq_some_iff.mp hm
  obtain ⟨hnl, hn⟩ := List.getElem?_eq_some_iff.mp hn
  have hascend := List.pairwise_iff_getElem.mp (List.pairwise_filterMap.mp h.symsAscend)
  rcases Nat.lt_trichotomy m.toNat n.toNat with hlt | heq | hlt
  · exact absurd (hascend _ _ hml hnl hlt sym (by simp [hm, leafSym?]) sym (by simp [hn, leafSym?])) (Nat.lt_irrefl _)
  · exact BitVec.eq_of_toNat_eq heq
  · exact absurd (hascend _ _ hnl hml hlt sym (by simp [hn, leafSym?]) sym (by simp [hm, leafSym?])) (Nat.lt_irrefl _)

/-- A symbol has one path only. -/
theorem leafOn_unique (h : TreeWf arena root) {sym : Byte} {p q : List Bool} (hp : leafOn arena root p = some sym)
    (hq : leafOn arena root q = some sym) : p = q := by
  obtain ⟨m, f, hpm, hm⟩ := leafOn_eq_some.mp hp
  obtain ⟨n, g, hqn, hn⟩ := leafOn_eq_some.mp hq
  exact h.path_unique hpm (h.leaf_unique hn hm ▸ hqn)

/-- The symbols that paths lead to are those of the arena's leaves. -/
theorem exists_leafOn_iff (h : TreeWf arena root) {sym : Byte} :
    (∃ path, leafOn arena root path = some sym) ↔ sym ∈ arena.filterMap leafSym? := by
  rw [mem_leafSyms]
  constructor
  · rintro ⟨path, hpath⟩
    obtain ⟨m, f, -, hm⟩ := leafOn_eq_some.mp hpath
    exact ⟨f, List.mem_of_getElem? hm⟩
  · rintro ⟨f, hf⟩
    obtain ⟨n, hn, hnode⟩ := List.getElem_of_mem hf
    obtain ⟨m, rfl⟩ := h.exists_idx hn
    obtain ⟨path, hpath⟩ := h.exists_path m hn
    exact ⟨path, leafOn_eq_some.mpr ⟨m, f, hpath, List.getElem?_eq_some_iff.mpr ⟨hn, hnode⟩⟩⟩

end TreeWf
end Sys2Proof.Safety

namespace Sys2Proof

open Sys2Proof.Machine Sys2Proof.Safety

/-- Settles O37: every node has a path from the root, by induction from the root's index down. -/
theorem everyNodeIsReachable : Obligations.EveryNodeIsReachable := by
  unfold Obligations.EveryNodeIsReachable
  intro arena root h n hn
  obtain ⟨m, rfl⟩ := h.exists_idx hn
  obtain ⟨path, hpath⟩ := h.exists_path m hn
  exact ⟨path, m, hpath, rfl⟩

end Sys2Proof

/-! SUPPORT. The 256 symbols, and sums over them (10_state.md R22, R27). -/

namespace Sys2Proof.Machine

theorem mem_allSymbols (sym : Byte) : sym ∈ allSymbols :=
  List.mem_map.mpr ⟨sym.toNat, List.mem_range.mpr sym.isLt, by simp⟩

theorem allSymbols_ascend : allSymbols.Pairwise fun a b => a.toNat < b.toNat := by
  refine List.pairwise_map.mpr (List.pairwise_lt_range.imp_of_mem fun hi hj hij => ?_)
  rw [List.mem_range] at hi hj
  simpa [Nat.mod_eq_of_lt hi, Nat.mod_eq_of_lt hj] using hij

theorem nodup_allSymbols : allSymbols.Nodup := allSymbols_ascend.imp fun h e => by simp [e] at h

/-- Two functions that differ at one symbol only have sums that differ by what they differ there. -/
theorem sum_allSymbols_update {f g : Byte → Nat} {sym : Byte} (h : ∀ x, x ≠ sym → f x = g x) :
    (allSymbols.map f).sum + g sym = (allSymbols.map g).sum + f sym := by
  have herase : (allSymbols.erase sym).map f = (allSymbols.erase sym).map g :=
    List.map_congr_left fun x hx => h x (nodup_allSymbols.mem_erase_iff.mp hx).1
  have hf := List.sum_map_erase f (mem_allSymbols sym)
  have hg := List.sum_map_erase g (mem_allSymbols sym)
  rw [herase] at hf
  omega

end Sys2Proof.Machine

/-! SUPPORT. The dictionary that GENDICT makes of a well-formed tree (41_code_dict_generator.md R120 to R123): the walk never stops, records
every leaf's path, and each node's subtree gets its share of Kraft's sum. -/

namespace Sys2Proof.Safety

open Sys2Proof.Machine

/-! ## Kraft's sum -/

/-- Kraft's sum of a dictionary in units of 2^−255 (R123), 255 being the greatest code length. -/
def kraftSum (d : Dictionary) : Nat := ((allSymbols.filterMap (dictRead d)).map fun code => 2 ^ (255 - code.length)).sum

/-- What one entry adds to Kraft's sum. -/
def kraftTerm (e : DictEntry) : Nat := e.elim 0 fun code => 2 ^ (255 - code.length)

theorem sum_filterMap_eq_sum_terms (d : Dictionary) (syms : List Byte) :
    ((syms.filterMap (dictRead d)).map fun code => 2 ^ (255 - code.length)).sum =
      (syms.map fun sym => kraftTerm (dictRead d sym)).sum := by
  induction syms with
  | nil => rfl
  | cons sym syms ih => cases h : dictRead d sym <;> simp [h, ih, kraftTerm]

theorem kraftSum_eq_sum_terms (d : Dictionary) : kraftSum d = (allSymbols.map fun sym => kraftTerm (dictRead d sym)).sum :=
  sum_filterMap_eq_sum_terms d allSymbols

@[simp] theorem kraftSum_dictAbsent : kraftSum dictAbsent = 0 := by simp [kraftSum_eq_sum_terms, kraftTerm]

/-- A new entry adds its term. -/
theorem kraftSum_dictWrite {d : Dictionary} {sym : Byte} (code : List Bool) (h : dictRead d sym = none) :
    kraftSum (dictWrite d sym (some code)) = kraftSum d + 2 ^ (255 - code.length) := by
  have hsum := sum_allSymbols_update (sym := sym) (f := fun x => kraftTerm (dictRead (dictWrite d sym (some code)) x))
    (g := fun x => kraftTerm (dictRead d x)) (fun x hx => by simp [hx])
  have hnew : kraftTerm (dictRead (dictWrite d sym (some code)) sym) = 2 ^ (255 - code.length) := by simp [kraftTerm]
  have hold : kraftTerm (dictRead d sym) = 0 := by simp [h, kraftTerm]
  rwa [← kraftSum_eq_sum_terms, ← kraftSum_eq_sum_terms, hnew, hold, Nat.add_zero] at hsum

/-! ## The walk -/

/-- What a walk of the subtree at `n`, whose path is `path`, makes of `d`: the leaves below `n` get their paths, the other entries are kept,
and Kraft's sum grows by the subtree's share. -/
structure Walked (arena : List Node) (n : Idx) (path : List Bool) (d d' : Dictionary) : Prop where
  entries : ∀ sym, (∃ q, leafOn arena n q = some sym ∧ dictRead d' sym = some (path ++ q)) ∨
    ((∀ q, leafOn arena n q ≠ some sym) ∧ dictRead d' sym = dictRead d sym)
  kraft : kraftSum d' = kraftSum d + 2 ^ (255 - path.length)

/-- No leaf below `n` has an entry yet. -/
def Fresh (arena : List Node) (n : Idx) (d : Dictionary) : Prop := ∀ sym q, leafOn arena n q = some sym → dictRead d sym = none

section Walk

variable {arena : List Node} {root : Idx}

theorem walked_leaf {n : Idx} {path : List Bool} {d : Dictionary} {sym : Byte} {f : Count}
    (hn : arena[n.toNat]? = some (.leaf sym f)) (hfresh : Fresh arena n d) :
    Walked arena n path d (dictWrite d sym (some path)) where
  entries x := by
    by_cases hx : x = sym
    · exact .inl ⟨[], by simp [leafOn_leaf_eq_some hn, hx]⟩
    · exact .inr (by simp [leafOn_leaf_eq_some hn, hx])
  kraft := kraftSum_dictWrite path (hfresh sym [] (by simp [leafOn_leaf_eq_some hn]))

/-- The walks of the two children make the walk of their parent. -/
theorem walked_internal {n l r : Idx} {f : Count} {path : List Bool} {d d₁ d₂ : Dictionary} (hlen : path.length < 255)
    (hn : arena[n.toNat]? = some (.internal f l r)) (hl : Walked arena l (path ++ [false]) d d₁)
    (hr : Walked arena r (path ++ [true]) d₁ d₂) : Walked arena n path d d₂ where
  entries sym := by
    rcases hr.entries sym with ⟨q, hq, hd⟩ | ⟨hnoneR, hd⟩
    · exact .inl ⟨true :: q, leafOn_cons_eq_some.mpr ⟨f, l, r, hn, hq⟩, by simp [hd]⟩
    rcases hl.entries sym with ⟨q, hq, hd'⟩ | ⟨hnoneL, hd'⟩
    · exact .inl ⟨false :: q, leafOn_cons_eq_some.mpr ⟨f, l, r, hn, hq⟩, by simp [hd, hd']⟩
    refine .inr ⟨fun q hq => ?_, hd.trans hd'⟩
    cases q with
    | nil => simp [leafOn_eq_some, hn] at hq
    | cons b q =>
      obtain ⟨f', l', r', hn', hq⟩ := leafOn_cons_eq_some.mp hq
      obtain ⟨rfl, rfl, rfl⟩ : f = f' ∧ l = l' ∧ r = r' := by simpa [hn] using hn'
      cases b
      · exact hnoneL q hq
      · exact hnoneR q hq
  kraft := by
    have hdouble : 2 ^ (255 - path.length) = 2 * 2 ^ (255 - (path.length + 1)) := by
      rw [← pow_succ', show 255 - path.length = 255 - (path.length + 1) + 1 by omega]
    rw [hr.kraft, hl.kraft, hdouble]
    simp only [List.length_append, List.length_singleton]
    omega

/-- A symbol below one child of a node is not below the other, so its entry is still absent when that child's walk is done. -/
theorem TreeWf.fresh_after_left (h : TreeWf arena root) {n l r : Idx} {f : Count} {path : List Bool} {d d₁ : Dictionary}
    (hpath : follow arena root path = some n) (hn : arena[n.toNat]? = some (.internal f l r)) (hfresh : Fresh arena n d)
    (hl : Walked arena l (path ++ [false]) d d₁) : Fresh arena r d₁ := by
  intro sym q hq
  have hbelow : ∀ (b : Bool) (p : List Bool), leafOn arena (if b then r else l) p = some sym →
      leafOn arena root (path ++ b :: p) = some sym := fun b p hp => by
    obtain ⟨m, g, hm, hleaf⟩ := leafOn_eq_some.mp hp
    exact leafOn_eq_some.mpr ⟨m, g, by rw [follow_append, hpath]; exact follow_cons_eq_some.mpr ⟨f, l, r, hn, hm⟩, hleaf⟩
  rcases hl.entries sym with ⟨q', hq', -⟩ | ⟨-, hd⟩
  · simpa using h.leafOn_unique (hbelow true q hq) (hbelow false q' hq')
  · exact hd.trans (hfresh sym (true :: q) (leafOn_cons_eq_some.mpr ⟨f, l, r, hn, hq⟩))

/-- The walk of a well-formed tree's node at its own path never stops (R120, R121). -/
theorem TreeWf.walk_ok (h : TreeWf arena root) {depth : Nat} {n : Idx} {path : List Bool} {d : Dictionary}
    (hdepth : n.toNat < depth) (hpath : follow arena root path = some n) (hn : n.toNat < arena.length)
    (hfresh : Fresh arena n d) : ∃ d', walk arena depth n path d = .ok d' ∧ Walked arena n path d d' := by
  induction depth generalizing n path d with
  | zero => omega
  | succ depth ih =>
    match hnode : arena[n.toNat]? with
    | none => simp at hnode; omega
    | some (.leaf sym f) => exact ⟨_, walk_leaf hnode, walked_leaf hnode hfresh⟩
    | some (.internal f l r) =>
      obtain ⟨hl, hr, -⟩ := h.childrenBelow n.toNat f l r hnode
      have hpathL : follow arena root (path ++ [false]) = some l := follow_concat_eq_some.mpr ⟨n, f, l, r, hpath, hnode, rfl⟩
      have hpathR : follow arena root (path ++ [true]) = some r := follow_concat_eq_some.mpr ⟨n, f, l, r, hpath, hnode, rfl⟩
      have hlen : path.length < 255 := by
        have := h.path_length_lt hpathL
        have := h.leaves
        simp only [List.length_append, List.length_singleton] at *
        omega
      obtain ⟨d₁, hwalkL, hL⟩ := ih (by omega) hpathL (by omega)
        fun sym q hq => hfresh sym (false :: q) (leafOn_cons_eq_some.mpr ⟨f, l, r, hnode, hq⟩)
      obtain ⟨d₂, hwalkR, hR⟩ := ih (by omega) hpathR (by omega) (h.fresh_after_left hpath hnode hfresh hL)
      exact ⟨d₂, by rw [walk_internal hnode hwalkL, hwalkR], walked_internal hlen hnode hL hR⟩

/-! ## The dictionary of a tree -/

theorem TreeWf.root_lt (h : TreeWf arena root) : root.toNat < arena.length := by
  have := h.rootLast
  omega

theorem TreeWf.root_cases (h : TreeWf arena root) : (∃ sym f, arena[root.toNat]? = some (.leaf sym f)) ∨
    ∃ f l r, arena[root.toNat]? = some (.internal f l r) := by
  rw [List.getElem?_eq_getElem h.root_lt]
  cases arena[root.toNat]'h.root_lt with
  | leaf sym f => exact .inl ⟨sym, f, rfl⟩
  | internal f l r => exact .inr ⟨f, l, r, rfl⟩

/-- Under a Leaf root a symbol's code is "0" exactly for the Leaf's symbol (R122). -/
theorem isCode_leaf {sym sym' : Byte} {f : Count} {code : List Bool} (hroot : arena[root.toNat]? = some (.leaf sym f)) :
    IsCode arena root sym' code ↔ sym' = sym ∧ code = [false] := by
  simp [IsCode, isInternalAt, hroot, leafOn_leaf_eq_some hroot]

/-- Under an Internal root a symbol's code is its path (R121). -/
theorem isCode_internal {sym : Byte} {f : Count} {l r : Idx} {code : List Bool}
    (hroot : arena[root.toNat]? = some (.internal f l r)) : IsCode arena root sym code ↔ leafOn arena root code = some sym := by
  simp [IsCode, isInternalAt, leafOn, hroot]

/-- GENDICT's dictionary of a well-formed tree: each leaf's code, and Kraft's sum 1, or 1/2 under a Leaf root (R120 to R123). -/
theorem TreeWf.dictOf_ok (h : TreeWf arena root) : ∃ d, dictOf arena root = .ok d ∧
    (∀ sym code, dictRead d sym = some code ↔ IsCode arena root sym code) ∧
    kraftSum d = if isLeafAt arena root then 2 ^ 254 else 2 ^ 255 := by
  rcases h.root_cases with ⟨sym, f, hroot⟩ | ⟨f, l, r, hroot⟩
  · refine ⟨_, dictOf_leaf hroot, fun sym' code => ?_, ?_⟩
    · by_cases hs : sym' = sym <;> simp [isCode_leaf hroot, hs, eq_comm]
    · simp [kraftSum_dictWrite, isLeafAt, hroot]
  · obtain ⟨d, hwalk, hd⟩ := h.walk_ok (depth := arena.length) (d := dictAbsent) h.root_lt (follow_nil arena root) h.root_lt
      fun sym q _ => dictRead_dictAbsent sym
    refine ⟨d, by rw [dictOf_internal hroot, hwalk], fun sym code => ?_, by simpa [isLeafAt, hroot] using hd.kraft⟩
    rw [isCode_internal hroot]
    rcases hd.entries sym with ⟨q, hq, hread⟩ | ⟨hnone, hread⟩
    · rw [hread]
      exact ⟨fun hc => by simpa [← Option.some.inj hc] using hq, fun hc => by simp [h.leafOn_unique hc hq]⟩
    · simp [hread, hnone]

/-- Every symbol of the tree's leaves has a code, and no other symbol. -/
theorem TreeWf.exists_isCode_iff (h : TreeWf arena root) {sym : Byte} :
    (∃ code, IsCode arena root sym code) ↔ sym ∈ arena.filterMap leafSym? := by
  rw [← h.exists_leafOn_iff]
  rcases h.root_cases with ⟨sym', f, hroot⟩ | ⟨f, l, r, hroot⟩
  · simp [isCode_leaf hroot, leafOn_leaf_eq_some hroot]
  · simp [isCode_internal hroot]

/-- No code of one symbol begins another's: the first ends at a Leaf, from which nothing leads on (R123). -/
theorem isCode_prefix_free {a b : Byte} {codeA codeB : List Bool} (hA : IsCode arena root a codeA)
    (hB : IsCode arena root b codeB) (hpre : codeA <+: codeB) : a = b := by
  match hroot : arena[root.toNat]? with
  | none => simp [IsCode, isInternalAt, leafOn, hroot] at hA
  | some (.leaf sym f) => rw [(isCode_leaf hroot).mp hA |>.1, (isCode_leaf hroot).mp hB |>.1]
  | some (.internal f l r) =>
    obtain ⟨m, g, hm, hleafA⟩ := leafOn_eq_some.mp ((isCode_internal hroot).mp hA)
    obtain ⟨n, g', hn, hleafB⟩ := leafOn_eq_some.mp ((isCode_internal hroot).mp hB)
    obtain ⟨rest, rfl⟩ := hpre
    rw [follow_append, hm] at hn
    obtain ⟨-, rfl⟩ := (follow_leaf_eq_some hleafA).mp hn
    simp_all

/-- A code has from 1 to L − 1 bits, or 1 under a Leaf root (R123). -/
theorem TreeWf.isCode_length (h : TreeWf arena root) {sym : Byte} {code : List Bool} (hc : IsCode arena root sym code) :
    1 ≤ code.length ∧ code.length ≤ max 1 (leafCount arena - 1) := by
  rcases h.root_cases with ⟨sym', f, hroot⟩ | ⟨f, l, r, hroot⟩
  · simp [(isCode_leaf hroot).mp hc]
  · obtain ⟨m, g, hm, hleaf⟩ := leafOn_eq_some.mp ((isCode_internal hroot).mp hc)
    have hne : code ≠ [] := by rintro rfl; simp_all
    have := List.length_pos_iff.mpr hne
    have := h.path_length_lt hm
    omega

end Walk
end Sys2Proof.Safety

namespace Sys2Proof

open Sys2Proof.Machine Sys2Proof.Safety

/-- Settles O40: a valid dictionary is the one GENDICT makes of the tree, whose codes are the paths. -/
theorem dictionaryIsAPrefixCode : Obligations.DictionaryIsAPrefixCode := by
  unfold Obligations.DictionaryIsAPrefixCode
  intro s hs hvalid
  have htree := hs.tree (hs.dictNeedsTree hvalid)
  obtain ⟨d, hd, hcodes, hkraft⟩ := htree.dictOf_ok
  obtain rfl : s.dict = d := by simpa [hs.dictCurrent hvalid] using hd
  refine ⟨hs.dictNeedsTree hvalid, fun sym => ?_, hcodes, fun a b codeA codeB hne hA hB hpre => ?_, hkraft,
    fun sym code hc => htree.isCode_length ((hcodes sym code).mp hc)⟩
  · rw [Option.isSome_iff_exists, ← htree.exists_isCode_iff]
    exact exists_congr (hcodes sym)
  · exact hne (isCode_prefix_free ((hcodes a codeA).mp hA) ((hcodes b codeB).mp hB) hpre)

end Sys2Proof

/-! SUPPORT. The sum of the counts, and what FREQ makes of an input (10_state.md R43, 40_tree_builder.md R100). -/

namespace Sys2Proof.Machine

open Sys2Proof.Safety

theorem ftTotal_eq_sum (t : FreqTable) : ftTotal t = (allSymbols.map fun sym => (ftRead t sym).toNat).sum := by
  have hlist : t.toList = allSymbols.map (ftRead t) := by
    apply List.ext_getElem
    · simp [allSymbols]
    · intro i h₁ h₂
      have hi : i < 256 := by simpa using h₁
      simp [allSymbols, ftRead, Nat.mod_eq_of_lt hi]
  rw [ftTotal, hlist, List.map_map]
  rfl

theorem ftRead_le_ftTotal (t : FreqTable) (sym : Byte) : (ftRead t sym).toNat ≤ ftTotal t := by
  rw [ftTotal_eq_sum]
  exact List.le_sum_of_mem (List.mem_map.mpr ⟨sym, mem_allSymbols sym, rfl⟩)

@[simp] theorem ftTotal_ftZero : ftTotal ftZero = 0 := by simp [ftTotal_eq_sum]

/-- One byte adds one to the sum, unless a count wraps. -/
theorem ftTotal_countByte {t : FreqTable} (b : Byte) (h : ftTotal t + 1 < 2 ^ 32) :
    ftTotal (countByte t b) = ftTotal t + 1 := by
  have hsum := sum_allSymbols_update (sym := b) (f := fun x => (ftRead (countByte t b) x).toNat)
    (g := fun x => (ftRead t x).toNat) (fun x hx => by simp [countByte, hx])
  have hle := ftRead_le_ftTotal t b
  have hnew : (ftRead (countByte t b) b).toNat = (ftRead t b).toNat + 1 := by
    simp [countByte, BitVec.toNat_add]; omega
  rw [← ftTotal_eq_sum, ← ftTotal_eq_sum, hnew] at hsum
  omega

/-- FREQ's table sums to the table before it and the input's length (R43). -/
theorem ftTotal_foldl_countByte {t : FreqTable} (input : List Byte) (h : ftTotal t + input.length < 2 ^ 32) :
    ftTotal (input.foldl countByte t) = ftTotal t + input.length := by
  induction input generalizing t with
  | nil => rfl
  | cons b rest ih =>
    rw [List.length_cons] at h
    have hb := ftTotal_countByte b (t := t) (by omega)
    rw [List.foldl_cons, ih (by omega), hb, List.length_cons]
    omega

/-- FREQ counts every symbol's occurrences, modulo the width of a count (R100). -/
theorem ftRead_foldl_countByte (t : FreqTable) (input : List Byte) (sym : Byte) :
    ftRead (input.foldl countByte t) sym = ftRead t sym + BitVec.ofNat 32 (input.count sym) := by
  induction input generalizing t with
  | nil => simp
  | cons b rest ih =>
    rw [List.foldl_cons, ih, List.count_cons]
    by_cases h : b = sym
    · subst h
      simp [countByte, BitVec.ofNat_add, BitVec.add_assoc, BitVec.add_comm 1#32]
    · simp [countByte, h, Ne.symm h]

end Sys2Proof.Machine

namespace Sys2Proof

open Sys2Proof.Machine Sys2Proof.Safety

/-- What FREQ answers when FATAL is 0 (R100). -/
theorem Machine.execFreq_ok {s : State} (h : s.flag .fatal = false) : exec .freq s = .next
    (State.respond { s with ft := s.imem.foldl countByte ftZero, status := putFlag s.status .ftValid true } 0#4 0#32) := by
  simp [exec, execFreq, h, succeed_eq]

/-- FREQ alone writes FT (20_memory.md R60). -/
theorem Machine.ft_eq_of_ne_freq {i : Instr} {s t : State} (h : exec i s = .next t)
    (hclear : i ≠ .clear) (hfreq : i ≠ .freq) : t.ft = s.ft := by
  obtain ⟨r, -, -, hft, -⟩ := spacesHaveTheirWriters i s t hclear h
  exact not_imp_comm.mp hft hfreq

/-- Settles O28: each byte of the input adds one to the sum of the counts, and INPUSH and INCLR do not own FT. -/
theorem freqSumsToTheInputLength : Obligations.FreqSumsToTheInputLength := by
  unfold Obligations.FreqSumsToTheInputLength
  refine ⟨fun s hf hlen => ⟨_, execFreq_ok hf, ?_, fun sym => ?_, fun u b hu => ?_⟩, fun p => ftTotal_ftZero⟩
  · simpa using ftTotal_foldl_countByte (t := ftZero) s.imem (by simpa using hlen)
  · have hcount : s.imem.count sym < 2 ^ 32 := List.count_le_length.trans_lt hlen
    rw [State.respond_ft, ftRead_foldl_countByte, ftRead_ftZero, BitVec.zero_add, BitVec.toNat_ofNat, Nat.mod_eq_of_lt hcount]
  · rcases hu with hu | hu <;> exact ft_eq_of_ne_freq hu nofun nofun

end Sys2Proof

/-! SUPPORT. What BUILD makes (40_tree_builder.md R101 to R110): the forest of the nodes made so far, whose roots NC holds by ascending
frequency, the leaves that seeding puts in it, the merges that make it one tree. -/

namespace Sys2Proof.Machine

open Sys2Proof.Safety

/-! ## The arena under an append -/

section Append

variable {arena : List Node} {n : Idx}

theorem getElem?_concat_eq_some {α : Type} {l : List α} {x y : α} {n : Nat} :
    (l ++ [x])[n]? = some y ↔ l[n]? = some y ∨ (n = l.length ∧ y = x) := by
  rcases Nat.lt_trichotomy n l.length with h | h | h
  · simp [List.getElem?_append_left h, Nat.ne_of_lt h]
  · simp [h, eq_comm]
  · have h₁ : l[n]? = none := List.getElem?_eq_none h.le
    have h₂ : (l ++ [x])[n]? = none := List.getElem?_eq_none (by simpa using h)
    simp [h₁, h₂, Nat.ne_of_gt h]

theorem freqOf_of_node {nd : Node} (h : arena[n.toNat]? = some nd) : freqOf arena n = (nodeFreq nd).toNat := by
  simp [freqOf, h]

theorem freqOf_append_of_lt (nodes : List Node) (h : n.toNat < arena.length) : freqOf (arena ++ nodes) n = freqOf arena n := by
  simp [freqOf, List.getElem?_append_left h]

end Append

/-! ## Sorted insertion -/

/-- In a list sorted by `key`, the entries with a key of at most `k` come first, and there are as many as are counted. -/
theorem exists_split_of_sorted {α : Type} (key : α → Nat) (k : Nat) {l : List α} (h : l.Pairwise fun x y => key x ≤ key y) :
    ∃ before after, l = before ++ after ∧ before.length = l.countP (fun x => decide (key x ≤ k)) ∧
      (∀ x ∈ before, key x ≤ k) ∧ ∀ x ∈ after, k < key x := by
  induction l with
  | nil => exact ⟨[], [], rfl, rfl, by simp, by simp⟩
  | cons x rest ih =>
    obtain ⟨hx, hrest⟩ := List.pairwise_cons.mp h
    by_cases hk : key x ≤ k
    · obtain ⟨before, after, rfl, hlen, hb, ha⟩ := ih hrest
      exact ⟨x :: before, after, rfl, by simp [hk, hlen], by simpa [hk] using hb, ha⟩
    · have hgt : ∀ y ∈ x :: rest, k < key y := by
        intro y hy
        rcases List.mem_cons.mp hy with rfl | hy
        · omega
        · have := hx y hy; omega
      refine ⟨[], x :: rest, rfl, ?_, by simp, hgt⟩
      exact (List.countP_eq_zero.mpr fun y hy => by have := hgt y hy; simp; omega).symm

/-- The insert puts the index between the entries of at most its frequency and those of a greater one (R101). -/
theorem ncInsert_sorted {b : Builder} {n : Idx} (hn : n.toNat < b.arena.length) (hb : ∀ q ∈ b.nc, q.toNat < b.arena.length)
    (hsorted : b.nc.Pairwise fun p q => freqOf b.arena p ≤ freqOf b.arena q) : ∃ before after, b.nc = before ++ after ∧
      ncInsert b n = .ok { b with nc := before ++ n :: after } ∧
      (∀ q ∈ before, freqOf b.arena q ≤ freqOf b.arena n) ∧ (∀ q ∈ after, freqOf b.arena n < freqOf b.arena q) ∧
      (before ++ n :: after).Pairwise fun p q => freqOf b.arena p ≤ freqOf b.arena q := by
  obtain ⟨before, after, hnc, hlen, hbefore, hafter⟩ := exists_split_of_sorted (freqOf b.arena) (freqOf b.arena n) hsorted
  have hnode : b.arena[n.toNat]? = some b.arena[n.toNat] := List.getElem?_eq_getElem hn
  have hcount : (b.nc.countP fun q => (b.arena[q.toNat]?.map fun nd =>
      decide ((nodeFreq nd).toNat ≤ (nodeFreq b.arena[n.toNat]).toNat)).getD false) = before.length := by
    rw [hlen]
    refine List.countP_congr fun q hq => ?_
    simp [freqOf, hnode, List.getElem?_eq_getElem (hb q hq)]
  refine ⟨before, after, hnc, ?_, hbefore, hafter, ?_⟩
  · simp [ncInsert, (nodeAt_ok_iff _ _ _).mpr hnode, ncPosition_ok hb, hcount, bind, Except.bind, pure, Except.pure]
    simp [hnc]
  · rw [hnc, List.pairwise_append] at hsorted
    obtain ⟨hsb, hsa, hcross⟩ := hsorted
    refine List.pairwise_append.mpr ⟨hsb, List.pairwise_cons.mpr ⟨fun q hq => (hafter q hq).le, hsa⟩, fun p hp q hq => ?_⟩
    rcases List.mem_cons.mp hq with rfl | hq
    · exact hbefore p hp
    · exact hcross p hp q hq

/-- Adding a node to a sorted collection never fails while the new index fits its 9 bits: the node is last in ARENA, its index joins the
others, and the collection stays sorted (R101, R109). -/
theorem addNode_sorted {b : Builder} (nd : Node) (hlen : b.arena.length < 2 ^ 9) (hb : ∀ q ∈ b.nc, q.toNat < b.arena.length)
    (hsorted : b.nc.Pairwise fun p q => freqOf b.arena p ≤ freqOf b.arena q) : ∃ nc,
      addNode b nd = .ok ⟨b.arena ++ [nd], nc⟩ ∧ nc.Perm (BitVec.ofNat 9 b.arena.length :: b.nc) ∧
      nc.Pairwise fun p q => freqOf (b.arena ++ [nd]) p ≤ freqOf (b.arena ++ [nd]) q := by
  have hsorted' : b.nc.Pairwise fun p q => freqOf (b.arena ++ [nd]) p ≤ freqOf (b.arena ++ [nd]) q :=
    hsorted.imp_of_mem fun hp hq h => by rwa [freqOf_append_of_lt _ (hb _ hp), freqOf_append_of_lt _ (hb _ hq)]
  obtain ⟨before, after, hnc, hinsert, -, -, hs⟩ := ncInsert_sorted (b := { b with arena := b.arena ++ [nd] })
    (n := BitVec.ofNat 9 b.arena.length) (by simp; omega) (fun q hq => by have := hb q hq; simp; omega) hsorted'
  exact ⟨_, hinsert, by rw [show b.nc = before ++ after from hnc]; exact List.perm_middle, hs⟩

/-! ## The forest -/

/-- The nodes made so far are strict binary trees, and NC holds their roots by ascending frequency (10_state.md R24, R25). -/
structure Forest (arena : List Node) (nc : List Idx) : Prop where
  size : arena.length + nc.length = 2 * leafCount arena
  leaves : leafCount arena ≤ 256
  leavesFirst : ∀ (n : Nat) (nd : Node), arena[n]? = some nd → (nodeIsInternal nd = false ↔ n < leafCount arena)
  childrenBelow : ∀ (n : Nat) (f : Count) (l r : Idx), arena[n]? = some (.internal f l r) → l.toNat < n ∧ r.toNat < n ∧ l ≠ r
  rootsBelow : ∀ q ∈ nc, q.toNat < arena.length
  onePlace : ∀ i : Idx, i.toNat < arena.length → (arena.flatMap children).count i + nc.count i = 1
  symsAscend : (arena.filterMap leafSym?).Pairwise fun a b => a.toNat < b.toNat
  childrenSorted : ∀ (n : Nat) (f : Count) (l r : Idx), arena[n]? = some (.internal f l r) → freqOf arena l ≤ freqOf arena r
  rootsSorted : nc.Pairwise fun p q => freqOf arena p ≤ freqOf arena q

/-- The frequencies are exact: those of the roots add up to `total`, and each Internal's is the sum of its children's (R24(f), R43). -/
structure Exact (arena : List Node) (nc : List Idx) (total : Nat) : Prop where
  roots : (nc.map (freqOf arena)).sum = total
  internals : ∀ (n : Nat) (f : Count) (l r : Idx), arena[n]? = some (.internal f l r) →
    f.toNat = freqOf arena l + freqOf arena r

namespace Forest

variable {arena : List Node} {nc : List Idx}

/-- A new index fits its 9 bits, and NODE_CNT stays within NODE_MAX, while a merge is to be done (R110). -/
theorem length_lt (h : Forest arena nc) (hnc : 2 ≤ nc.length) : arena.length < 511 := by
  have := h.size
  have := h.leaves
  omega

theorem child_lt (h : Forest arena nc) {i : Idx} (hi : i ∈ arena.flatMap children) : i.toNat + 1 < arena.length := by
  obtain ⟨nd, hnd, hic⟩ := List.mem_flatMap.mp hi
  obtain ⟨n, hn, rfl⟩ := List.getElem_of_mem hnd
  obtain ⟨f, l, r, hnode, hlr⟩ := mem_children.mp hic
  obtain ⟨hl, hr, -⟩ := h.childrenBelow n f l r (List.getElem?_eq_some_iff.mpr ⟨hn, hnode⟩)
  rcases hlr with rfl | rfl <;> omega

/-- The two heads differ: an index stands once in the collection. -/
theorem heads_ne {a c : Idx} {rest : List Idx} (h : Forest arena (a :: c :: rest)) : a ≠ c := by
  rintro rfl
  have := h.onePlace a (h.rootsBelow a (by simp))
  simp only [List.count_cons_self] at this
  omega

/-- Once the two heads are the children of a new root, every index still has one place: the heads' moves from the collection to the
children, the others keep theirs, and the new one's is in the collection. -/
theorem onePlace_merge {a c : Idx} {rest nc' : List Idx} (f : Count) (h : Forest arena (a :: c :: rest))
    (hperm : nc'.Perm (BitVec.ofNat 9 arena.length :: rest)) {i : Idx} (hi : i.toNat < arena.length + 1) :
    ((arena ++ [Node.internal f a c]).flatMap children).count i + nc'.count i = 1 := by
  have hlt : arena.length < 511 := h.length_lt (by simp)
  have hnew : (BitVec.ofNat 9 arena.length).toNat = arena.length := by simp; omega
  rw [hperm.count_eq, List.flatMap_append, List.count_append, List.flatMap_singleton, children]
  by_cases hil : i.toNat < arena.length
  · have hne : BitVec.ofNat 9 arena.length ≠ i := fun e => by rw [← e] at hil; omega
    have := h.onePlace i hil
    simp only [List.count_cons, List.count_nil, beq_iff_eq, hne, if_false] at *
    omega
  · obtain rfl : BitVec.ofNat 9 arena.length = i := BitVec.eq_of_toNat_eq (by omega)
    have hold : BitVec.ofNat 9 arena.length ∉ arena.flatMap children := fun hmem => by
      have := h.child_lt hmem; omega
    have hroots : BitVec.ofNat 9 arena.length ∉ a :: c :: rest := fun hmem => by
      have := h.rootsBelow _ hmem; omega
    simp only [List.mem_cons, not_or] at hroots
    obtain ⟨hna, hnc, hrest⟩ := hroots
    rw [List.count_eq_zero.mpr hold, List.count_eq_zero.mpr (by simp [hna, hnc]), List.count_cons_self,
      List.count_eq_zero.mpr hrest]

/-- Making the two heads the children of a new last node keeps the forest (R103, R106). -/
theorem merge {a c : Idx} {rest nc' : List Idx} (f : Count) (h : Forest arena (a :: c :: rest))
    (hperm : nc'.Perm (BitVec.ofNat 9 arena.length :: rest))
    (hsorted : nc'.Pairwise fun p q => freqOf (arena ++ [.internal f a c]) p ≤ freqOf (arena ++ [.internal f a c]) q) :
    Forest (arena ++ [.internal f a c]) nc' := by
  have hlt : arena.length < 511 := h.length_lt (by simp)
  have hnew : (BitVec.ofNat 9 arena.length).toNat = arena.length := by simp; omega
  have hcount : leafCount (arena ++ [.internal f a c]) = leafCount arena := by
    simp [leafCount, List.countP_append, nodeIsInternal]
  have hal : a.toNat < arena.length := h.rootsBelow a (by simp)
  have hcl : c.toNat < arena.length := h.rootsBelow c (by simp)
  obtain ⟨hahead, -⟩ := List.pairwise_cons.mp h.rootsSorted
  exact {
    size := by
      have := h.size
      have := hperm.length_eq
      simp only [List.length_append, List.length_cons, List.length_nil] at *
      omega
    leaves := hcount ▸ h.leaves
    leavesFirst := fun n nd hn => by
      rw [hcount]
      rcases getElem?_concat_eq_some.mp hn with hn | ⟨rfl, rfl⟩
      · exact h.leavesFirst n nd hn
      · simpa [nodeIsInternal, leafCount] using List.countP_le_length
    childrenBelow := fun n f' l r hn => by
      rcases getElem?_concat_eq_some.mp hn with hn | ⟨rfl, hnode⟩
      · exact h.childrenBelow n f' l r hn
      · obtain ⟨-, rfl, rfl⟩ := Node.internal.inj hnode
        exact ⟨hal, hcl, h.heads_ne⟩
    rootsBelow := fun q hq => by
      rw [List.length_append, List.length_singleton]
      rcases List.mem_cons.mp (hperm.mem_iff.mp hq) with rfl | hq
      · omega
      · have := h.rootsBelow q (by simp [hq]); omega
    onePlace := fun i hi => h.onePlace_merge f hperm (by simpa using hi)
    symsAscend := by
      rw [List.filterMap_append, List.filterMap_cons_none rfl, List.filterMap_nil, List.append_nil]
      exact h.symsAscend
    childrenSorted := fun n f' l r hn => by
      rcases getElem?_concat_eq_some.mp hn with hn | ⟨rfl, hnode⟩
      · obtain ⟨hl, hr, -⟩ := h.childrenBelow n f' l r hn
        have := (List.getElem?_eq_some_iff.mp hn).1
        rw [freqOf_append_of_lt _ (by omega), freqOf_append_of_lt _ (by omega)]
        exact h.childrenSorted n f' l r hn
      · obtain ⟨-, rfl, rfl⟩ := Node.internal.inj hnode
        rw [freqOf_append_of_lt _ hal, freqOf_append_of_lt _ hcl]
        exact hahead _ (by simp)
    rootsSorted := hsorted }

/-- A merge keeps the frequencies exact while their sum fits its 32 bits (R106). -/
theorem exact_merge {a c : Idx} {rest nc' : List Idx} {x y : Node} {total : Nat} (h : Forest arena (a :: c :: rest))
    (he : Exact arena (a :: c :: rest) total) (htotal : total < 2 ^ 32) (hx : arena[a.toNat]? = some x)
    (hy : arena[c.toNat]? = some y) (hperm : nc'.Perm (BitVec.ofNat 9 arena.length :: rest)) :
    Exact (arena ++ [.internal (nodeFreq x + nodeFreq y) a c]) nc' total := by
  have hlt : arena.length < 511 := h.length_lt (by simp)
  have hroots := he.roots
  simp only [List.map_cons, List.sum_cons, freqOf_of_node hx, freqOf_of_node hy] at hroots
  have hsum : (nodeFreq x + nodeFreq y).toNat = (nodeFreq x).toNat + (nodeFreq y).toNat := by
    rw [BitVec.toNat_add, Nat.mod_eq_of_lt (by omega)]
  have hrest : rest.map (freqOf (arena ++ [.internal (nodeFreq x + nodeFreq y) a c])) = rest.map (freqOf arena) :=
    List.map_congr_left fun q hq => freqOf_append_of_lt _ (h.rootsBelow q (by simp [hq]))
  have hnew : freqOf (arena ++ [.internal (nodeFreq x + nodeFreq y) a c]) (BitVec.ofNat 9 arena.length) =
      (nodeFreq x).toNat + (nodeFreq y).toNat := by
    rw [← hsum]
    refine freqOf_of_node (getElem?_concat_eq_some.mpr (.inr ⟨?_, rfl⟩))
    simp; omega
  refine ⟨?_, fun n f l r hn => ?_⟩
  · rw [(hperm.map _).sum_eq, List.map_cons, List.sum_cons, hrest, hnew]
    omega
  · rcases getElem?_concat_eq_some.mp hn with hn | ⟨rfl, hnode⟩
    · obtain ⟨hl, hr, -⟩ := h.childrenBelow n f l r hn
      have := (List.getElem?_eq_some_iff.mp hn).1
      rw [freqOf_append_of_lt _ (by omega), freqOf_append_of_lt _ (by omega)]
      exact he.internals n f l r hn
    · obtain ⟨rfl, rfl, rfl⟩ := Node.internal.inj hnode
      rw [freqOf_append_of_lt _ (lt_length_of_node hx), freqOf_append_of_lt _ (lt_length_of_node hy), freqOf_of_node hx,
        freqOf_of_node hy, hsum]

/-- A forest of one tree is a tree, and its root the last node: no other index below NODE_CNT is free of a parent (R109). -/
theorem treeWf {root : Idx} {total : Nat} (h : Forest arena [root]) (he : Exact arena [root] total) : TreeWf arena root where
  size := h.size
  leaves := h.leaves
  rootLast := by
    have hsize := h.size
    have hleaves := h.leaves
    rw [List.length_singleton] at hsize
    have hlast : (BitVec.ofNat 9 (arena.length - 1)).toNat = arena.length - 1 := by simp; omega
    have hplace := h.onePlace (BitVec.ofNat 9 (arena.length - 1)) (by omega)
    have hfree : BitVec.ofNat 9 (arena.length - 1) ∉ arena.flatMap children := fun hmem => by
      have := h.child_lt hmem
      omega
    rw [List.count_eq_zero.mpr hfree, Nat.zero_add] at hplace
    have hroot := List.mem_singleton.mp (List.one_le_count_iff.mp hplace.ge)
    rw [← hroot, hlast]
    omega
  leavesFirst := h.leavesFirst
  childrenBelow := h.childrenBelow
  oneParent i hi := by
    have hplace := h.onePlace i hi
    by_cases hroot : i = root
    · simpa [hroot] using hplace
    · simpa [hroot, List.count_singleton, Ne.symm hroot] using hplace
  symsAscend := h.symsAscend
  freqSum n f l r nl nr hn hl hr := by
    rw [← freqOf_of_node hl, ← freqOf_of_node hr]
    exact ⟨he.internals n f l r hn, h.childrenSorted n f l r hn⟩

end Forest

/-! ## The merges -/

/-- A merge of a forest with two roots never fails, keeps the forest, and keeps exact frequencies exact. -/
theorem mergeStep_ok {b : Builder} (h : Forest b.arena b.nc) (hnc : 2 ≤ b.nc.length) : ∃ b', mergeStep b = .ok b' ∧
    Forest b'.arena b'.nc ∧ ∀ total < 2 ^ 32, Exact b.arena b.nc total → Exact b'.arena b'.nc total := by
  obtain ⟨arena, nc⟩ := b
  match nc, hnc with
  | a :: c :: rest, _ =>
    have hx : arena[a.toNat]? = some _ := List.getElem?_eq_getElem (h.rootsBelow a (by simp))
    have hy : arena[c.toNat]? = some _ := List.getElem?_eq_getElem (h.rootsBelow c (by simp))
    have hlt : arena.length < 511 := h.length_lt (by simp)
    obtain ⟨nc', hadd, hperm, hsorted⟩ := addNode_sorted (b := ⟨arena, rest⟩)
      (.internal (nodeFreq _ + nodeFreq _) a c) (by simp; omega)
      (fun q hq => h.rootsBelow q (by simp [hq])) (List.pairwise_cons.mp (List.pairwise_cons.mp h.rootsSorted).2).2
    refine ⟨⟨_, nc'⟩, ?_, h.merge _ hperm hsorted, fun total htotal he => h.exact_merge he htotal hx hy hperm⟩
    simp [mergeStep, ncRemoveMin, (nodeAt_ok_iff _ _ _).mpr hx, (nodeAt_ok_iff _ _ _).mpr hy, hadd, bind, Except.bind]

/-- The merge loop with rounds enough makes a forest that is not empty into one tree (R103, R104 step 2, R245). -/
theorem mergeAll_ok {k : Nat} {b : Builder} (h : Forest b.arena b.nc) (hne : b.nc ≠ []) (hk : b.nc.length ≤ k + 1) :
    ∃ arena root, mergeAll k b = .ok ⟨arena, [root]⟩ ∧ Forest arena [root] ∧
      ∀ total < 2 ^ 32, Exact b.arena b.nc total → Exact arena [root] total := by
  by_cases hlen : b.nc.length ≤ 1
  · obtain ⟨arena, nc⟩ := b
    obtain ⟨root, rfl⟩ := List.length_eq_one_iff.mp (Nat.le_antisymm hlen (List.length_pos_iff.mpr hne))
    exact ⟨arena, root, mergeAll_stop le_rfl, h, fun total _ he => he⟩
  · obtain ⟨b', hstep, hforest, hexact⟩ := mergeStep_ok h (by omega)
    have hdown := mergeStep_length hstep
    match k with
    | 0 => omega
    | k + 1 =>
      obtain ⟨arena, root, hall, hf, he⟩ := mergeAll_ok (k := k) hforest (List.length_pos_iff.mp (by omega)) (by omega)
      exact ⟨arena, root, by rw [mergeAll_step (by omega) hstep, hall], hf, fun total ht h₀ => he total ht (hexact total ht h₀)⟩

/-! ## The seeding -/

/-- What the seeding has made once the symbols `done` are scanned: their leaves in order, their indices sorted in NC (R104 step 1, R105). -/
structure Seeded (t : FreqTable) (done : List Byte) (b : Builder) : Prop where
  arena : b.arena = (done.filter fun sym => decide (0 < (ftRead t sym).toNat)).map fun sym => .leaf sym (ftRead t sym)
  roots : b.nc.Perm ((List.range b.arena.length).map (BitVec.ofNat 9))
  rootsSorted : b.nc.Pairwise fun p q => freqOf b.arena p ≤ freqOf b.arena q
  total : (b.nc.map (freqOf b.arena)).sum = (done.map fun sym => (ftRead t sym).toNat).sum

theorem Seeded.root_lt {t : FreqTable} {done : List Byte} {b : Builder} (h : Seeded t done b) {q : Idx} (hq : q ∈ b.nc) :
    q.toNat < b.arena.length := by
  obtain ⟨i, hi, rfl⟩ := List.mem_map.mp (h.roots.mem_iff.mp hq)
  exact (Nat.mod_le _ _).trans_lt (List.mem_range.mp hi)

theorem Seeded.length_le {t : FreqTable} {done : List Byte} {b : Builder} (h : Seeded t done b) :
    b.arena.length ≤ done.length := by
  rw [h.arena, List.length_map]
  exact List.length_filter_le _ _

/-- The scan of one symbol never fails while the new index fits its 9 bits. -/
theorem seedSymbol_ok {t : FreqTable} {done : List Byte} {b : Builder} (sym : Byte) (h : Seeded t done b)
    (hlen : done.length < 512) : ∃ b', seedSymbol t b sym = .ok b' ∧ Seeded t (done ++ [sym]) b' := by
  by_cases hpos : 0 < (ftRead t sym).toNat
  · have hb := h.length_le
    obtain ⟨nc, hadd, hperm, hsorted⟩ := addNode_sorted (.leaf sym (ftRead t sym)) (by omega) (fun q => h.root_lt) h.rootsSorted
    refine ⟨_, by rw [seedSymbol, if_pos hpos, hadd], ?_, ?_, hsorted, ?_⟩
    · simp [h.arena, hpos, List.filter_append]
    · refine hperm.trans ?_
      rw [List.length_append, List.length_singleton, List.range_succ, List.map_append, List.map_singleton]
      exact (h.roots.cons _).trans (List.perm_append_singleton _ _).symm
    · have hold : b.nc.map (freqOf (b.arena ++ [.leaf sym (ftRead t sym)])) = b.nc.map (freqOf b.arena) :=
        List.map_congr_left fun q hq => freqOf_append_of_lt _ (h.root_lt hq)
      have hnew : freqOf (b.arena ++ [.leaf sym (ftRead t sym)]) (BitVec.ofNat 9 b.arena.length) = (ftRead t sym).toNat := by
        refine freqOf_of_node (nd := .leaf sym (ftRead t sym)) (getElem?_concat_eq_some.mpr (.inr ⟨?_, rfl⟩))
        simp; omega
      rw [(hperm.map _).sum_eq, List.map_cons, List.sum_cons, hold, hnew, h.total, List.map_append, List.sum_append]
      simp [Nat.add_comm]
  · refine ⟨b, by rw [seedSymbol, if_neg hpos], ?_, h.roots, h.rootsSorted, ?_⟩
    · simp [h.arena, hpos, List.filter_append]
    · have : (ftRead t sym).toNat = 0 := by omega
      simp [h.total, this]

theorem seedSymbols_ok {t : FreqTable} {done rest : List Byte} {b : Builder} (h : Seeded t done b)
    (hlen : (done ++ rest).length ≤ 512) : ∃ b', rest.foldlM (seedSymbol t) b = .ok b' ∧ Seeded t (done ++ rest) b' := by
  induction rest generalizing done b with
  | nil => exact ⟨b, rfl, by rwa [List.append_nil]⟩
  | cons sym rest ih =>
    obtain ⟨b', hsym, hb'⟩ := seedSymbol_ok sym h (by simp at hlen; omega)
    obtain ⟨b'', hrest, hb''⟩ := ih hb' (by simpa using hlen)
    exact ⟨b'', by simp [List.foldlM_cons, hsym, hrest, bind, Except.bind], by simpa using hb''⟩

/-- Seeding never fails (R104 step 1). -/
theorem seed_ok (t : FreqTable) : ∃ b, seed t = .ok b ∧ Seeded t allSymbols b :=
  seedSymbols_ok (done := []) ⟨rfl, .refl _, .nil, rfl⟩ (by simp [allSymbols])

/-- Numbers that fit 9 bits are different indices. -/
theorem nodup_indices {n : Nat} (hn : n ≤ 2 ^ 9) : ((List.range n).map (BitVec.ofNat 9)).Nodup := by
  refine List.Nodup.map_on (fun i hi j hj hij => ?_) List.nodup_range
  rw [List.mem_range] at hi hj
  have := congrArg BitVec.toNat hij
  simpa [Nat.mod_eq_of_lt (show i < 512 by omega), Nat.mod_eq_of_lt (show j < 512 by omega)] using this

/-- Leaves alone, each its own root, are a forest. -/
theorem Seeded.forest {t : FreqTable} {b : Builder} (h : Seeded t allSymbols b) : Forest b.arena b.nc := by
  have hleaf : ∀ nd ∈ b.arena, nodeIsInternal nd = false := fun nd hnd => by
    rw [h.arena] at hnd
    obtain ⟨sym, -, rfl⟩ := List.mem_map.mp hnd
    rfl
  have hinternal : ∀ (n : Nat) (f : Count) (l r : Idx), b.arena[n]? ≠ some (.internal f l r) := fun n f l r hn => by
    simpa [nodeIsInternal] using hleaf _ (List.mem_of_getElem? hn)
  have hcount : leafCount b.arena = b.arena.length := List.countP_eq_length.mpr fun nd hnd => by simp [hleaf nd hnd]
  have hlen : b.arena.length ≤ 256 := h.length_le.trans (by simp [allSymbols])
  exact {
    size := by rw [hcount, h.roots.length_eq]; simp; omega
    leaves := hcount ▸ hlen
    leavesFirst := fun n nd hn => by
      simp [hleaf nd (List.mem_of_getElem? hn), hcount, (List.getElem?_eq_some_iff.mp hn).1]
    childrenBelow := fun n f l r hn => absurd hn (hinternal n f l r)
    rootsBelow := fun q => h.root_lt
    onePlace := fun i hi => by
      have hchild : i ∉ b.arena.flatMap children := fun hmem => by
        obtain ⟨nd, hnd, hic⟩ := List.mem_flatMap.mp hmem
        obtain ⟨f, l, r, rfl, -⟩ := mem_children.mp hic
        simpa [nodeIsInternal] using hleaf _ hnd
      rw [List.count_eq_zero.mpr hchild, h.roots.count_eq, Nat.zero_add]
      exact List.count_eq_one_of_mem (nodup_indices (by omega)) (List.mem_map.mpr ⟨i.toNat, List.mem_range.mpr hi, by simp⟩)
    symsAscend := by
      have hsyms : b.arena.filterMap leafSym? = allSymbols.filter fun sym => decide (0 < (ftRead t sym).toNat) := by
        rw [h.arena, List.filterMap_map]
        exact List.filterMap_some
      rw [hsyms]
      exact allSymbols_ascend.filter _
    childrenSorted := fun n f l r hn => absurd hn (hinternal n f l r)
    rootsSorted := h.rootsSorted }

theorem Seeded.exact {t : FreqTable} {b : Builder} (h : Seeded t allSymbols b) : Exact b.arena b.nc (ftTotal t) where
  roots := h.total.trans (ftTotal_eq_sum t).symm
  internals n f l r hn := by
    have := List.mem_of_getElem? hn
    rw [h.arena] at this
    simp at this

/-! ## BUILD -/

/-- What BUILD makes of a table with a count: one tree, whose root is the whole collection and carries the sum of the counts, as long as
that fits 32 bits (R104, R107, R109). -/
structure Built (t : FreqTable) (b : Builder) (root : Idx) (nd : Node) : Prop where
  nc : b.nc = [root]
  node : b.arena[root.toNat]? = some nd
  forest : Forest b.arena [root]
  exact : ftTotal t < 2 ^ 32 → Exact b.arena [root] (ftTotal t)

/-- BUILD's helper raises EMPTY when no symbol is present, else it answers one tree; it never faults (R104, R108). -/
theorem buildTree_cases (t : FreqTable) : buildTree t = .error (.raised .empty 0) ∨
    ∃ b root nd, buildTree t = .ok (b, root, nd) ∧ Built t b root nd := by
  obtain ⟨b, hseed, hb⟩ := seed_ok t
  by_cases hempty : b.nc = []
  · exact .inl (by simp [buildTree, hseed, hempty, bind, Except.bind])
  · obtain ⟨arena, root, hall, hforest, hexact⟩ := mergeAll_ok hb.forest hempty (Nat.le_succ b.nc.length)
    have hnode := List.getElem?_eq_getElem (hforest.rootsBelow root (by simp))
    refine .inr ⟨⟨arena, [root]⟩, root, _, ?_, rfl, hnode, hforest, fun ht => hexact _ ht hb.exact⟩
    simp [buildTree, hseed, hempty, hall, ncHead, (nodeAt_ok_iff _ _ _).mpr hnode, bind, Except.bind, pure, Except.pure]

theorem built_of_buildTree {t : FreqTable} {b : Builder} {root : Idx} {nd : Node} (h : buildTree t = .ok (b, root, nd)) :
    Built t b root nd := by
  rcases buildTree_cases t with he | ⟨b', root', nd', ho, hb⟩
  · simp [he] at h
  · obtain ⟨rfl, rfl, rfl⟩ : b' = b ∧ root' = root ∧ nd' = nd := by simpa [ho] using h
    exact hb

theorem Built.treeWf {t : FreqTable} {b : Builder} {root : Idx} {nd : Node} (h : Built t b root nd)
    (ht : ftTotal t < 2 ^ 32) : TreeWf b.arena root :=
  h.forest.treeWf (h.exact ht)

theorem Built.isLeafAt {t : FreqTable} {b : Builder} {root : Idx} {nd : Node} (h : Built t b root nd) :
    Safety.isLeafAt b.arena root = !nodeIsInternal nd := by
  rw [Safety.isLeafAt, h.node]
  cases nd <;> rfl

end Sys2Proof.Machine

/-! SUPPORT. Which errors the helper of a command can raise (60_exceptions.md R200, R206). -/

namespace Sys2Proof.Machine

open Sys2Proof.Safety

/-- A helper that ends with an error of the spec ends with one of these kinds. -/
def RaisesOnly {α : Type} (kinds : List ErrKind) (x : Except Stop α) : Prop :=
  ∀ k info, x = .error (.raised k info) → k ∈ kinds

section RaisesOnly

variable {α β : Type} {kinds : List ErrKind}

theorem raisesOnly_ok (a : α) : RaisesOnly kinds (.ok a) := nofun

theorem raisesOnly_fault (f : Fault) : RaisesOnly kinds (.error (.fault f) : Except Stop α) := nofun

theorem raisesOnly_raised {k : ErrKind} (info : Nat) (h : k ∈ kinds) :
    RaisesOnly kinds (.error (.raised k info) : Except Stop α) := by
  rintro k' info' ⟨⟩
  exact h

theorem RaisesOnly.bind {x : Except Stop α} {f : α → Except Stop β} (hx : RaisesOnly kinds x)
    (hf : ∀ a, RaisesOnly kinds (f a)) : RaisesOnly kinds (x >>= f) := by
  cases x with
  | ok a => exact hf a
  | error e => rintro k info ⟨⟩; exact hx k info rfl

theorem raisesOnly_nodeAt (arena : List Node) (n : Idx) : RaisesOnly kinds (nodeAt arena n) := fun _ _ h =>
  nomatch (nodeAt_error h).1

theorem raisesOnly_walk (arena : List Node) (depth : Nat) (n : Idx) (path : List Bool) (d : Dictionary) :
    RaisesOnly kinds (walk arena depth n path d) := by
  induction depth generalizing n path d with
  | zero => exact raisesOnly_fault _
  | succ depth ih =>
    refine (raisesOnly_nodeAt arena n).bind fun nd => ?_
    cases nd with
    | leaf sym f => exact raisesOnly_ok _
    | internal f l r => exact (ih _ _ _).bind fun d => ih _ _ _

theorem raisesOnly_dictOf (arena : List Node) (root : Idx) : RaisesOnly kinds (dictOf arena root) := by
  refine (raisesOnly_nodeAt arena root).bind fun nd => ?_
  cases nd with
  | leaf sym f => exact raisesOnly_ok _
  | internal f l r => exact raisesOnly_walk _ _ _ _ _

theorem raisesOnly_buildTree (t : FreqTable) : RaisesOnly [.empty] (buildTree t) := by
  rcases buildTree_cases t with h | ⟨b, root, nd, h, -⟩ <;> rw [h]
  · exact raisesOnly_raised 0 (by simp)
  · exact raisesOnly_ok _

theorem raisesOnly_encodeBits (d : Dictionary) (input : List Byte) (pkMax : Nat) :
    RaisesOnly [.noCode, .alloc] (encodeBits d input pkMax) := by
  rcases encodeBits_cases d input pkMax with ⟨b, i, -, h⟩ | ⟨-, -, h⟩ | ⟨-, -, h⟩ <;> rw [h]
  · exact raisesOnly_raised _ (by simp)
  · exact raisesOnly_ok _
  · exact raisesOnly_raised _ (by simp)

theorem raisesOnly_readBits (m : List Byte) (k n : Nat) : RaisesOnly kinds (readBits m k n) := by
  induction n generalizing k with
  | zero => exact raisesOnly_ok _
  | succ n ih =>
    rw [readBits]
    cases pbit m k with
    | none => exact raisesOnly_fault _
    | some b => exact (ih _).bind fun rest => raisesOnly_ok _

theorem raisesOnly_walkBits (arena : List Node) (root cur : Idx) (bits : List Bool) :
    RaisesOnly kinds (walkBits arena root cur bits) := by
  induction bits generalizing cur with
  | nil => exact raisesOnly_ok _
  | cons bit rest ih =>
    refine (raisesOnly_nodeAt arena cur).bind fun nd => (raisesOnly_nodeAt arena _).bind fun next => ?_
    cases next with
    | leaf sym f => exact (ih _).bind fun out => raisesOnly_ok _
    | internal f l r => exact ih _

theorem raisesOnly_decodeSymbols (arena : List Node) (root : Idx) (bits : List Bool) :
    RaisesOnly [.badBit, .alloc] (decodeSymbols arena root bits) := by
  refine (raisesOnly_nodeAt arena root).bind fun nd => ?_
  cases nd with
  | leaf sym f =>
    rcases leafBits_cases sym bits with ⟨-, h⟩ | ⟨k, -, h⟩ <;> simp only [h]
    · exact raisesOnly_ok _
    · exact raisesOnly_raised k (by simp)
  | internal f l r => exact raisesOnly_walkBits _ _ _ _

theorem raisesOnly_decodeBits (s : State) (n : Nat) : RaisesOnly [.badBit, .alloc] (decodeBits s n) := by
  refine (raisesOnly_readBits _ _ _).bind fun bits => (raisesOnly_decodeSymbols _ _ _).bind fun spelled => ?_
  rcases fitOutput_cases s.capOut.toNat spelled with ⟨-, h⟩ | ⟨-, h⟩ <;> rw [h]
  · exact raisesOnly_ok _
  · exact raisesOnly_raised _ (by simp)

end RaisesOnly

/-- The errors by which a command's helper stops: EMPTY in BUILD, NOCODE and ALLOC in ENCODE, BADBIT and ALLOC in the decodes. -/
theorem Stops.kind {s u : State} {i : Instr} {k : ErrKind} {info : Nat} (h : Stops s i (.raised k info) u) :
    (i = .build ∧ k = .empty) ∨ (i = .encode ∧ (k = .noCode ∨ k = .alloc)) ∨ (IsDecode i ∧ (k = .badBit ∨ k = .alloc)) := by
  cases h with
  | build h => exact .inl ⟨rfl, by simpa using raisesOnly_buildTree _ _ _ h⟩
  | gendict h => exact nomatch raisesOnly_dictOf (kinds := []) _ _ _ _ h
  | encode h => exact .inr (.inl ⟨rfl, by simpa using raisesOnly_encodeBits _ _ _ _ _ h⟩)
  | decode hn h => exact .inr (.inr ⟨isDecode_of_bitsConsumed hn, by simpa using raisesOnly_decodeBits _ _ _ _ h⟩)

end Sys2Proof.Machine

/-! SUPPORT. The invariant in parts, each over the fields it speaks of, so that a command keeps every part whose fields it does not write; the
parts that hold after reset, and those that each command makes anew. -/

namespace Sys2Proof.Safety

open Sys2Proof.Machine

/-! ## The parts -/

/-- The capacities are those R6 allows (00_scope.md). -/
structure CapsOk (capIn capPk capOut : BitVec 32) : Prop where
  capIn : 1 ≤ capIn.toNat ∧ capIn.toNat ≤ 2 ^ 24 - 1
  capPk : 1 ≤ capPk.toNat ∧ capPk.toNat ≤ 2 ^ 21 - 1
  capOut : 1 ≤ capOut.toNat ∧ capOut.toNat ≤ 2 ^ 24 - 1

/-- The packed form: PMEM, BIT_LEN and ENC_VALID (10_state.md R29). -/
structure PackedOk (pmem : List Byte) (bitLen : BitVec 24) (capPk : BitVec 32) (encValid : Bool) : Prop where
  fits : pmem.length ≤ capPk.toNat
  pkLen : pmem.length = bytesFor bitLen.toNat
  padding : encValid = true → ∀ k, bitLen.toNat ≤ k → k < 8 * pmem.length → pbit pmem k = some false

/-- FT and FT_VALID (R22, R42, R43). -/
structure TableOk (ft : FreqTable) (capIn : BitVec 32) (ftValid : Bool) : Prop where
  bound : ftTotal ft ≤ capIn.toNat
  unset : ftValid = false → ft = ftZero

/-- ARENA, NC, ROOT, TREE_VALID and LEAFROOT (R24, R25, R26, R33). -/
structure TreeOk (arena : List Node) (nc : List Idx) (root : Idx) (treeValid leafRoot : Bool) : Prop where
  leafRootNeedsTree : leafRoot = true → treeValid = true
  rootNil : treeValid = true ↔ root ≠ Config.nilIdx
  noTree : treeValid = false → arena = [] ∧ nc = []
  tree : treeValid = true → TreeWf arena root
  ncRoot : treeValid = true → nc = [root]
  leafRoot : treeValid = true → leafRoot = isLeafAt arena root

/-- DICT and DICT_VALID, against the tree (R27, R28, R33). -/
structure DictOk (dict : Dictionary) (arena : List Node) (root : Idx) (treeValid dictValid : Bool) : Prop where
  needsTree : dictValid = true → treeValid = true
  codeLength : ∀ sym code, dictRead dict sym = some code → 1 ≤ code.length ∧ code.length ≤ Config.codeMax
  current : dictValid = true → dictOf arena root = .ok dict

/-- OMEM, DEC_VALID and MIDTREE (R31, R33). -/
structure OutputOk (omem : List Byte) (capOut : BitVec 32) (decValid midTree : Bool) : Prop where
  fits : omem.length ≤ capOut.toNat
  midTreeNeedsDec : midTree = true → decValid = true
  unset : decValid = false → omem = []

/-- The error record and FATAL (R34, R35, 60_exceptions.md R207). -/
structure ErrorOk (err : BitVec 11) (lastErr : BitVec 16) (fatal : Bool) : Prop where
  reserved : err.getLsbD 0 = false ∧ err.getLsbD 3 = false ∧ err.getLsbD 4 = false
  lastReserved : lastErr.extractLsb' 4 4 = 0#4
  fatalRecorded : fatal = (err.getLsbD 1 || err.getLsbD 2)

/-- The invariant is its parts. -/
theorem inv_iff {s : State} : Inv s ↔ CapsOk s.capIn s.capPk s.capOut ∧ s.imem.length ≤ s.capIn.toNat ∧
    PackedOk s.pmem s.bitLen s.capPk (s.flag .encValid) ∧ TableOk s.ft s.capIn (s.flag .ftValid) ∧
    (s.flag .treeValid = true → s.flag .ftValid = true) ∧
    TreeOk s.arena s.nc s.root (s.flag .treeValid) (s.flag .leafRoot) ∧
    DictOk s.dict s.arena s.root (s.flag .treeValid) (s.flag .dictValid) ∧
    OutputOk s.omem s.capOut (s.flag .decValid) (s.flag .midTree) ∧ ErrorOk s.err s.lastErr (s.flag .fatal) := by
  constructor
  · intro h
    exact ⟨⟨h.capIn, h.capPk, h.capOut⟩, h.imemFits, ⟨h.pmemFits, h.pkLen, h.padding⟩, ⟨h.ftBound, h.ftUnset⟩, h.treeNeedsFt,
      ⟨h.leafRootNeedsTree, h.rootNil, h.noTree, h.tree, h.ncRoot, h.leafRoot⟩,
      ⟨h.dictNeedsTree, h.codeLength, h.dictCurrent⟩, ⟨h.omemFits, h.midTreeNeedsDec, h.outUnset⟩,
      ⟨h.errReserved, h.lastErrReserved, h.fatalRecorded⟩⟩
  · rintro ⟨caps, imemFits, packed, table, treeNeedsFt, tree, dict, output, error⟩
    exact {
      capIn := caps.capIn, capPk := caps.capPk, capOut := caps.capOut
      imemFits := imemFits, pmemFits := packed.fits, omemFits := output.fits
      pkLen := packed.pkLen, padding := packed.padding
      ftBound := table.bound, ftUnset := table.unset
      dictNeedsTree := dict.needsTree, treeNeedsFt := treeNeedsFt, leafRootNeedsTree := tree.leafRootNeedsTree
      midTreeNeedsDec := output.midTreeNeedsDec
      rootNil := tree.rootNil, noTree := tree.noTree, tree := tree.tree, ncRoot := tree.ncRoot, leafRoot := tree.leafRoot
      codeLength := dict.codeLength, dictCurrent := dict.current, outUnset := output.unset
      errReserved := error.reserved, lastErrReserved := error.lastReserved, fatalRecorded := error.fatalRecorded }

/-! ## The parts that the commands make -/

/-- No packed form: after reset, PKCLR, and a failed ENCODE (R135, R164). -/
theorem packedOk_empty (capPk : BitVec 32) (encValid : Bool) : PackedOk [] 0#24 capPk encValid where
  fits := Nat.zero_le _
  pkLen := rfl
  padding _ k _ hk := absurd hk (Nat.not_lt_zero k)

theorem PackedOk.append {pmem : List Byte} {bitLen : BitVec 24} {capPk : BitVec 32} {encValid : Bool} (b : Byte)
    (h : PackedOk pmem bitLen capPk encValid) (hcap : capPk.toNat ≤ 2 ^ 21 - 1) (hroom : pmem.length ≠ capPk.toNat) :
    PackedOk (memAppend pmem b) (BitVec.ofNat 24 (8 * (pmem.length + 1))) capPk false where
  fits := by have := h.fits; rw [memAppend_length]; omega
  pkLen := by
    have := h.fits
    rw [memAppend_length, BitVec.toNat_ofNat, Nat.mod_eq_of_lt (by omega), bytesFor]
    omega
  padding := nofun

/-- What ENCODE leaves: as many bytes as the bits need, and zeros after them (R132, R133). -/
theorem packedOk_pack {bits : List Bool} {capPk : BitVec 32} (encValid : Bool) (hcap : capPk.toNat ≤ 2 ^ 21 - 1)
    (hfits : bytesFor bits.length ≤ capPk.toNat) : PackedOk (pack bits) (BitVec.ofNat 24 bits.length) capPk encValid := by
  have hlen : (BitVec.ofNat 24 bits.length).toNat = bits.length := by
    rw [bytesFor] at hfits
    rw [BitVec.toNat_ofNat, Nat.mod_eq_of_lt (by omega)]
  refine ⟨by rwa [pack_length], by rw [pack_length, hlen], fun _ k hk hk' => ?_⟩
  rw [pack_length] at hk'
  rw [pbit_pack bits k hk', List.getD_eq_default _ _ (by omega)]

theorem tableOk_ftZero (capIn : BitVec 32) (ftValid : Bool) : TableOk ftZero capIn ftValid where
  bound := by simp
  unset _ := rfl

/-- What FREQ leaves (R43). -/
theorem tableOk_freq {imem : List Byte} {capIn : BitVec 32} (hfits : imem.length ≤ capIn.toNat) :
    TableOk (imem.foldl countByte ftZero) capIn true where
  bound := by
    have hcap := capIn.isLt
    rw [ftTotal_foldl_countByte imem (by rw [ftTotal_ftZero]; omega), ftTotal_ftZero]
    omega
  unset := nofun

/-- No tree: after reset, and what BUILD clears (R104, R108). -/
theorem treeOk_cleared : TreeOk [] [] Config.nilIdx false false where
  leafRootNeedsTree := id
  rootNil := by simp
  noTree _ := ⟨rfl, rfl⟩
  tree := nofun
  ncRoot := nofun
  leafRoot := nofun

/-- What BUILD leaves (R104, R107, R109). -/
theorem treeOk_built {t : FreqTable} {b : Builder} {root : Idx} {nd : Node} (h : Built t b root nd) (ht : ftTotal t < 2 ^ 32) :
    TreeOk b.arena b.nc root true (!nodeIsInternal nd) where
  leafRootNeedsTree _ := rfl
  rootNil := by
    have hlen := (h.treeWf ht).length_le
    have hlast := (h.treeWf ht).rootLast
    refine iff_of_true rfl fun hnil => ?_
    simp only [hnil, Config.nilIdx, BitVec.reduceToNat] at hlast
    omega
  noTree := nofun
  tree _ := h.treeWf ht
  ncRoot _ := h.nc
  leafRoot _ := h.isLeafAt.symm

/-- BUILD keeps the entries of DICT, and they are valid no longer (R236). -/
theorem DictOk.stale {dict : Dictionary} {arena arena' : List Node} {root root' : Idx} {treeValid treeValid' dictValid : Bool}
    (h : DictOk dict arena root treeValid dictValid) : DictOk dict arena' root' treeValid' false where
  needsTree := nofun
  codeLength := h.codeLength
  current := nofun

/-- What GENDICT leaves (R27, R28). -/
theorem TreeWf.dictOk {arena : List Node} {root : Idx} {d : Dictionary} (h : TreeWf arena root) (hd : dictOf arena root = .ok d) :
    DictOk d arena root true true where
  needsTree _ := rfl
  codeLength sym code hc := by
    obtain ⟨d', hd', hcodes, -⟩ := h.dictOf_ok
    obtain rfl : d = d' := by simpa [hd] using hd'
    obtain ⟨hpos, hle⟩ := h.isCode_length ((hcodes sym code).mp hc)
    have hleaves := h.leaves
    rw [Config.codeMax]
    omega
  current _ := hd

/-- No output: after reset and a failed decode (R141). -/
theorem outputOk_empty (capOut : BitVec 32) : OutputOk [] capOut false false where
  fits := Nat.zero_le _
  midTreeNeedsDec := id
  unset _ := rfl

/-- An error of a kind that is raised keeps the record's reserved bits 0, and FATAL in step with ERR (R201, R202). -/
theorem ErrorOk.record {err : BitVec 11} {lastErr : BitVec 16} {fatal : Bool} (h : ErrorOk err lastErr fatal) (op : Byte)
    {k : ErrKind} (hio : k ≠ .ioUnavail) (htrailing : k ≠ .trailing) :
    ErrorOk (setErrBit err k) (lastErrWord op k) (errFatal k || fatal) where
  reserved := by
    obtain ⟨h0, h3, h4⟩ := h.reserved
    simp only [getLsbD_setErrBit, h0, h3, h4, Bool.false_or]
    revert hio htrailing
    cases k <;> decide
  lastReserved := by
    apply BitVec.eq_of_toNat_eq
    have hk := (errCode k).isLt
    rw [toNat_slice, lastErrWord, toNat_append, toNat_append]
    simp
    omega
  fatalRecorded := by
    simp only [getLsbD_setErrBit, h.fatalRecorded]
    cases k <;> simp [errCode, errFatal]

/-! ## Reset, responses, failures -/

/-- A state with the values of reset and capacities that R6 allows meets the invariant (R40). -/
theorem inv_of_atReset {s : State} (h : AtReset s) (hcaps : CapsOk s.capIn s.capPk s.capOut) : Inv s := by
  obtain ⟨himem, hft, harena, hnc, hroot, hdict, hpmem, hbitLen, homem, -, hflag, -, herr, hlast, -⟩ := h
  have hft : s.ft = ftZero := freqTable_ext fun sym => by rw [hft, ftRead_ftZero]
  rw [inv_iff]
  simp only [himem, hft, harena, hnc, hroot, hpmem, hbitLen, homem, hflag, herr, hlast]
  exact ⟨hcaps, Nat.zero_le _, packedOk_empty _ _, tableOk_ftZero _ _, id, treeOk_cleared,
    ⟨nofun, fun sym code hc => by simp [hdict] at hc, nofun⟩, outputOk_empty _, ⟨by decide, by decide, by decide⟩⟩

theorem atReset_resetWith (p : Config.Params) : AtReset (State.resetWith p) :=
  ⟨rfl, ftRead_ftZero, rfl, rfl, rfl, dictRead_dictAbsent, rfl, rfl, rfl, rfl, State.flag_resetWith p, rfl, rfl, rfl, rfl⟩

theorem resetWith_caps {p : Config.Params} (hp : p.Ok) : (State.resetWith p).capIn.toNat = p.inMax ∧
    (State.resetWith p).capPk.toNat = p.pkMax ∧ (State.resetWith p).capOut.toNat = p.outMax := by
  obtain ⟨⟨-, hin⟩, ⟨-, hpk⟩, -, hout⟩ := hp
  refine ⟨Nat.mod_eq_of_lt ?_, Nat.mod_eq_of_lt ?_, Nat.mod_eq_of_lt ?_⟩ <;> omega

theorem atReset_toReset (s : State) : AtReset s.toReset :=
  ⟨rfl, ftRead_ftZero, rfl, rfl, rfl, dictRead_dictAbsent, rfl, rfl, rfl, rfl, State.flag_toReset s, rfl, rfl, rfl, rfl⟩

theorem exec_clear (s : State) : exec .clear s = .next (s.toReset.respond 0#4 0#32) := rfl

theorem inv_toReset {s : State} (h : Inv s) : Inv s.toReset :=
  inv_of_atReset (atReset_toReset s) (inv_iff.mp h).1

/-- The invariant says nothing of the host's side. -/
theorem Inv.withHost {s : State} (h : Inv s) (pending : List HostEvent) (responses : List Response) :
    Inv { s with pending := pending, responses := responses } := by
  rw [inv_iff] at h ⊢
  exact h

theorem Inv.respond {s : State} (h : Inv s) (code : BitVec 4) (data : Word) : Inv (s.respond code data) :=
  h.withHost s.pending _

theorem Inv.recordError {s : State} (h : Inv s) (op : Byte) {k : ErrKind} (info : Nat) (hio : k ≠ .ioUnavail)
    (htrailing : k ≠ .trailing) : Inv (s.recordError op k info) := by
  obtain ⟨caps, imemFits, packed, table, treeNeedsFt, tree, dict, output, error⟩ := inv_iff.mp h
  rw [inv_iff]
  simpa using ⟨caps, imemFits, packed, table, treeNeedsFt, tree, dict, output, error.record op hio htrailing⟩

/-! ## The commands -/

/-- A command that succeeds keeps every part of the invariant that it does not write, and makes the others anew. -/
theorem Inv.succeeds {s u : State} {i : Instr} {d : Word} (hs : Inv s) (ha : Admitted i s) (h : Succeeds s i d u) : Inv u := by
  obtain ⟨caps, imemFits, packed, table, treeNeedsFt, tree, dict, output, error⟩ := inv_iff.mp hs
  rw [inv_iff]
  cases h with
  | nop | readOut => exact inv_iff.mp hs
  | inclr => exact ⟨caps, Nat.zero_le _, packed, table, treeNeedsFt, tree, dict, output, error⟩
  | inpush b hroom =>
    have hfits : (memAppend s.imem b).length ≤ s.capIn.toNat := by rw [memAppend_length]; omega
    exact ⟨caps, hfits, packed, table, treeNeedsFt, tree, dict, output, error⟩
  | pkclr =>
    simpa [State.flag_eq, encodeEmptied] using
      ⟨caps, imemFits, packedOk_empty s.capPk false, table, treeNeedsFt, tree, dict, output, error⟩
  | pkpush b hroom =>
    simpa [State.flag_eq] using
      ⟨caps, imemFits, packed.append b caps.capPk.2 hroom, table, treeNeedsFt, tree, dict, output, error⟩
  | freq =>
    simpa [State.flag_eq] using ⟨caps, imemFits, packed, tableOk_freq imemFits, tree, dict, output, error⟩
  | build hb =>
    have htree := treeOk_built (built_of_buildTree hb) (table.bound.trans_lt s.capIn.isLt)
    have hft : s.flag .ftValid = true := ha.2 .ftValid rfl
    simpa [State.flag_eq, buildCleared] using
      ⟨caps, imemFits, packed, table, hft, htree, dict.stale, output, error⟩
  | @gendict filled hd =>
    have hvalid : s.flag .treeValid = true := ha.2 .treeValid rfl
    have hdict : DictOk filled s.arena s.root (s.flag .treeValid) true := by
      rw [hvalid]
      exact (tree.tree hvalid).dictOk hd
    simpa [State.flag_eq] using ⟨caps, imemFits, packed, table, treeNeedsFt, tree, hdict, output, error⟩
  | encode he =>
    rcases encodeBits_cases s.dict s.imem s.capPk.toNat with ⟨b, i, -, he'⟩ | ⟨-, hfits, he'⟩ | ⟨-, -, he'⟩
    · cases he'.symm.trans he
    · cases he'.symm.trans he
      simpa [State.flag_eq] using
        ⟨caps, imemFits, packedOk_pack true caps.capPk.2 hfits, table, treeNeedsFt, tree, dict, output, error⟩
    · cases he'.symm.trans he
  | decode hn hd =>
    have houtput : ∀ midTree, OutputOk _ s.capOut true midTree := fun midTree => ⟨decodeBits_fits hd, fun _ => rfl, nofun⟩
    simpa [State.flag_eq] using ⟨caps, imemFits, packed, table, treeNeedsFt, tree, dict, houtput _, error⟩

/-- What a command whose helper stops leaves before the error is recorded. -/
theorem Inv.stops {s u : State} {i : Instr} {e : Stop} (hs : Inv s) (h : Stops s i e u) : Inv u := by
  obtain ⟨caps, imemFits, packed, table, treeNeedsFt, tree, dict, output, error⟩ := inv_iff.mp hs
  rw [inv_iff]
  cases h with
  | gendict => exact inv_iff.mp hs
  | build =>
    simpa [State.flag_eq, buildCleared] using ⟨caps, imemFits, packed, table, treeOk_cleared, dict.stale, output, error⟩
  | encode =>
    simpa [State.flag_eq, encodeEmptied] using
      ⟨caps, imemFits, packedOk_empty s.capPk false, table, treeNeedsFt, tree, dict, output, error⟩
  | decode =>
    simpa [State.flag_eq, decodeEmptied] using
      ⟨caps, imemFits, packed, table, treeNeedsFt, tree, dict, outputOk_empty s.capOut, error⟩

/-- A command that answers keeps the invariant. -/
theorem Inv.exec {s t : State} {i : Instr} (hs : Inv s) (h : exec i s = .next t) : Inv t := by
  by_cases hclear : i = .clear
  · subst hclear
    obtain rfl : s.toReset.respond 0#4 0#32 = t := by simpa [exec_clear] using h
    exact (inv_toReset hs).respond _ _
  rcases exec_next_cases hclear h with ⟨d, u, ha, hu, rfl⟩ | ⟨k, info, u, ⟨hk, rfl⟩ | ⟨-, hstop⟩, rfl⟩
  · exact (hs.succeeds ha hu).respond _ _
  · refine (hs.recordError _ info ?_ ?_).respond _ _ <;> rintro rfl <;> simp [isRefusal] at hk
  · refine ((hs.stops hstop).recordError _ info ?_ ?_).respond _ _ <;> rintro rfl <;> simpa using hstop.kind

end Sys2Proof.Safety

namespace Sys2Proof

open Sys2Proof.Machine Sys2Proof.Safety

/-- Settles O54: the values of reset, with capacities in R6's ranges. -/
theorem resetMeetsTheInvariant : Obligations.ResetMeetsTheInvariant := by
  unfold Obligations.ResetMeetsTheInvariant
  have hreset : ∀ p : Config.Params, p.Ok → Inv (State.resetWith p) := fun p hp => by
    obtain ⟨hin, hpk, hout⟩ := resetWith_caps hp
    obtain ⟨hinOk, hpkOk, houtOk⟩ := hp
    exact inv_of_atReset (atReset_resetWith p) ⟨hin ▸ hinOk, hpk ▸ hpkOk, hout ▸ houtOk⟩
  exact ⟨hreset, hreset Config.Params.default (by decide)⟩

/-- Settles O55: a step without a command, a reset, an ILLEGAL word and every command keep the invariant. -/
theorem stepKeepsTheInvariant : Obligations.StepKeepsTheInvariant := by
  unfold Obligations.StepKeepsTheInvariant
  intro s t hs h
  rcases step_cases s with ⟨-, hstep⟩ | ⟨a, rest, -, hstep⟩ | ⟨w, rest, -, ⟨c, -, hstep⟩ | ⟨i, -, hstep⟩⟩ <;> rw [hstep] at h
  · cases h
    exact hs
  · cases h
    exact (inv_toReset hs).withHost rest _
  · obtain rfl := raise_next h
    exact ((hs.withHost rest _).recordError _ _ (by decide) (by decide)).respond _ _
  · exact (hs.withHost rest _).exec h

end Sys2Proof

/-! SUPPORT. What a command's one response says of how it ended, and what reset, CLEAR and every step leave of the capacities, the error
record and the flags (10_state.md R33 to R36, R40, 60_exceptions.md R201, R202). -/

namespace Sys2Proof.Machine

open Sys2Proof.Safety

/-! ## Responses -/

theorem respond_response {s u : State} {r : Response} {code : BitVec 4} {data : Word} (hu : u.responses = s.responses)
    (h : (u.respond code data).responses = s.responses ++ [r]) : r = ⟨code, data⟩ := by
  rw [State.respond_responses, hu] at h
  simpa [eq_comm] using h

variable {s t : State} {i : Instr} {r : Response}

/-- A command other than CLEAR answered OK and succeeded, or answered a code and recorded that error (R201). -/
theorem exec_answers (hi : i ≠ .clear) (h : exec i s = .next t) (hr : t.responses = s.responses ++ [r]) :
    (∃ u, Succeeds s i r.data u ∧ r.code = 0#4 ∧ t = u.respond 0#4 r.data) ∨
      ∃ k info u, (isRefusal k = true ∧ u = s ∨ Stops s i (.raised k info) u) ∧ KeepsTheRest s u ∧ r.code = errCode k ∧
        t = (u.recordError (opcodeOf i) k info).respond (errCode k) 0#32 := by
  rcases exec_next_cases hi h with ⟨d, u, -, hs, rfl⟩ | ⟨k, info, u, hu, rfl⟩
  · obtain rfl := respond_response hs.keepsTheRest.responses hr
    exact .inl ⟨u, hs, rfl, rfl⟩
  · have hu : isRefusal k = true ∧ u = s ∨ Stops s i (.raised k info) u := hu.imp_right And.right
    have hrest : KeepsTheRest s u := by
      rcases hu with ⟨-, rfl⟩ | hstop
      · exact keepsTheRest_refl u
      · exact hstop.keepsTheRest
    obtain rfl := respond_response (u := u.recordError (opcodeOf i) k info) hrest.responses hr
    exact .inr ⟨k, info, u, hu, hrest, rfl, rfl⟩

/-! ## The capacities and the error record -/

theorem exec_caps (h : exec i s = .next t) : t.capIn = s.capIn ∧ t.capPk = s.capPk ∧ t.capOut = s.capOut := by
  by_cases hi : i = .clear
  · subst hi
    cases h
    exact ⟨rfl, rfl, rfl⟩
  rcases exec_next_cases hi h with ⟨d, u, -, hs, rfl⟩ | ⟨k, info, u, ⟨-, rfl⟩ | ⟨-, hs⟩, rfl⟩
  · exact ⟨hs.keepsTheRest.capIn, hs.keepsTheRest.capPk, hs.keepsTheRest.capOut⟩
  · exact ⟨rfl, rfl, rfl⟩
  · exact ⟨hs.keepsTheRest.capIn, hs.keepsTheRest.capPk, hs.keepsTheRest.capOut⟩

/-- LASTERR: the opcode byte above the code (R35). -/
theorem lastErrWord_toNat (op : Byte) (k : ErrKind) : (lastErrWord op k).toNat = op.toNat * 2 ^ 8 + (errCode k).toNat := by
  rw [lastErrWord, toNat_append, toNat_zero_append]

/-! ## FATAL -/

/-- FATAL after a command other than CLEAR: as before, or raised by an ALLOC or EMPTY of BUILD, ENCODE or a decode (R202). -/
theorem exec_fatal (hi : i ≠ .clear) (h : exec i s = .next t) : t.flag .fatal = s.flag .fatal ∨
    t.flag .fatal = true ∧ (i = .build ∨ i = .encode ∨ IsDecode i) ∧
      ∃ r, t.responses = s.responses ++ [r] ∧ (r.code = 1#4 ∨ r.code = 2#4) := by
  rcases exec_next_cases hi h with ⟨d, u, -, hs, rfl⟩ | ⟨k, info, u, ⟨hk, rfl⟩ | ⟨-, hs⟩, rfl⟩
  · exact .inl hs.keepsTheRest.fatal
  · exact .inl (by cases k <;> simp_all [isRefusal, errFatal])
  · have hrest := hs.keepsTheRest
    cases hk : errFatal k with
    | false => exact .inl (by simp [hk, hrest.fatal])
    | true =>
      refine .inr ⟨by simp [hk], ?_, _, congrArg (· ++ _) hrest.responses, by cases k <;> simp_all [errFatal, errCode]⟩
      rcases hs.kind with ⟨rfl, -⟩ | ⟨rfl, -⟩ | ⟨hd, -⟩
      · exact .inl rfl
      · exact .inr (.inl rfl)
      · exact .inr (.inr hd)

theorem checkZero_eq_instr {mbz : Bool} {i j : Instr} : checkZero mbz i = .instr j ↔ mbz = true ∧ i = j := by
  cases mbz <;> simp [checkZero]

theorem checkSelector_eq_instr {mbz sel : Bool} {i j : Instr} :
    checkSelector mbz sel i = .instr j ↔ mbz = true ∧ sel = true ∧ i = j := by
  cases mbz <;> cases sel <;> simp [checkSelector]

/-- The word of CLEAR is the only one that decodes to it: no other opcode's arm of the decoder makes it (30_encoding.md R83). -/
theorem eq_of_decode_clear {w : Word} (h : decode w = .instr .clear) : w = 0x01000000#32 := by
  rw [decode] at h
  split at h
  case h_2 hopcode =>
    have hoperand : w.extractLsb' 0 24 = 0#24 := by simpa [formatN, checkZero_eq_instr] using h
    have h₁ := congrArg BitVec.toNat hopcode
    have h₂ := congrArg BitVec.toNat hoperand
    rw [opcodeField, toNat_slice] at h₁
    rw [toNat_slice] at h₂
    apply BitVec.eq_of_toNat_eq
    simp only [BitVec.toNat_ofNat] at *
    omega
  all_goals simp [formatN, formatB, formatR, formatI, formatXN, formatXD, checkZero_eq_instr, checkSelector_eq_instr] at h

/-! ## The flags' columns of R33 -/

/-- Which command raised and which lowered each flag from `s` to `t`, by the code it answered. -/
def FlagMoves (i : Instr) (s t : State) (code : BitVec 4) : Prop :=
  (Rises s t .ftValid → i = .freq ∧ code = 0#4) ∧ ¬ Falls s t .ftValid ∧
    (Rises s t .treeValid → i = .build ∧ code = 0#4) ∧ (Falls s t .treeValid → i = .build ∧ code = 2#4) ∧
    (Rises s t .dictValid → i = .gendict ∧ code = 0#4) ∧ (Falls s t .dictValid → i = .build) ∧
    (Rises s t .encValid → i = .encode ∧ code = 0#4) ∧
    (Falls s t .encValid → (i = .encode ∧ (code = 5#4 ∨ code = 1#4)) ∨ i = .pkclr ∨ ∃ b, i = .pkpush b) ∧
    (Rises s t .decValid → IsDecode i ∧ code = 0#4) ∧
    (Falls s t .decValid → IsDecode i ∧ (code = 6#4 ∨ code = 1#4)) ∧
    (Rises s t .leafRoot → i = .build ∧ code = 0#4 ∧ isLeafAt t.arena t.root = true) ∧ (Falls s t .leafRoot → i = .build) ∧
    (Rises s t .midTree → IsDecode i ∧ code = 0#4 ∧ t.decCur ≠ t.root) ∧
    (Falls s t .midTree → IsDecode i ∧ t.decCur = t.root ∧ (code = 0#4 ∨ code = 6#4 ∨ code = 1#4)) ∧
    (Rises s t .fatal → code = 1#4 ∨ code = 2#4) ∧ ¬ Falls s t .fatal

theorem Succeeds.flagMoves {d : Word} {u : State} (h : Succeeds s i d u) : FlagMoves i s u 0#4 := by
  cases h with
  | nop | readOut | inclr | inpush => simp +contextual [FlagMoves, State.flag_eq]
  | pkclr | pkpush | freq | gendict | encode => simp +contextual [FlagMoves, State.flag_eq, encodeEmptied]
  | build hb => 
    have hleaf := (built_of_buildTree hb).isLeafAt
    simp +contextual [FlagMoves, State.flag_eq, buildCleared, hleaf]
  | decode hn =>
    have hd : IsDecode i := isDecode_of_bitsConsumed hn
    simp +contextual [FlagMoves, State.flag_eq, hd]

theorem Stops.flagMoves {k : ErrKind} {info : Nat} {u : State} (h : Stops s i (.raised k info) u) (op : Byte) :
    FlagMoves i s (u.recordError op k info) (errCode k) := by
  cases h with
  | gendict hd => exact nomatch raisesOnly_dictOf (kinds := []) _ _ _ _ hd
  | build hb =>
    obtain rfl : k = .empty := by simpa using raisesOnly_buildTree _ _ _ hb
    simp +contextual [FlagMoves, State.flag_eq, buildCleared, errCode, errFatal]
  | encode he =>
    have hk : k = .noCode ∨ k = .alloc := by simpa using raisesOnly_encodeBits _ _ _ _ _ he
    rcases hk with rfl | rfl <;> simp +contextual [FlagMoves, State.flag_eq, encodeEmptied, errCode, errFatal]
  | decode hn hd =>
    have hi : IsDecode i := isDecode_of_bitsConsumed hn
    have hk : k = .badBit ∨ k = .alloc := by simpa using raisesOnly_decodeBits _ _ _ _ hd
    rcases hk with rfl | rfl <;> simp +contextual [FlagMoves, State.flag_eq, decodeEmptied, errCode, errFatal, hi]

theorem flagMoves_refusal {k : ErrKind} (hk : isRefusal k = true) (op : Byte) (info : Nat) :
    FlagMoves i s (s.recordError op k info) (errCode k) := by
  have hfatal : errFatal k = false := by cases k <;> simp_all [isRefusal, errFatal]
  simp +contextual [FlagMoves, State.flag_eq, hfatal]

end Sys2Proof.Machine

namespace Sys2Proof

open Sys2Proof.Machine Sys2Proof.Safety

/-- Settles O8: reset and CLEAR both give the reset state of the same capacities. -/
theorem resetStateValues : Obligations.ResetStateValues := by
  unfold Obligations.ResetStateValues
  refine ⟨fun p hp => ⟨atReset_resetWith p, resetWith_caps hp⟩, fun s t h => ?_, fun s t a rest hp h => ?_⟩
  · obtain rfl : s.toReset.respond 0#4 0#32 = t := by simpa [exec_clear] using h
    exact ⟨atReset_toReset s, rfl, rfl, rfl⟩
  · obtain rfl : { s.toReset with pending := rest } = t := by simpa [step, hp] using h
    exact ⟨atReset_toReset s, rfl, rfl, rfl⟩

/-- Settles O57: reset and CLEAR restore the capacities, no other step writes them. -/
theorem capacitiesAreConstant : Obligations.CapacitiesAreConstant := by
  unfold Obligations.CapacitiesAreConstant
  intro s t h
  rcases step_cases s with ⟨-, hstep⟩ | ⟨a, rest, -, hstep⟩ | ⟨w, rest, -, ⟨c, -, hstep⟩ | ⟨i, -, hstep⟩⟩ <;> rw [hstep] at h
  · cases h
    exact ⟨rfl, rfl, rfl⟩
  · cases h
    exact ⟨rfl, rfl, rfl⟩
  · obtain rfl := raise_next h
    exact ⟨rfl, rfl, rfl⟩
  · have hcaps := exec_caps h
    exact hcaps

/-- Settles O16: a success writes nothing of the error record, a failure writes it on a state where it stood as before. -/
theorem errorRecordIsKeptOrWritten : Obligations.ErrorRecordIsKeptOrWritten := by
  unfold Obligations.ErrorRecordIsKeptOrWritten
  intro i s t r hi h hr
  rcases exec_answers hi h hr with ⟨u, hs, hcode, rfl⟩ | ⟨k, info, u, -, hrest, hcode, rfl⟩
  · have hrest := hs.keepsTheRest
    exact ⟨fun _ => ⟨hrest.err, hrest.lastErr, hrest.eInfo⟩, fun hne => absurd hcode hne⟩
  · rw [hcode]
    exact ⟨fun h0 => absurd h0 (errCode_ne_zero k), fun _ => ⟨fun j => by simp [hrest.err], lastErrWord_toNat _ k⟩⟩

/-- Settles O12: a reset or CLEAR lowers FATAL; an ILLEGAL word and every other command keep it or raise it by ALLOC or EMPTY. -/
theorem fatalRisesAndFallsOnlyByItsCauses : Obligations.FatalRisesAndFallsOnlyByItsCauses := by
  unfold Obligations.FatalRisesAndFallsOnlyByItsCauses
  intro s t h
  rcases step_cases s with ⟨-, hstep⟩ | ⟨a, rest, hp, hstep⟩ | ⟨w, rest, hp, ⟨c, -, hstep⟩ | ⟨i, hd, hstep⟩⟩ <;> rw [hstep] at h
  · cases h
    simp +contextual
  · cases h
    exact ⟨fun _ hrise => absurd hrise (by simp [State.flag_eq, getFlag]), fun _ _ => ⟨rest, .inl ⟨a, hp⟩⟩⟩
  · have hkept : t.flag .fatal = s.flag .fatal := by
      rw [raise_next h]
      simp [errFatal, State.flag_eq]
    simp +contextual [hkept]
  · by_cases hi : i = .clear
    · subst hi
      cases h
      exact ⟨fun _ hrise => absurd hrise (by simp), fun _ _ => ⟨rest, .inr (eq_of_decode_clear hd ▸ hp)⟩⟩
    · rcases exec_fatal hi h with hkept | ⟨hset, hcommand, r, hr, hcode⟩
      · have hkept : t.flag .fatal = s.flag .fatal := hkept
        simp +contextual [hkept]
      · exact ⟨fun _ _ => ⟨w, rest, i, r, hp, hd, hcommand, hr, hcode⟩, fun _ hfall => absurd hset (by simp [hfall])⟩

/-- Settles O59: how the command ended says which flags it wrote. -/
theorem flagsRiseAndFallByTheirCommands : Obligations.FlagsRiseAndFallByTheirCommands := by
  unfold Obligations.FlagsRiseAndFallByTheirCommands
  intro i s t r hi h hr
  rcases exec_answers hi h hr with ⟨u, hs, hcode, rfl⟩ | ⟨k, info, u, ⟨hk, rfl⟩ | hs, -, hcode, rfl⟩ <;> rw [hcode]
  · exact hs.flagMoves
  · exact flagMoves_refusal hk (opcodeOf i) info
  · exact hs.flagMoves (opcodeOf i)

end Sys2Proof

/-! SUPPORT. What a read-out answers (44_host_commands.md, section 3): the datum it finds in the state, or one error where there is none,
and neither its response nor that error's record changes what it finds (20_memory.md R63, R65). -/

namespace Sys2Proof.Machine

open Sys2Proof.Safety

/-! ## What is read, and where nothing is -/

theorem readOut_eq_elim (op : Byte) (index : Nat) (datum : Option Word) (s : State) :
    readOut op index datum s = datum.elim (raise op .range index s) (succeed · s) := by
  cases datum <;> rfl

/-- A read at or beyond the length of a space, where nothing stands (R65). -/
theorem readOut_getElem?_of_length_le {α : Type} {xs : List α} {index : Nat} (op : Byte) (f : α → Word) (s : State)
    (h : xs.length ≤ index) : readOut op index (xs[index]?.map f) s = raise op .range index s := by
  rw [List.getElem?_eq_none h]
  rfl

/-- The same of the byte memories (R66). -/
theorem readOut_memRead_of_length_le {m : List Byte} {index : Nat} (op : Byte) (s : State) (h : m.length ≤ index) :
    readOut op index ((memRead m index).map byteDatum) s = raise op .range index s :=
  readOut_getElem?_of_length_le op byteDatum s h

/-- Register 15 is the one that does not exist, whatever the others hold (10_state.md R36). -/
theorem regRead_eq_none_iff (s : State) (r : BitVec 4) : regRead s r = none ↔ r = 15#4 := by
  unfold regRead
  split
  case h_16 =>
    simp only [imp_false, true_iff] at *
    bv_omega
  all_goals simp

theorem execRdnode_of_selector {w : BitVec 8} (hw : nodeSelectorOk w = true) (n : Idx) (s : State) :
    execRdnode n w s = readOut (opcodeOf (.rdnode n w)) n.toNat (s.arena[n.toNat]?.map fun nd => nodeWord nd w) s :=
  if_pos hw

theorem execRddict_of_selector {w : BitVec 8} (hw : dictSelectorOk w = true) (sym : Byte) (s : State) :
    execRddict sym w s = succeed (dictWord (dictRead s.dict sym) w) s :=
  if_pos hw

/-! ## Appends to a full space -/

theorem execInpush_of_full {s : State} (hf : s.flag .fatal = false) (h : s.imem.length = s.capIn.toNat) (b : Byte) :
    execInpush b s = raise (opcodeOf (.inpush b)) .range s.imem.length s := by
  rw [execInpush, unlessHalted_of_not_fatal hf, if_pos h]

theorem execPkpush_of_full {s : State} (hf : s.flag .fatal = false) (h : s.pmem.length = s.capPk.toNat) (b : Byte) :
    execPkpush b s = raise (opcodeOf (.pkpush b)) .range s.pmem.length s := by
  rw [execPkpush, unlessHalted_of_not_fatal hf, if_pos h]

/-! ## The datum of a read-out -/

/-- The read-out `i` answers `datum` of the state and, where there is none, the error `k`, not a fatal one, with EINFO `info`. Its response
leaves the datum as it is, and the record of that error brings none about. -/
structure ReadsDatum (i : Instr) (k : ErrKind) (info : Nat) (datum : State → Option Word) : Prop where
  notFatal : errFatal k = false
  exec_eq : ∀ s, exec i s = (datum s).elim (raise (opcodeOf i) k info s) (succeed · s)
  respond : ∀ s code data, datum (s.respond code data) = datum s
  recordError : ∀ s op, datum s = none → datum (s.recordError op k info) = none

section ReadsDatum

variable {i : Instr} {index : Nat} {datum : State → Option Word}

/-- A read-out by index, which is RANGE where nothing is there (R65). -/
theorem readsDatum_of_readOut (hexec : ∀ s, exec i s = readOut (opcodeOf i) index (datum s) s)
    (hrespond : ∀ s code data, datum (s.respond code data) = datum s)
    (hrecord : ∀ s op, datum s = none → datum (s.recordError op .range index) = none) :
    ReadsDatum i .range index datum :=
  ⟨rfl, fun s => (hexec s).trans (readOut_eq_elim _ _ _ s), hrespond, hrecord⟩

/-- A read-out of FT or DICT, where every symbol has its entry (R65), so that no error arises. -/
theorem readsDatum_of_succeed {entry : State → Word} (hexec : ∀ s, exec i s = succeed (entry s) s)
    (hrespond : ∀ s code data, entry (s.respond code data) = entry s) : ReadsDatum i .range 0 fun s => some (entry s) :=
  ⟨rfl, hexec, fun s code data => congrArg some (hrespond s code data), nofun⟩

/-- A read-out whose selector names no word fails in every state (30_encoding.md R84(c)). -/
theorem readsDatum_of_rejectIllegal (hexec : ∀ s, exec i s = rejectIllegal (encode i) s) :
    ReadsDatum i .illegal (encode i).toNat fun _ => none :=
  ⟨rfl, fun s => by rw [hexec, rejectIllegal, opcodeField_encode]; rfl, fun _ _ _ => rfl, fun _ _ _ => rfl⟩

/-- Every read-out reads a datum: RDREG that of a register, the others that of a space. -/
theorem exists_readsDatum (hi : isReadOut i = true) : ∃ k info datum, ReadsDatum i k info datum := by
  cases i with
  | rdreg r =>
    refine ⟨_, _, _, readsDatum_of_readOut (fun _ => rfl) (fun _ _ _ => rfl) fun s op h => ?_⟩
    exact (regRead_eq_none_iff _ r).mpr ((regRead_eq_none_iff s r).mp h)
  | rdin _ | rdpk _ | rdout _ | rdnc _ =>
    exact ⟨_, _, _, readsDatum_of_readOut (fun _ => rfl) (fun _ _ _ => rfl) fun _ _ h => h⟩
  | rdfreq sym => exact ⟨_, _, _, readsDatum_of_succeed (fun _ => rfl) fun _ _ _ => rfl⟩
  | rdnode n w =>
    by_cases hw : nodeSelectorOk w = true
    · exact ⟨_, _, _, readsDatum_of_readOut (execRdnode_of_selector hw n) (fun _ _ _ => rfl) fun _ _ h => h⟩
    · exact ⟨_, _, _, readsDatum_of_rejectIllegal fun s => if_neg hw⟩
  | rddict sym w =>
    by_cases hw : dictSelectorOk w = true
    · exact ⟨_, _, _, readsDatum_of_succeed (execRddict_of_selector hw sym) fun _ _ _ => rfl⟩
    · exact ⟨_, _, _, readsDatum_of_rejectIllegal fun s => if_neg hw⟩
  | _ => cases hi

variable {k : ErrKind} {info : Nat} {s : State}

theorem ReadsDatum.exec_of_some (hd : ReadsDatum i k info datum) {d : Word} (h : datum s = some d) :
    exec i s = succeed d s := by rw [hd.exec_eq, h]; rfl

theorem ReadsDatum.exec_of_none (hd : ReadsDatum i k info datum) (h : datum s = none) :
    exec i s = raise (opcodeOf i) k info s := by rw [hd.exec_eq, h]; rfl

end ReadsDatum

end Sys2Proof.Machine

namespace Sys2Proof

open Sys2Proof.Machine Sys2Proof.Safety

/-- Settles O26: what a read-out finds is not changed by its own response, nor an absent datum by the record of its error. -/
theorem readOutsChangeNothing : Obligations.ReadOutsChangeNothing := by
  unfold Obligations.ReadOutsChangeNothing
  intro i s t hi h
  obtain ⟨k, info, datum, hd⟩ := exists_readsDatum hi
  cases hs : datum s with
  | some d =>
    obtain rfl : s.respond 0#4 d = t := by simpa [succeed_eq] using (hd.exec_of_some hs).symm.trans h
    have hagain : datum (s.respond 0#4 d) = some d := by rw [hd.respond, hs]
    exact ⟨⟨0#4, d⟩, rfl, fun _ => rfl, fun hne => absurd rfl hne, _, hd.exec_of_some hagain, rfl⟩
  | none =>
    obtain rfl := raise_next ((hd.exec_of_none hs).symm.trans h)
    have hagain : datum ((s.recordError (opcodeOf i) k info).respond (errCode k) 0#32) = none := by
      rw [hd.respond, hd.recordError s _ hs]
    refine ⟨⟨errCode k, 0#32⟩, rfl, fun h0 => absurd h0 (errCode_ne_zero k), fun _ => ?_, _, hd.exec_of_none hagain, rfl⟩
    simp [hd.notFatal, State.recordError, State.respond]

/-- Settles O14: nothing stands at or beyond a length, a full space takes no append, and every symbol has its entries in FT and DICT. -/
theorem indicesBeyondTheLengthAreRange : Obligations.IndicesBeyondTheLengthAreRange := by
  unfold Obligations.IndicesBeyondTheLengthAreRange
  intro s
  refine ⟨fun n => readOut_memRead_of_length_le _ s, fun n => readOut_memRead_of_length_le _ s,
    fun n => readOut_memRead_of_length_le _ s, fun n w hw h => ?rdnode, fun p => readOut_getElem?_of_length_le _ _ s,
    fun b hf h => execInpush_of_full hf h b, fun b hf h => execPkpush_of_full hf h b, fun sym => ⟨_, rfl⟩,
    fun sym w hw => ?rddict⟩
  case rdnode =>
    exact (execRdnode_of_selector (by simpa [nodeSelectorOk] using hw) n s).trans (readOut_getElem?_of_length_le _ _ s h)
  case rddict => exact ⟨_, execRddict_of_selector (by simpa [dictSelectorOk] using hw) sym s⟩

end Sys2Proof

/-! SUPPORT. What the decoder's verdict on a word says of it, both ways: the word of a well-formed command is that command and legal, and
no other word is either (30_encoding.md R84, R87). -/

namespace Sys2Proof

open Sys2Proof.Machine Sys2Proof.Safety

/-! ## Selectors out of range -/

/-- Formats XN and XD: the must-be-zero field holds, so the selector is what fails. -/
theorem checkSelector_encode_of_selector {i : Instr} {w : BitVec 8} {x n m : Nat} {ok : BitVec 8 → Bool} (j : Instr)
    (hnm : n + m = 16) (hx : x < 2 ^ n) (h : operandNat i = w.toNat * 2 ^ 16 + x) (hw : ok w = false) :
    checkSelector ((encode i).extractLsb' n m == 0#m) (ok (selectorField (encode i))) j = .illegal .selector := by
  have hw8 := w.isLt
  have hx16 : x < 2 ^ 16 := hx.trans_le (Nat.pow_le_pow_right (by decide) (by omega))
  have hlow : (w.toNat * 2 ^ 16 + x) % 2 ^ 16 = x := by omega
  have hzero : (encode i).extractLsb' n m = 0#m := slice_encode (by omega) (by
    rw [← Nat.mod_mul_right_div_self, ← Nat.pow_add, hnm, h, hlow, Nat.div_eq_of_lt hx, BitVec.toNat_zero])
  have hsel : selectorField (encode i) = w := slice_encode (by decide) (by omega)
  simp [checkSelector, hzero, hsel, hw]

/-- The ill-formed terms are those with a selector out of range (R84(c)). -/
theorem decode_encode_of_not_wf {i : Instr} (h : i.wf = false) : decode (encode i) = .illegal .selector := by
  cases i with
  | rdnode n w =>
    simpa [decode, opcodeField_encode, opcodeOf, formatXN] using checkSelector_encode_of_selector _ rfl n.isLt rfl h
  | rddict b w =>
    simpa [decode, opcodeField_encode, opcodeOf, formatXD] using checkSelector_encode_of_selector _ rfl b.isLt rfl h
  | _ => cases h

/-- Settles O1: a well-formed command is read back from its word, and any other term has a selector out of range. -/
theorem decodeOfEncode : Obligations.DecodeOfEncode := by
  unfold Obligations.DecodeOfEncode
  intro i
  split
  case isTrue h => exact decode_encode h
  case isFalse h => exact decode_encode_of_not_wf (by simpa using h)

/-! ## Legal words -/

theorem opcodeField_toNat (w : Word) : (opcodeField w).toNat = w.toNat / 2 ^ 24 := by
  have := w.isLt
  rw [opcodeField, toNat_slice]
  omega

theorem encode_toNat_opcode (i : Instr) : (encode i).toNat / 2 ^ 24 = (opcodeOf i).toNat := by
  rw [← opcodeField_toNat, opcodeField_encode]

theorem encode_toNat_operand (i : Instr) : (encode i).toNat % 2 ^ 24 = operandNat i := by
  have := (operandOf i).isLt
  rw [encode_toNat, ← operandOf_toNat]
  omega

/-- A word is told by its opcode and its operand field (R81). -/
theorem encode_eq_of_fields {i : Instr} {w : Word} (hop : opcodeField w = opcodeOf i)
    (hoperand : w.toNat % 2 ^ 24 = operandNat i) : encode i = w := by
  apply BitVec.eq_of_toNat_eq
  have := opcodeField_toNat w
  rw [encode_toNat, ← hop, operandOf_toNat, ← hoperand]
  omega

/-- The operand field of formats XN and XD, a selector above the rest, each below its bound. -/
theorem legal_selector {sel x selBound bound : Nat} (hsel : sel < selBound) (hx : x < bound) (hbound : bound ≤ 2 ^ 16) :
    (decide ((sel * 2 ^ 16 + x) / 2 ^ 16 < selBound) && decide ((sel * 2 ^ 16 + x) % 2 ^ 16 < bound)) = true := by
  have hdiv : (sel * 2 ^ 16 + x) / 2 ^ 16 = sel := by omega
  have hmod : (sel * 2 ^ 16 + x) % 2 ^ 16 = x := by omega
  rw [hdiv, hmod, decide_eq_true hsel, decide_eq_true hx, Bool.and_self]

/-- The word of a command is legal by R84's arithmetic. -/
theorem legalWord_encode {i : Instr} (h : i.wf = true) : legalWord (encode i) = true := by
  unfold legalWord
  rw [encode_toNat_opcode, encode_toNat_operand]
  cases i with
  | nop | clear | inclr | pkclr | freq | build | gendict | encode | decode | decodeb
  | decodel _ | rdin _ | rdpk _ | rdout _ => rfl
  | inpush b | pkpush b | rdfreq b => exact decide_eq_true b.isLt
  | rdreg r => exact decide_eq_true r.isLt
  | rdnc p => exact decide_eq_true p.isLt
  | rdnode n w => exact legal_selector (of_decide_eq_true h) n.isLt (by decide)
  | rddict b w => exact legal_selector (of_decide_eq_true h) b.isLt (by decide)

/-! ## The verdict -/

/-- What a verdict says of the word `w`: it is the word of a well-formed command, or R84 leaves it out. -/
def Verdict.Says (w : Word) : Verdict → Prop
  | .instr i => i.wf = true ∧ encode i = w
  | .illegal _ => legalWord w = false

section Formats

variable {w : Word} {i : Instr}

theorem checkZero_says {mbz : Bool} (hop : opcodeField w = opcodeOf i) (hwf : i.wf = true)
    (hlegal : legalWord w = mbz) (hoperand : mbz = true → w.toNat % 2 ^ 24 = operandNat i) : (checkZero mbz i).Says w := by
  cases mbz with
  | true => exact ⟨hwf, encode_eq_of_fields hop (hoperand rfl)⟩
  | false => exact hlegal

theorem checkSelector_says {mbz sel : Bool} (hop : opcodeField w = opcodeOf i) (hwf : sel = i.wf)
    (hlegal : legalWord w = (sel && mbz)) (hoperand : mbz = true → w.toNat % 2 ^ 24 = operandNat i) :
    (checkSelector mbz sel i).Says w := by
  cases mbz <;> cases sel
  case true.true => exact ⟨hwf.symm, encode_eq_of_fields hop (hoperand rfl)⟩
  all_goals exact hlegal

/-- A must-be-zero field above `lo` bits, as a number. -/
theorem slice_beq_zero (w : Word) (lo k : Nat) : (w.extractLsb' lo k == 0#k) = decide (w.toNat % 2 ^ (lo + k) < 2 ^ lo) := by
  have hzero : w.toNat / 2 ^ lo % 2 ^ k = 0 ↔ w.toNat % 2 ^ (lo + k) < 2 ^ lo := by
    rw [← Nat.mod_mul_right_div_self, ← Nat.pow_add, Nat.div_eq_zero_iff_lt (Nat.two_pow_pos lo)]
  rw [Bool.eq_iff_iff, beq_iff_eq, decide_eq_true_eq, ← hzero, ← toNat_slice, ← BitVec.toNat_inj, BitVec.toNat_zero]

theorem formatN_says (hop : opcodeField w = opcodeOf i) (hwf : i.wf = true) (hi : operandNat i = 0)
    (hlegal : legalWord w = (w.toNat % 2 ^ 24 == 0)) : (formatN w i).Says w := by
  refine checkZero_says hop hwf ?_ ?_ <;> rw [slice_beq_zero]
  · rw [hlegal, Bool.eq_iff_iff, beq_iff_eq, decide_eq_true_eq]
    omega
  · rw [hi, decide_eq_true_eq]
    omega

/-- Formats B, R and I: an operand of `n` bits below a must-be-zero field. -/
theorem lowOperand_says {n m : Nat} (hnm : n + m = 24) (hop : opcodeField w = opcodeOf i) (hwf : i.wf = true)
    (hi : operandNat i = (w.extractLsb' 0 n).toNat) (hlegal : legalWord w = decide (w.toNat % 2 ^ 24 < 2 ^ n)) :
    (checkZero (w.extractLsb' n m == 0#m) i).Says w := by
  refine checkZero_says hop hwf ?_ ?_ <;> rw [slice_beq_zero, hnm]
  · exact hlegal
  · intro hlt
    rw [hi, toNat_slice, Nat.pow_zero, Nat.div_one, ← Nat.mod_eq_of_lt (of_decide_eq_true hlt)]
    exact Nat.mod_mod_of_dvd _ (Nat.pow_dvd_pow 2 (by omega))

theorem formatL_says (hop : opcodeField w = opcodeOf i) (hwf : i.wf = true) (hi : operandNat i = (imm24Field w).toNat) :
    (Verdict.instr i).Says w :=
  ⟨hwf, encode_eq_of_fields hop (by rw [hi, imm24Field, toNat_slice, Nat.pow_zero, Nat.div_one])⟩

theorem selectorField_toNat (w : Word) : (selectorField w).toNat = w.toNat % 2 ^ 24 / 2 ^ 16 := by
  rw [selectorField, toNat_slice]
  omega

/-- Formats XN and XD: a selector above a must-be-zero field and an operand of `n` bits. -/
theorem selector_says {n m : Nat} {sel : Bool} (hnm : n + m = 16) (hop : opcodeField w = opcodeOf i) (hwf : sel = i.wf)
    (hi : operandNat i = (selectorField w).toNat * 2 ^ 16 + (w.extractLsb' 0 n).toNat)
    (hlegal : legalWord w = (sel && decide (w.toNat % 2 ^ 24 % 2 ^ 16 < 2 ^ n))) :
    (checkSelector (w.extractLsb' n m == 0#m) sel i).Says w := by
  have hmod : w.toNat % 2 ^ 24 % 2 ^ 16 = w.toNat % 2 ^ 16 := by omega
  refine checkSelector_says hop hwf ?_ ?_ <;> rw [slice_beq_zero, hnm]
  · rw [hlegal, hmod]
  · intro hlt
    have hlow : w.toNat % 2 ^ n = w.toNat % 2 ^ 16 := by
      rw [← Nat.mod_eq_of_lt (of_decide_eq_true hlt), Nat.mod_mod_of_dvd _ (Nat.pow_dvd_pow 2 (by omega))]
    rw [hi, toNat_slice, selectorField_toNat, Nat.pow_zero, Nat.div_one, hlow]
    omega

end Formats

/-- Arm by arm of the opcode map (R83). -/
theorem decode_says (w : Word) : (decode w).Says w := by
  rw [decode]
  split
  case h_1 h | h_2 h | h_3 h | h_5 h | h_7 h | h_8 h | h_9 h | h_10 h | h_11 h | h_12 h =>
    exact formatN_says h rfl rfl (by rw [legalWord, ← opcodeField_toNat, h]; rfl)
  case h_4 h | h_6 h | h_14 h | h_18 h | h_21 h =>
    exact lowOperand_says rfl h rfl rfl (by rw [legalWord, ← opcodeField_toNat, h]; rfl)
  case h_13 h | h_15 h | h_16 h | h_17 h => exact formatL_says h rfl rfl
  case h_19 h =>
    exact selector_says rfl h rfl rfl (by rw [legalWord, ← opcodeField_toNat, h, nodeSelectorOk, selectorField_toNat]; rfl)
  case h_20 h =>
    exact selector_says rfl h rfl rfl (by rw [legalWord, ← opcodeField_toNat, h, dictSelectorOk, selectorField_toNat]; rfl)
  case h_22 =>
    show legalWord w = false
    rw [legalWord, ← opcodeField_toNat]
    simp_all [← BitVec.toNat_inj]

/-- A word decodes to a command exactly when it is the command's own word. -/
theorem decode_eq_instr_iff {w : Word} {i : Instr} : decode w = .instr i ↔ i.wf = true ∧ encode i = w := by
  refine ⟨fun h => ?_, fun ⟨hwf, hw⟩ => hw ▸ decode_encode hwf⟩
  have hsays := decode_says w
  rwa [h] at hsays

/-- Settles O2: a command that a word decodes to is well-formed and its word is that one. -/
theorem everyWordHasOneVerdict : Obligations.EveryWordHasOneVerdict := by
  unfold Obligations.EveryWordHasOneVerdict
  constructor
  · intro w
    cases h : decode w with
    | instr i => exact .inl ⟨i, (decode_eq_instr_iff.mp h).1, rfl⟩
    | illegal c => exact .inr ⟨c, rfl⟩
  · intro w₁ w₂ i h₁ h₂
    exact (decode_eq_instr_iff.mp h₁).2.symm.trans (decode_eq_instr_iff.mp h₂).2

theorem decode_illegal_iff {w : Word} : (∃ c, decode w = .illegal c) ↔ legalWord w = false := by
  constructor
  · rintro ⟨c, h⟩
    have hsays := decode_says w
    rwa [h] at hsays
  · intro hlegal
    cases h : decode w with
    | illegal c => exact ⟨c, rfl⟩
    | instr i =>
      obtain ⟨hwf, rfl⟩ := decode_eq_instr_iff.mp h
      rw [legalWord_encode hwf] at hlegal
      cases hlegal

/-- The effect of an ILLEGAL word, written out (R84, 60_exceptions.md R201). -/
theorem Machine.rejectIllegal_eq (w : Word) (s : State) : rejectIllegal w s = .next { s with
    err := s.err ||| (1#11 <<< 10)
    lastErr := (w.extractLsb' 24 8 ++ 0x0A#8 : BitVec 16)
    eInfo := w
    responses := s.responses ++ [{ code := 10#4, data := 0#32 }] } := by
  have hinfo : BitVec.ofNat 32 w.toNat = w := by rw [BitVec.ofNat_toNat, BitVec.setWidth_eq]
  rw [rejectIllegal, raise_eq, State.recordError, hinfo]
  rfl

theorem Machine.step_illegal {s : State} {w : Word} {rest : List HostEvent} {c : IllegalCause}
    (hp : s.pending = .command w :: rest) (hd : decode w = .illegal c) :
    step s = rejectIllegal w { s with pending := rest } := by
  simp only [step, hp, perform_illegal _ hd]

/-- Settles O3: the verdict is ILLEGAL exactly when R84's arithmetic says so, and ILLEGAL is no fatal kind. -/
theorem illegalWordsAreRejected : Obligations.IllegalWordsAreRejected := by
  unfold Obligations.IllegalWordsAreRejected
  refine ⟨fun w => decode_illegal_iff, fun s w rest hp hlegal => ?_⟩
  obtain ⟨c, hc⟩ := decode_illegal_iff.mpr hlegal
  rw [step_illegal hp hc, rejectIllegal_eq]

/-- Settles O4: fifteen evaluations of the decoder. -/
theorem sampleWordsDecode : Obligations.SampleWordsDecode := by
  unfold Obligations.SampleWordsDecode
  decide

end Sys2Proof

/-! SUPPORT. The one response of every command (30_encoding.md R90, 60_exceptions.md R200). -/

namespace Sys2Proof.Machine

open Sys2Proof.Safety

variable {s : State} {i : Instr}

/-- Only a read-out answers a datum (R90). -/
theorem Succeeds.datum_eq_zero {d : Word} {u : State} (h : Succeeds s i d u) (hi : isReadOut i = false) : d = 0#32 := by
  cases h with
  | readOut d hread => simp [hread] at hi
  | _ => rfl

/-- Every kind but the two reserved ones (R209, R210). -/
def isRaised (k : ErrKind) : Bool := k ≠ .ioUnavail && k ≠ .trailing

theorem isRaised_of_isRefusal {k : ErrKind} (h : isRefusal k = true) : isRaised k = true := by
  cases k <;> simp_all [isRefusal, isRaised]

theorem Stops.isRaised {k : ErrKind} {info : Nat} {u : State} (h : Stops s i (.raised k info) u) : isRaised k = true := by
  rcases h.kind with ⟨-, rfl⟩ | ⟨-, rfl | rfl⟩ | ⟨-, rfl | rfl⟩ <;> rfl

/-- What R90 and R200 say of the response to the word `w`. -/
def GoodResponse (w : Word) (r : Response) : Prop :=
  (r.code ≠ 0#4 → r.data = 0#32) ∧
    (r.code = 0#4 → ∃ i, decode w = .instr i ∧ (isReadOut i = false → r.data = 0#32)) ∧
    r.code ∈ [0#4, 1#4, 2#4, 5#4, 6#4, 7#4, 8#4, 9#4, 10#4]

theorem goodResponse_ok {w : Word} {d : Word} (hw : decode w = .instr i) (hd : isReadOut i = false → d = 0#32) :
    GoodResponse w ⟨0#4, d⟩ :=
  ⟨fun h => absurd rfl h, fun _ => ⟨i, hw, hd⟩, by simp⟩

theorem goodResponse_error (w : Word) {k : ErrKind} (hk : isRaised k = true) : GoodResponse w ⟨errCode k, 0#32⟩ := by
  refine ⟨fun _ => rfl, fun h0 => absurd h0 (errCode_ne_zero k), ?_⟩
  cases k <;> simp_all [isRaised, errCode]

end Sys2Proof.Machine

namespace Sys2Proof

open Sys2Proof.Machine Sys2Proof.Safety

/-- Settles O7: an ILLEGAL word, CLEAR, and each way another command ends give one response, and none writes the host's moves. -/
theorem oneResponsePerCommand : Obligations.OneResponsePerCommand := by
  unfold Obligations.OneResponsePerCommand
  intro s t w rest hp h
  suffices hresponse : t.pending = rest ∧ ∃ r, t.responses = s.responses ++ [r] ∧ GoodResponse w r from hresponse
  cases hd : decode w with
  | illegal c =>
    rw [step_illegal hp hd] at h
    obtain rfl := raise_next h
    exact ⟨rfl, _, rfl, goodResponse_error w (k := .illegal) rfl⟩
  | instr i =>
    rw [step_command hp hd] at h
    by_cases hi : i = .clear
    · subst hi
      cases h
      exact ⟨rfl, _, rfl, goodResponse_ok hd fun _ => rfl⟩
    rcases exec_next_cases hi h with ⟨d, u, -, hs, rfl⟩ | ⟨k, info, u, ⟨hk, rfl⟩ | ⟨-, hs⟩, rfl⟩
    · exact ⟨hs.keepsTheRest.pending, _, congrArg (· ++ _) hs.keepsTheRest.responses, goodResponse_ok hd hs.datum_eq_zero⟩
    · exact ⟨rfl, _, rfl, goodResponse_error w (isRaised_of_isRefusal hk)⟩
    · exact ⟨hs.keepsTheRest.pending, _, congrArg (· ++ _) hs.keepsTheRest.responses, goodResponse_error w hs.isRaised⟩

end Sys2Proof

/-! SUPPORT. The words that the read-outs answer, field by field (30_encoding.md R91 to R94). -/

namespace Sys2Proof.Machine

open Sys2Proof.Safety

/-! ## Registers, bytes and positions -/

/-- A length register read out: the length modulo the register's width (10_state.md R36). -/
theorem setWidth_ofNat_length (n length : Nat) :
    (BitVec.ofNat n length).setWidth 32 = BitVec.ofNat 32 (length % 2 ^ n) := by
  rw [← BitVec.ofNat_toNat, BitVec.toNat_ofNat]

/-- Zero extension is a zero field above. -/
theorem setWidth_eq_append {m n : Nat} (b : BitVec n) : b.setWidth (m + n) = 0#m ++ b := by
  apply BitVec.eq_of_toNat_eq
  rw [toNat_zero_append, BitVec.toNat_setWidth]
  exact Nat.mod_eq_of_lt (b.isLt.trans_le (Nat.pow_le_pow_right (by decide) (by omega)))

/-- A read at an index where something stands answers it. -/
theorem readOut_of_eq_some {datum : Option Word} {d : Word} (op : Byte) (index : Nat) (s : State) (h : datum = some d) :
    readOut op index datum s = .next { s with responses := s.responses ++ [{ code := 0#4, data := d }] } := by
  rw [h]
  rfl

theorem reads_rdreg_length {s : State} {r : BitVec 4} {n length : Nat}
    (h : regRead s r = some ((BitVec.ofNat n length).setWidth 32)) :
    Reads (.rdreg r) s (BitVec.ofNat 32 (length % 2 ^ n)) :=
  readOut_of_eq_some _ _ s (by rw [h, setWidth_ofNat_length])

theorem readOut_memRead {m : List Byte} {index : Nat} {b : Byte} (op : Byte) (s : State) (h : memRead m index = some b) :
    readOut op index ((memRead m index).map byteDatum) s =
      .next { s with responses := s.responses ++ [{ code := 0#4, data := 0#24 ++ b }] } :=
  readOut_of_eq_some op index s (by rw [h, Option.map_some, byteDatum, setWidth_eq_append (m := 24)])

/-! ## Nodes -/

theorem reads_rdnode {s : State} {n : Idx} {nd : Node} {w : BitVec 8} (hw : nodeSelectorOk w = true)
    (h : s.arena[n.toNat]? = some nd) : Reads (.rdnode n w) s (nodeWord nd w) :=
  (execRdnode_of_selector hw n s).trans (readOut_of_eq_some _ _ s (by rw [h, Option.map_some]))

/-- Word 0 of a node: kind, left, right and symbol in their places (R91). -/
theorem nodeWord_zero_toNat (nd : Node) : (nodeWord nd 0#8).toNat = (nodeIsInternal nd).toNat * 2 ^ 31 +
    (nodeLeft nd).toNat * 2 ^ 19 + (nodeRight nd).toNat * 2 ^ 10 + (nodeSym nd).toNat := by
  rw [nodeWord, if_pos rfl]
  simp only [toNat_append, BitVec.toNat_ofBool, BitVec.toNat_zero]
  omega

/-! ## Dictionary entries -/

theorem reads_rddict {sym : Byte} {w : BitVec 8} (hw : dictSelectorOk w = true) (s : State) :
    Reads (.rddict sym w) s (dictWord (dictRead s.dict sym) w) :=
  execRddict_of_selector hw sym s

/-- The header: valid above len (R92). -/
theorem dictHeader_toNat (e : DictEntry) : (dictHeader e).toNat = e.isSome.toNat * 2 ^ 31 + (entryCode e).length % 2 ^ 8 := by
  rw [dictHeader, toNat_append, toNat_zero_append, BitVec.toNat_ofBool, entryLen, BitVec.toNat_ofNat]

/-- A code slice, left-aligned: bit 31 − j is bit j of the slice (R92). -/
theorem getLsbD_dictWord (e : DictEntry) {w : BitVec 8} (hw : 1 ≤ w.toNat) {j : Nat} (hj : j < 32) :
    (dictWord e w).getLsbD (31 - j) = (entryCode e).getD (32 * (w.toNat - 1) + j) false := by
  have hw0 : w ≠ 0#8 := by rintro rfl; cases hw
  rw [dictWord, if_neg hw0, getLsbD_msbFirst 32 _ j hj, List.getD_eq_getElem?_getD, List.getElem?_drop,
    List.getD_eq_getElem?_getD]

end Sys2Proof.Machine

namespace Sys2Proof

open Sys2Proof.Machine Sys2Proof.Safety

/-- Settles O24: word 1 is the frequency, word 0 the kind, the children and the symbol in their places. -/
theorem nodeReadOut : Obligations.NodeReadOut := by
  unfold Obligations.NodeReadOut
  intro s n nd h
  refine ⟨reads_rdnode rfl h, _, reads_rdnode rfl h, ?_⟩
  cases nd with
  | leaf sym f => simp [nodeWord_zero_toNat, nodeIsInternal, nodeLeft, nodeRight, nodeSym, Config.nilIdx]
  | internal f l r => simp [nodeWord_zero_toNat, nodeIsInternal, nodeLeft, nodeRight, nodeSym]

/-- Settles O25: the header's fields, and the bits of each slice. -/
theorem dictionaryReadOut : Obligations.DictionaryReadOut := by
  unfold Obligations.DictionaryReadOut
  intro s sym
  constructor
  · refine ⟨_, reads_rddict rfl s, ?_⟩
    rw [dictWord, if_pos rfl, dictHeader_toNat]
    cases dictRead s.dict sym with
    | none => simp [entryCode]
    | some code => simp [entryCode]
  · intro w hw1 hw8
    refine ⟨_, reads_rddict (by simp [dictSelectorOk]; omega) s, fun j hj => ?_⟩
    rw [getLsbD_dictWord _ hw1 hj]
    cases dictRead s.dict sym with
    | none => rfl
    | some code => rfl

/-- Settles O22: each register by its number, and the byte at an index where one stands. -/
theorem scalarReadOuts : Obligations.ScalarReadOuts := by
  unfold Obligations.ScalarReadOuts
  intro s
  exact ⟨rfl, rfl, rfl, rfl, reads_rdreg_length rfl, rfl, reads_rdreg_length rfl, reads_rdreg_length rfl, rfl,
    reads_rdreg_length rfl, reads_rdreg_length rfl, rfl, rfl, rfl, rfl, rfl, fun n b => readOut_memRead _ s,
    fun n b => readOut_memRead _ s, fun n b => readOut_memRead _ s⟩

/-- Settles O23: every symbol has its count, and a position below NC_SIZE its node index. -/
theorem countAndPositionReadOuts : Obligations.CountAndPositionReadOuts := by
  unfold Obligations.CountAndPositionReadOuts
  intro s
  refine ⟨fun sym => rfl, fun p n h => readOut_of_eq_some _ _ s ?_⟩
  rw [h, Option.map_some, setWidth_eq_append (m := 23)]

end Sys2Proof

/-! SUPPORT. What seeding and each merge make of ARENA and NC (40_tree_builder.md R101 to R111): NC keeps equal frequencies in the order of
their indices, the merges only append Internal nodes, and every round of the loop that has two entries takes one away. -/

namespace Sys2Proof.Machine

open Sys2Proof.Safety

/-! ## The symbols present -/

theorem presentSymbols_eq_nil_iff {t : FreqTable} : presentSymbols t = [] ↔ ∀ sym, ftRead t sym = 0#32 := by
  simp [presentSymbols, mem_allSymbols, BitVec.toNat_eq]

theorem mem_presentSymbols {t : FreqTable} {sym : Byte} : sym ∈ presentSymbols t ↔ ftRead t sym ≠ 0#32 := by
  simp [presentSymbols, mem_allSymbols, BitVec.toNat_eq, Nat.pos_iff_ne_zero]

theorem nodup_presentSymbols (t : FreqTable) : (presentSymbols t).Nodup := nodup_allSymbols.filter _

theorem presentSymbols_length_le (t : FreqTable) : (presentSymbols t).length ≤ 256 :=
  (List.length_filter_le _ _).trans (by simp [allSymbols])

/-- The sum is above 0 exactly when a count is (R43). -/
theorem ftTotal_pos_iff {t : FreqTable} : 0 < ftTotal t ↔ presentSymbols t ≠ [] := by
  rw [Nat.pos_iff_ne_zero, not_iff_not, presentSymbols_eq_nil_iff, ftTotal_eq_sum, List.sum_eq_zero_iff]
  simp [mem_allSymbols, BitVec.toNat_eq]

/-! ## Seeding -/

section Seeded

variable {t : FreqTable} {b : Builder}

theorem Seeded.arena_eq (h : Seeded t allSymbols b) :
    b.arena = (presentSymbols t).map fun sym => Node.leaf sym (ftRead t sym) := h.arena

theorem Seeded.arena_length (h : Seeded t allSymbols b) : b.arena.length = (presentSymbols t).length := by
  rw [h.arena_eq, List.length_map]

theorem Seeded.nc_length (h : Seeded t allSymbols b) : b.nc.length = (presentSymbols t).length := by
  rw [h.roots.length_eq, List.length_map, List.length_range, h.arena_length]

/-- Every node of the seeding is a Leaf. -/
theorem Seeded.leafCount_eq (h : Seeded t allSymbols b) : leafCount b.arena = (presentSymbols t).length := by
  rw [← h.arena_length]
  refine List.countP_eq_length.mpr fun nd hnd => ?_
  rw [h.arena_eq] at hnd
  obtain ⟨sym, -, rfl⟩ := List.mem_map.mp hnd
  rfl

end Seeded

/-- NC's order among nodes never merged: ascending frequency, equal frequencies by ascending index (R101, R105). -/
def TiesByIndex (b : Builder) : Prop :=
  b.nc.Pairwise fun p q => freqOf b.arena p < freqOf b.arena q ∨ (freqOf b.arena p = freqOf b.arena q ∧ p.toNat < q.toNat)

/-- An index greater than the others goes after its equals, so equal frequencies stay in the order of their indices. -/
theorem ncInsert_tiesByIndex {b b' : Builder} {n : Idx} (hn : n.toNat < b.arena.length) (hb : ∀ q ∈ b.nc, q.toNat < n.toNat)
    (hties : TiesByIndex b) (h : ncInsert b n = .ok b') : TiesByIndex b' := by
  obtain ⟨before, after, hnc, hinsert, hbefore, hafter, -⟩ :=
    ncInsert_sorted hn (fun q hq => (hb q hq).trans hn) (hties.imp fun hpq => by omega)
  obtain rfl := Except.ok.inj (hinsert.symm.trans h)
  rw [TiesByIndex, hnc, List.pairwise_append] at hties
  obtain ⟨htiesBefore, htiesAfter, hcross⟩ := hties
  refine List.pairwise_append.mpr ⟨htiesBefore, List.pairwise_cons.mpr ⟨fun q hq => .inl (hafter q hq), htiesAfter⟩, ?_⟩
  intro p hp q hq
  rcases List.mem_cons.mp hq with rfl | hq
  · exact (hbefore p hp).lt_or_eq.imp_right fun heq => ⟨heq, hb p (hnc ▸ List.mem_append_left _ hp)⟩
  · exact hcross p hp q hq

theorem addNode_tiesByIndex {b b' : Builder} {nd : Node} (hlen : b.arena.length < 2 ^ 9)
    (hb : ∀ q ∈ b.nc, q.toNat < b.arena.length) (hties : TiesByIndex b) (h : addNode b nd = .ok b') : TiesByIndex b' := by
  have hnew : (BitVec.ofNat 9 b.arena.length).toNat = b.arena.length := by simp; omega
  refine ncInsert_tiesByIndex (by simp; omega) (hnew.symm ▸ hb) ?_ h
  exact hties.imp_of_mem fun hp hq hpq => by
    rwa [freqOf_append_of_lt _ (hb _ hp), freqOf_append_of_lt _ (hb _ hq)]

theorem seedSymbol_tiesByIndex {t : FreqTable} {b b' : Builder} {sym : Byte} (hlen : b.arena.length < 2 ^ 9)
    (hb : ∀ q ∈ b.nc, q.toNat < b.arena.length) (hties : TiesByIndex b) (h : seedSymbol t b sym = .ok b') : TiesByIndex b' := by
  rw [seedSymbol] at h
  split at h
  · exact addNode_tiesByIndex hlen hb hties h
  · exact Except.ok.inj h ▸ hties

theorem seedSymbols_tiesByIndex {t : FreqTable} {done rest : List Byte} {b b' : Builder} (hb : Seeded t done b)
    (hlen : (done ++ rest).length ≤ 512) (hties : TiesByIndex b) (h : rest.foldlM (seedSymbol t) b = .ok b') :
    TiesByIndex b' := by
  induction rest generalizing done b with
  | nil => exact Except.ok.inj h ▸ hties
  | cons sym rest ih =>
    have hdone : done.length < 512 := by simp at hlen; omega
    obtain ⟨b₁, hsym, hb₁⟩ := seedSymbol_ok sym hb hdone
    have hties₁ := seedSymbol_tiesByIndex (hb.length_le.trans_lt hdone) (fun q => hb.root_lt) hties hsym
    rw [List.foldlM_cons, hsym] at h
    exact ih hb₁ (by simpa using hlen) hties₁ h

theorem seed_tiesByIndex {t : FreqTable} {b : Builder} (h : seed t = .ok b) : TiesByIndex b :=
  seedSymbols_tiesByIndex (done := []) (b := ⟨[], []⟩) ⟨rfl, .refl _, .nil, rfl⟩ (by simp [allSymbols]) List.Pairwise.nil h

/-- An insert adds the index to the others (R103). -/
theorem ncInsert_perm {b : Builder} {n : Idx} (hn : n.toNat < b.arena.length) (hb : ∀ q ∈ b.nc, q.toNat < b.arena.length) :
    ∃ nc, ncInsert b n = .ok { b with nc := nc } ∧ nc.Perm (n :: b.nc) := by
  obtain ⟨p, h⟩ := ncInsert_ok hn hb
  exact ⟨_, h, List.perm_middle.trans (by rw [List.take_append_drop])⟩

/-! ## Merging -/

/-- An index stands once in the collection. -/
theorem Forest.nodup {arena : List Node} {nc : List Idx} (h : Forest arena nc) : nc.Nodup := by
  refine List.nodup_iff_count_le_one.mpr fun q => ?_
  by_cases hq : q ∈ nc
  · have := h.onePlace q (h.rootsBelow q hq)
    omega
  · simp [List.count_eq_zero.mpr hq]

theorem leafCount_append (nodes merged : List Node) : leafCount (nodes ++ merged) = leafCount nodes + leafCount merged :=
  List.countP_append

/-- A merge of two nodes that exist is the adding of their parent (R106). -/
theorem mergeStep_eq_addNode {arena : List Node} {a c : Idx} {rest : List Idx} {x y : Node} (hx : arena[a.toNat]? = some x)
    (hy : arena[c.toNat]? = some y) :
    mergeStep ⟨arena, a :: c :: rest⟩ = addNode ⟨arena, rest⟩ (.internal (nodeFreq x + nodeFreq y) a c) := by
  simp [mergeStep, ncRemoveMin, (nodeAt_ok_iff _ _ _).mpr hx, (nodeAt_ok_iff _ _ _).mpr hy, bind, Except.bind]

/-- The loop only appends Internal nodes (R109). -/
theorem mergeAll_arena {k : Nat} {b b' : Builder} (h : mergeAll k b = .ok b') :
    ∃ merged, b'.arena = b.arena ++ merged ∧ leafCount merged = 0 := by
  induction k generalizing b with
  | zero => exact ⟨[], by simp [← Except.ok.inj h], rfl⟩
  | succ k ih =>
    by_cases hnc : 1 < b.nc.length
    · cases hstep : mergeStep b with
      | error e => simp [mergeAll, hnc, hstep, bind, Except.bind] at h
      | ok b₁ =>
        rw [mergeAll_step hnc hstep] at h
        obtain ⟨merged, harena, hleaves⟩ := ih h
        obtain ⟨a, c, rest, x, y, p, -, -, -, harena₁, -⟩ := mergeStep_inv hstep
        refine ⟨.internal (nodeFreq x + nodeFreq y) a c :: merged, by simp [harena, harena₁], ?_⟩
        simpa [leafCount, nodeIsInternal] using hleaves
    · rw [mergeAll_stop (by omega)] at h
      exact ⟨[], by simp [← Except.ok.inj h], rfl⟩

/-- After k rounds min(k, NC_SIZE − 1) merges are done, each of which took one entry away and appended one node (R103, R110). -/
theorem mergeAll_rounds (k : Nat) {b : Builder} (h : Forest b.arena b.nc) : ∃ b', mergeAll k b = .ok b' ∧
    b'.nc.length + min k (b.nc.length - 1) = b.nc.length ∧ b'.arena.length = b.arena.length + min k (b.nc.length - 1) := by
  induction k generalizing b with
  | zero => exact ⟨b, rfl, by omega, by omega⟩
  | succ k ih =>
    by_cases hnc : 1 < b.nc.length
    · obtain ⟨b₁, hstep, hforest, -⟩ := mergeStep_ok h hnc
      obtain ⟨a, c, rest, x, y, p, -, -, -, harena, -⟩ := mergeStep_inv hstep
      have hdown := mergeStep_length hstep
      have hup := congrArg List.length harena
      obtain ⟨b', hall, hlen, hlen'⟩ := ih hforest
      rw [List.length_append, List.length_singleton] at hup
      exact ⟨b', by rw [mergeAll_step hnc hstep, hall], by omega, by omega⟩
    · exact ⟨b, mergeAll_stop (by omega), by omega, by omega⟩

/-! ## BUILD -/

/-- BUILD's start lowers three flags (R104). -/
@[simp] theorem flag_buildCleared (s : State) (f : Flag) : (buildCleared s).flag f =
    if f = .leafRoot ∨ f = .dictValid ∨ f = .treeValid then false else s.flag f := by
  cases f <;> simp [buildCleared, State.flag_eq]

theorem buildTree_of_no_symbol {t : FreqTable} (h : presentSymbols t = []) : buildTree t = .error (.raised .empty 0) := by
  obtain ⟨b, hseed, hb⟩ := seed_ok t
  have hnc : b.nc = [] := List.length_eq_zero_iff.mp (by rw [hb.nc_length, h, List.length_nil])
  simp [buildTree, hseed, hnc, bind, Except.bind]

/-- With a symbol present the tree is what the merges make of the seeding (R104). -/
theorem buildTree_of_symbol {t : FreqTable} (h : presentSymbols t ≠ []) : ∃ b₀ b root nd, seed t = .ok b₀ ∧
    Seeded t allSymbols b₀ ∧ mergeAll b₀.nc.length b₀ = .ok b ∧ buildTree t = .ok (b, root, nd) ∧ Built t b root nd := by
  obtain ⟨b₀, hseed, hb₀⟩ := seed_ok t
  have hne : b₀.nc ≠ [] := fun hnil => h (List.length_eq_zero_iff.mp (by rw [← hb₀.nc_length, hnil, List.length_nil]))
  obtain ⟨arena, root, hall, hforest, -⟩ := mergeAll_ok hb₀.forest hne (Nat.le_succ b₀.nc.length)
  have hroot : root.toNat < arena.length := hforest.rootsBelow root (by simp)
  have hnode := List.getElem?_eq_getElem hroot
  have hbuild : buildTree t = .ok (⟨arena, [root]⟩, root, arena[root.toNat]) := by
    simp [buildTree, hseed, hne, hall, ncHead, (nodeAt_ok_iff _ _ _).mpr hnode, bind, Except.bind, pure, Except.pure]
  exact ⟨b₀, _, root, _, hseed, hb₀, hall, hbuild, built_of_buildTree hbuild⟩

/-- BUILD with a count in FT, its gates passed (R104). -/
theorem execBuild_ok {s : State} {b : Builder} {root : Idx} {nd : Node} (hfatal : s.flag .fatal = false)
    (hft : s.flag .ftValid = true) (h : buildTree s.ft = .ok (b, root, nd)) : exec .build s = .next
    (State.respond { buildCleared s with
      arena := b.arena
      nc := b.nc
      root := root
      status := putFlag (putFlag (buildCleared s).status .leafRoot (!nodeIsInternal nd)) .treeValid true } 0#4 0#32) := by
  simp [exec, execBuild, hfatal, hft, h, succeed_eq]

end Sys2Proof.Machine

namespace Sys2Proof.Safety

open Sys2Proof.Machine

/-- The root is a Leaf exactly in a tree of one leaf: it is the last of the 2L − 1 nodes, and the leaves are the first L (R107, R109). -/
theorem TreeWf.isLeafAt_root {arena : List Node} {root : Idx} (h : TreeWf arena root) :
    isLeafAt arena root = decide (leafCount arena = 1) := by
  have hsize := h.size
  have hlast := h.rootLast
  have hnode := List.getElem?_eq_getElem h.root_lt
  have hfirst := h.leavesFirst _ _ hnode
  have hleaf : isLeafAt arena root = !nodeIsInternal (arena[root.toNat]'h.root_lt) := by
    rw [isLeafAt, hnode]
    cases arena[root.toNat]'h.root_lt <;> rfl
  rw [hleaf, Bool.eq_iff_iff, Bool.not_eq_true', hfirst, decide_eq_true_eq]
  omega

end Sys2Proof.Safety

namespace Sys2Proof

open Sys2Proof.Machine Sys2Proof.Safety

/-- Settles O27: each byte of the input adds one to its symbol's count. -/
theorem freqCountsOccurrences : Obligations.FreqCountsOccurrences := by
  unfold Obligations.FreqCountsOccurrences
  refine ⟨by decide, fun s hf => ⟨_, execFreq_ok hf, rfl, fun sym => ?_, by simp [State.flag_eq], fun f hne => ?_, rfl⟩⟩
  · rw [State.respond_ft, ftRead_foldl_countByte, ftRead_ftZero, BitVec.zero_add, BitVec.toNat_ofNat]
  · have hfv : f ≠ .ftValid := by simpa using hne
    simp [hfv, State.flag_eq]

/-- Settles O29: without a symbol the seeding leaves NC empty, and EMPTY is recorded on the cleared state. -/
theorem buildOfEmptyTable : Obligations.BuildOfEmptyTable := by
  unfold Obligations.BuildOfEmptyTable
  refine ⟨fun s hfatal hft => by simp [exec, execBuild, hfatal, hft, opcodeOf], fun s hfatal hft hzero => ?_⟩
  have hbuild := buildTree_of_no_symbol (presentSymbols_eq_nil_iff.mpr hzero)
  refine ⟨_, by rw [exec, execBuild, unlessHalted_of_not_fatal hfatal, requireFlag_of_set hft, hbuild, complete_raised, raise_eq],
    rfl, by simp [errFatal], by simp, by simp, by simp, fun f hf => ?_⟩
  obtain ⟨hne, htree, hdict, hleaf⟩ : f ≠ .fatal ∧ f ≠ .treeValid ∧ f ≠ .dictValid ∧ f ≠ .leafRoot := by simpa using hf
  simp [hne, htree, hdict, hleaf]

/-- Settles O32: the count of the entries of at most the frequency is the place between those and the greater ones. -/
theorem insertIsStableAndSorted : Obligations.InsertIsStableAndSorted := by
  unfold Obligations.InsertIsStableAndSorted
  exact fun b n hn hb hsorted => ncInsert_sorted hn hb hsorted

/-- Settles O33: each leaf is inserted with the greatest index so far. -/
theorem seedOrdersTheLeaves : Obligations.SeedOrdersTheLeaves := by
  unfold Obligations.SeedOrdersTheLeaves
  intro t
  obtain ⟨b, hseed, hb⟩ := seed_ok t
  exact ⟨b, hseed, hb.arena_eq, hb.arena_length ▸ hb.roots, seed_tiesByIndex hseed⟩

/-- Settles O34: a merge is the adding of one node to the rest of the collection, and adding is a sorted insertion. -/
theorem mergeTakesTheTwoHeads : Obligations.MergeTakesTheTwoHeads := by
  unfold Obligations.MergeTakesTheTwoHeads
  refine ⟨fun r rest => rfl, rfl, fun arena merged a c rest x y hlen hx hy hrest hmerged => ?_⟩
  have hnew : (BitVec.ofNat 9 arena.length).toNat = arena.length := by simp; omega
  have hnewLt : (BitVec.ofNat 9 arena.length).toNat < merged.length := by simp [hmerged]; omega
  have hrest' : ∀ q ∈ rest, q.toNat < merged.length := fun q hq => by
    have := hrest q hq
    simp [hmerged]; omega
  obtain ⟨nc, hinsert, hperm⟩ := ncInsert_perm (b := ⟨merged, rest⟩) hnewLt hrest'
  have hmerge : mergeStep ⟨arena, a :: c :: rest⟩ = ncInsert ⟨merged, rest⟩ (BitVec.ofNat 9 arena.length) := by
    rw [mergeStep_eq_addNode hx hy, hmerged]
    rfl
  refine ⟨nc, hmerge.trans hinsert, hinsert, by simp [hperm.length_eq], hperm, fun hsorted => ?_⟩
  have hfreq : ∀ q ∈ rest, freqOf merged q = freqOf arena q := fun q hq => by
    rw [hmerged, freqOf_append_of_lt _ (hrest q hq)]
  have hfreqNew : freqOf merged (BitVec.ofNat 9 arena.length) = (nodeFreq x + nodeFreq y).toNat :=
    freqOf_of_node (nd := .internal (nodeFreq x + nodeFreq y) a c) (by rw [hmerged, hnew]; simp)
  obtain ⟨before, after, rfl, hinsert', hbefore, hafter, hnc⟩ := ncInsert_sorted (b := ⟨merged, rest⟩) hnewLt hrest'
    (hsorted.imp_of_mem fun hp hq hpq => by rwa [hfreq _ hp, hfreq _ hq])
  simp only [hfreqNew] at hbefore hafter
  obtain rfl : nc = before ++ BitVec.ofNat 9 arena.length :: after := by simpa [hinsert] using hinsert'
  refine ⟨before, after, rfl, rfl, fun q hq => ?_, fun q hq => ?_, hnc⟩
  · rw [← hfreq q (by simp [hq])]
    exact hbefore q hq
  · rw [← hfreq q (by simp [hq])]
    exact hafter q hq

/-- Settles O35: the seeding makes L nodes and L entries, and each round with two entries takes one away and appends one node. -/
theorem buildStaysWithinItsSpaces : Obligations.BuildStaysWithinItsSpaces := by
  unfold Obligations.BuildStaysWithinItsSpaces
  refine ⟨fun t k => ?_, fun s t r h hr hcode => ?_⟩
  · obtain ⟨b, hseed, hb⟩ := seed_ok t
    obtain ⟨b', hall, hnc, harena⟩ := mergeAll_rounds k hb.forest
    have hL := presentSymbols_length_le t
    rw [hb.nc_length] at hnc harena
    rw [hb.arena_length] at harena
    exact ⟨b, b', hseed, hall, hnc, harena, by simp only [Config.ncMax]; omega, by simp only [Config.nodeMax]; omega⟩
  · rcases exec_answers (i := .build) (by decide) h hr with ⟨u, -, hok, -⟩ | ⟨k, info, u, hu, -, hk, -⟩
    · rw [hok] at hcode
      cases hcode
    · obtain rfl : k = .alloc := errCode_injective (hk.symm.trans hcode)
      rcases hu with ⟨hrefusal, -⟩ | hstop
      · cases hrefusal
      · simpa [IsDecode] using hstop.kind

/-- Settles O30: the merges append Internal nodes to the seeded leaves until one tree is left, whose frequencies do not wrap. -/
theorem buildMakesTheTree : Obligations.BuildMakesTheTree := by
  unfold Obligations.BuildMakesTheTree
  refine ⟨by decide, fun s hfatal hft hpos hlt => ?_⟩
  obtain ⟨b₀, b, root, nd, hseed, hb₀, hall, hbuild, hbuilt⟩ := buildTree_of_symbol (ftTotal_pos_iff.mp hpos)
  obtain ⟨merged, harena, hmerged⟩ := mergeAll_arena hall
  have htree := hbuilt.treeWf hlt
  have hleaves : leafCount b.arena = (presentSymbols s.ft).length := by
    rw [harena, leafCount_append, hb₀.leafCount_eq, hmerged, Nat.add_zero]
  refine ⟨_, execBuild_ok hfatal hft hbuild, rfl, ⟨b₀, hseed, hall⟩, ?_, hleaves, htree, everyNodeIsReachable _ _ htree, hbuilt.nc,
    ?_, by simp [State.flag_eq], by simp [State.flag_eq, buildCleared], ?_, fun f hf => ?_, rfl⟩
  · rw [← hb₀.arena_eq, ← hb₀.arena_length, State.respond_arena, harena, List.take_left]
  · simpa using (hbuilt.exact hlt).roots
  · rw [← hleaves, ← htree.isLeafAt_root, hbuilt.isLeafAt]
    simp [State.flag_eq]
  · obtain ⟨htree, hdict, hleaf⟩ : f ≠ .treeValid ∧ f ≠ .dictValid ∧ f ≠ .leafRoot := by simpa using hf
    simp [State.flag_eq, buildCleared, htree, hdict, hleaf]

/-- Settles O31: the tree of one symbol has one node. -/
theorem buildOfOneSymbol : Obligations.BuildOfOneSymbol := by
  unfold Obligations.BuildOfOneSymbol
  intro s sym hfatal hft hsym hother
  have htotal : ftTotal s.ft = (ftRead s.ft sym).toNat := by
    have hsum := sum_allSymbols_update (sym := sym) (f := fun x => (ftRead s.ft x).toNat) (g := fun _ => 0)
      fun x hx => by simp [hother x hx]
    simpa [← ftTotal_eq_sum] using hsum
  have hpos : 0 < ftTotal s.ft := by
    rw [htotal]
    exact Nat.pos_of_ne_zero fun h => hsym (BitVec.eq_of_toNat_eq h)
  have hpresent : presentSymbols s.ft = [sym] := by
    refine List.perm_singleton.mp ((List.perm_ext_iff_of_nodup (nodup_presentSymbols _) (List.nodup_singleton _)).mpr fun x => ?_)
    rw [mem_presentSymbols, List.mem_singleton]
    exact ⟨fun hx => by_contra fun hne => hx (hother x hne), fun hx => hx ▸ hsym⟩
  obtain ⟨t, hexec, hframe, -, hleaf, hcount, htree, -, hnc, -, hvalid, hdict, hroot, hkept, hanswer⟩ :=
    buildMakesTheTree.2 s hfatal hft hpos (htotal ▸ (ftRead s.ft sym).isLt)
  have hsize := htree.size
  have hlast := htree.rootLast
  simp only [hpresent, List.length_singleton, List.map_singleton] at hleaf hcount hroot
  have harena : t.arena = [.leaf sym (ftRead s.ft sym)] := by
    rw [← hleaf, List.take_of_length_le (by omega)]
  have hzero : t.root = 0#9 := BitVec.eq_of_toNat_eq (by simp; omega)
  refine ⟨t, hexec, ?_, hvalid, by simpa using hroot, hdict, hkept, hanswer⟩
  rw [harena, hnc, hzero] at hframe
  exact hframe

end Sys2Proof

/-! SUPPORT. Why the greedy merge is optimal (40_tree_builder.md R113): code lengths meet Kraft's inequality when no word begins another, any such
lengths of a collection give, with no greater total, such lengths of the collection after a merge, and the depths in the tree that the merges make
lose exactly the merged frequency. -/

namespace Sys2Proof.Safety

open Sys2Proof.Machine

/-! ## Lengths that meet Kraft's inequality -/

/-- Lengths of at most `N` that meet Kraft's inequality, in units of 2^−N. -/
structure KraftLengths {ι : Type} (N : Nat) (S : Finset ι) (len : ι → Nat) : Prop where
  le : ∀ x ∈ S, len x ≤ N
  sum : ∑ x ∈ S, 2 ^ (N - len x) ≤ 2 ^ N

/-- The total length under the weights `w`. -/
def totalLength {ι : Type} (w len : ι → Nat) (S : Finset ι) : Nat := ∑ x ∈ S, w x * len x

/-- A code without the empty word, none of whose words begins another, is uniquely decodable: the first words of two equal
concatenations are equal. -/
theorem uniquelyDecodable_of_prefix_free {α : Type} {S : Set (List α)} (hnil : [] ∉ S)
    (hpre : ∀ u ∈ S, ∀ v ∈ S, u <+: v → u = v) : InformationTheory.UniquelyDecodable S := by
  have hempty : ∀ L : List (List α), (∀ w ∈ L, w ∈ S) → L.flatten = [] → L = [] := fun L hL hflat =>
    List.eq_nil_iff_forall_not_mem.mpr fun w hw => hnil (List.flatten_eq_nil_iff.mp hflat w hw ▸ hL w hw)
  intro L₁
  induction L₁ with
  | nil => exact fun L₂ _ h₂ hflat => (hempty L₂ h₂ hflat.symm).symm
  | cons u L₁ ih =>
    intro L₂ h₁ h₂ hflat
    cases L₂ with
    | nil => exact hempty _ h₁ hflat
    | cons v L₂ =>
      simp only [List.mem_cons, forall_eq_or_imp] at h₁ h₂
      simp only [List.flatten_cons] at hflat
      obtain rfl : u = v := by
        rcases List.prefix_or_prefix_of_prefix ⟨_, hflat⟩ (List.prefix_append v L₂.flatten) with h | h
        · exact hpre u h₁.1 v h₂.1 h
        · exact (hpre v h₂.1 u h₁.1 h).symm
      rw [ih L₂ h₁.2 h₂.2 (List.append_cancel_left hflat)]

/-- The lengths of a code of at least two symbols, none of whose words begins another, meet Kraft's inequality. -/
theorem kraftLengths_of_prefix_free {ι : Type} {N : Nat} {S : Finset ι} {code : ι → List Bool} (hcard : 1 < S.card)
    (hpre : ∀ a ∈ S, ∀ b ∈ S, a ≠ b → ¬ code a <+: code b) (hN : ∀ a ∈ S, (code a).length ≤ N) :
    KraftLengths N S fun a => (code a).length := by
  classical
  have heq : ∀ a ∈ S, ∀ b ∈ S, code a <+: code b → a = b := fun a ha b hb h => by_contra fun hne => hpre a ha b hb hne h
  have hinj : Set.InjOn code S := fun a ha b hb h => heq a ha b hb (h ▸ List.prefix_rfl)
  have hdecodable : InformationTheory.UniquelyDecodable ((S.image code : Finset (List Bool)) : Set (List Bool)) := by
    refine uniquelyDecodable_of_prefix_free (fun hnil => ?_) fun u hu v hv h => ?_
    · obtain ⟨a, ha, hcode⟩ := Finset.mem_image.mp hnil
      obtain ⟨b, hb, hne⟩ := Finset.exists_mem_ne hcard a
      exact hpre a ha b hb hne.symm (hcode ▸ List.nil_prefix)
    · obtain ⟨a, ha, rfl⟩ := Finset.mem_image.mp hu
      obtain ⟨b, hb, rfl⟩ := Finset.mem_image.mp hv
      rw [heq a ha b hb h]
  have hkraft := InformationTheory.kraft_mcmillan_inequality hdecodable
  rw [Finset.sum_image hinj, Fintype.card_bool] at hkraft
  have hscale : ((∑ a ∈ S, 2 ^ (N - (code a).length) : Nat) : ℝ) = 2 ^ N * ∑ a ∈ S, (1 / (2 : Nat) : ℝ) ^ (code a).length := by
    rw [Finset.mul_sum]
    push_cast
    refine Finset.sum_congr rfl fun a ha => ?_
    rw [pow_sub₀ _ two_ne_zero (hN a ha), one_div, inv_pow]
  refine ⟨hN, ?_⟩
  have hle : ((∑ a ∈ S, 2 ^ (N - (code a).length) : Nat) : ℝ) ≤ 2 ^ N := by
    rw [hscale]
    exact mul_le_of_le_one_right (by positivity) hkraft
  exact_mod_cast hle

/-! ## The exchange -/

section Exchange

variable {ι : Type} [DecidableEq ι] {N : Nat} {S : Finset ι} {w len : ι → Nat}

theorem perm_mem {σ : Equiv.Perm ι} (hσ : {x | σ x ≠ x} ⊆ S) {x : ι} (hx : x ∈ S) : σ x ∈ S := by
  by_cases hfix : σ x = x
  · rwa [hfix]
  · exact hσ fun hfix' => hfix (σ.injective hfix')

theorem KraftLengths.comp_perm {σ : Equiv.Perm ι} (h : KraftLengths N S len) (hσ : {x | σ x ≠ x} ⊆ S) :
    KraftLengths N S (len ∘ σ) where
  le _ hx := h.le _ (perm_mem hσ hx)
  sum := (Equiv.Perm.sum_comp σ S (fun x => 2 ^ (N - len x)) hσ).trans_le h.sum

theorem totalLength_eq_add_erase (w len : ι → Nat) {a : ι} (ha : a ∈ S) :
    totalLength w len S = w a * len a + totalLength w len (S.erase a) :=
  (Finset.add_sum_erase S (fun x => w x * len x) ha).symm

theorem totalLength_insert (w len : ι → Nat) {a : ι} (ha : a ∉ S) :
    totalLength w len (insert a S) = w a * len a + totalLength w len S :=
  Finset.sum_insert ha

/-- Exchanging the greatest length with that of the least weight does not raise the total. -/
theorem exists_perm_longest (len : ι → Nat) {a : ι} (ha : a ∈ S) (hw : ∀ x ∈ S, w a ≤ w x) : ∃ σ : Equiv.Perm ι,
    {x | σ x ≠ x} ⊆ S ∧ (∀ x ∈ S, len (σ x) ≤ len (σ a)) ∧ totalLength w (len ∘ σ) S ≤ totalLength w len S := by
  obtain ⟨m, hm, hmax⟩ := S.exists_max_image len ⟨a, ha⟩
  have hsupport : ({x | Equiv.swap a m x ≠ x} : Set ι) ⊆ S := fun x hx => by
    rcases (Equiv.swap_apply_ne_self_iff.mp hx).2 with rfl | rfl <;> assumption
  refine ⟨Equiv.swap a m, hsupport, fun x hx => ?_, ?_⟩
  · rw [Equiv.swap_apply_left]
    exact hmax _ (perm_mem hsupport hx)
  · by_cases hne : m = a
    · simp [hne]
    have hm' : m ∈ S.erase a := Finset.mem_erase.mpr ⟨hne, hm⟩
    have hrest : totalLength w (len ∘ Equiv.swap a m) ((S.erase a).erase m) = totalLength w len ((S.erase a).erase m) :=
      Finset.sum_congr rfl fun x hx => by
        obtain ⟨hxm, hxa, -⟩ : x ≠ m ∧ x ≠ a ∧ x ∈ S := by simpa using hx
        rw [Function.comp_apply, Equiv.swap_apply_of_ne_of_ne hxa hxm]
    have hswap := mul_add_mul_le_mul_add_mul (hw m hm) (hmax a ha)
    simp only [totalLength_eq_add_erase _ _ ha, totalLength_eq_add_erase _ _ hm', hrest, Function.comp_apply,
      Equiv.swap_apply_left, Equiv.swap_apply_right]
    omega

/-- Lengths can be exchanged so that the two least weights have the two greatest lengths, in that order. -/
theorem KraftLengths.exists_two_longest (h : KraftLengths N S len) {a c : ι} (ha : a ∈ S) (hc : c ∈ S.erase a)
    (hwa : ∀ x ∈ S, w a ≤ w x) (hwc : ∀ x ∈ S.erase a, w c ≤ w x) : ∃ len', KraftLengths N S len' ∧
    totalLength w len' S ≤ totalLength w len S ∧ len' c ≤ len' a ∧ ∀ x ∈ S.erase a, len' x ≤ len' c := by
  obtain ⟨σ, hσ, hlongest, hσtotal⟩ := exists_perm_longest len ha hwa
  obtain ⟨τ, hτ, hsecond, hτtotal⟩ := exists_perm_longest (len ∘ σ) hc hwc
  have hτS : ({x | τ x ≠ x} : Set ι) ⊆ S := hτ.trans (Finset.coe_subset.mpr (Finset.erase_subset a S))
  have hτa : τ a = a := by_contra fun hmoved => Finset.notMem_erase a S (hτ hmoved)
  have hτc : τ c ∈ S := perm_mem hτS (Finset.mem_of_mem_erase hc)
  refine ⟨(len ∘ σ) ∘ τ, (h.comp_perm hσ).comp_perm hτS, le_trans ?_ hσtotal, ?_, hsecond⟩
  · simpa only [totalLength_eq_add_erase _ _ ha, Function.comp_apply, hτa, add_le_add_iff_left] using hτtotal
  · simpa only [Function.comp_apply, hτa] using hlongest _ hτc

/-- When no word but the first is longer than the second, the inequality still holds with the first cut to the second's length: the sum of
the others falls short of 2^N, and both are multiples of the second's term. -/
theorem KraftLengths.add_le_of_longest {T : Finset ι} {a c : ι} (h : KraftLengths N (insert a (insert c T)) len)
    (ha : a ∉ insert c T) (hc : c ∉ T) (hT : ∀ x ∈ insert c T, len x ≤ len c) :
    2 * 2 ^ (N - len c) + ∑ x ∈ T, 2 ^ (N - len x) ≤ 2 ^ N := by
  have hsum := h.sum
  rw [Finset.sum_insert ha] at hsum
  have hdvd : 2 ^ (N - len c) ∣ ∑ x ∈ insert c T, 2 ^ (N - len x) :=
    Finset.dvd_sum fun x hx => pow_dvd_pow 2 (Nat.sub_le_sub_left (hT x hx) N)
  have hdvd' : 2 ^ (N - len c) ∣ 2 ^ N := pow_dvd_pow 2 (Nat.sub_le N _)
  have hpos : 0 < 2 ^ (N - len a) := Nat.two_pow_pos _
  have hle := Nat.le_of_dvd (by omega) (Nat.dvd_sub hdvd' hdvd)
  rw [Finset.sum_insert hc] at hsum hle
  omega

/-- A merge of the entries `a`, `c` and `T`: `a` and `c` have the least weights `w`, and under the weights `w'` the new entry `n` has their
sum in their place. -/
structure TwoLeastMerged (w w' : ι → Nat) (a c n : ι) (T : Finset ι) : Prop where
  first : a ∉ insert c T
  second : c ∉ T
  fresh : n ∉ T
  firstLeast : ∀ x ∈ insert c T, w a ≤ w x
  secondLeast : ∀ x ∈ T, w c ≤ w x
  sum : w' n = w a + w c
  kept : ∀ x ∈ T, w' x = w x

section Merged

variable {T : Finset ι} {a c n : ι} {w' : ι → Nat}

/-- After a merge there are lengths that meet Kraft's inequality, with a total less by the merged weight: the two longest words become one,
a bit shorter than the second. -/
theorem KraftLengths.exists_merged (h : KraftLengths N (insert a (insert c T)) len) (hmerge : TwoLeastMerged w w' a c n T) :
    ∃ len', KraftLengths N (insert n T) len' ∧
      totalLength w' len' (insert n T) + (w a + w c) ≤ totalLength w len (insert a (insert c T)) := by
  obtain ⟨ha, hc, hn, hwa, hwc, hwn, hw⟩ := hmerge
  have herase : (insert a (insert c T)).erase a = insert c T := Finset.erase_insert ha
  obtain ⟨len₂, hkraft, htotal, hca, hT⟩ := h.exists_two_longest (w := w) (Finset.mem_insert_self a _)
    (herase.symm ▸ Finset.mem_insert_self c T) (by simpa using hwa) (by simpa [herase] using hwc)
  rw [herase] at hT
  have hshort := hkraft.add_le_of_longest ha hc hT
  have hcN : len₂ c ≤ N := hkraft.le c (by simp)
  obtain ⟨m, hm⟩ : ∃ m, len₂ c = m + 1 := Nat.exists_eq_succ_of_ne_zero fun hzero => by
    rw [hzero, Nat.sub_zero] at hshort
    have := Nat.two_pow_pos N
    omega
  have hkept : ∀ x ∈ T, Function.update len₂ n m x = len₂ x := fun x hx =>
    Function.update_of_ne (ne_of_mem_of_not_mem hx hn) _ _
  refine ⟨Function.update len₂ n m, ⟨fun x hx => ?_, ?_⟩, le_trans ?_ htotal⟩
  · rcases Finset.mem_insert.mp hx with rfl | hx
    · rw [Function.update_self]; omega
    · rw [hkept x hx]
      exact hkraft.le x (by simp [hx])
  · have hdouble : 2 ^ (N - m) = 2 * 2 ^ (N - len₂ c) := by
      rw [← pow_succ', show N - m = N - len₂ c + 1 by omega]
    rw [Finset.sum_insert hn, Function.update_self, hdouble, Finset.sum_congr rfl fun x hx => by rw [hkept x hx]]
    exact hshort
  · have hrest : totalLength w' (Function.update len₂ n m) T = totalLength w len₂ T :=
      Finset.sum_congr rfl fun x hx => by rw [hkept x hx, hw x hx]
    have hlonger : w a * (m + 1) ≤ w a * len₂ a := Nat.mul_le_mul_left _ (hm ▸ hca)
    rw [totalLength_insert _ _ hn, totalLength_insert _ _ ha, totalLength_insert _ _ hc, hrest, Function.update_self, hwn, hm]
    linarith

/-- Lengths under which the merged entries are one longer than the new one lose the merged weight. -/
theorem TwoLeastMerged.totalLength_eq (hmerge : TwoLeastMerged w w' a c n T) (ha : len a = len n + 1) (hc : len c = len n + 1) :
    totalLength w len (insert a (insert c T)) = totalLength w' len (insert n T) + (w a + w c) := by
  have hrest : totalLength w' len T = totalLength w len T := Finset.sum_congr rfl fun x hx => by rw [hmerge.kept x hx]
  rw [totalLength_insert _ _ hmerge.first, totalLength_insert _ _ hmerge.second, totalLength_insert _ _ hmerge.fresh, hrest, ha, hc,
    hmerge.sum]
  ring

end Merged

end Exchange

/-! ## Depths -/

/-- `depth` gives every node that a path from the root leads to the path's length. -/
def IsDepth (arena : List Node) (root : Idx) (depth : Idx → Nat) : Prop :=
  ∀ path m, follow arena root path = some m → depth m = path.length

section Depth

variable {arena : List Node} {root : Idx} {depth : Idx → Nat}

theorem TreeWf.exists_isDepth (h : TreeWf arena root) : ∃ depth, IsDepth arena root depth := by
  have hlength : ∀ m : Idx, ∃ n, ∀ path, follow arena root path = some m → n = path.length := fun m => by
    by_cases hm : ∃ path, follow arena root path = some m
    · obtain ⟨path, hpath⟩ := hm
      exact ⟨path.length, fun path' hpath' => by rw [h.path_unique hpath hpath']⟩
    · exact ⟨0, fun path hpath => absurd ⟨path, hpath⟩ hm⟩
  choose depth hdepth using hlength
  exact ⟨depth, fun path m hpath => hdepth m path hpath⟩

theorem IsDepth.root_eq_zero (h : IsDepth arena root depth) : depth root = 0 := h [] root (follow_nil arena root)

/-- A child is one deeper than its parent. -/
theorem IsDepth.child (h : IsDepth arena root depth) (htree : TreeWf arena root) {n l r : Idx} {f : Count}
    (hn : arena[n.toNat]? = some (.internal f l r)) : depth l = depth n + 1 ∧ depth r = depth n + 1 := by
  obtain ⟨path, hpath⟩ := htree.exists_path n (lt_length_of_node hn)
  have hbranch : ∀ b : Bool, depth (if b then r else l) = depth n + 1 := fun b => by
    rw [h (path ++ [b]) _ (follow_concat_eq_some.mpr ⟨n, f, l, r, hpath, hn, rfl⟩), h path n hpath, List.length_append,
      List.length_singleton]
  exact ⟨hbranch false, hbranch true⟩

/-- Under an Internal root a leaf's depth is the length of its symbol's code (41_code_dict_generator.md R121). -/
theorem IsDepth.leaf (h : IsDepth arena root depth) (htree : TreeWf arena root) {q : Idx} {sym : Byte} {f : Count}
    (hroot : isLeafAt arena root = false) (hq : arena[q.toNat]? = some (.leaf sym f)) {d : Dictionary}
    (hd : ∀ sym code, dictRead d sym = some code ↔ IsCode arena root sym code) :
    depth q = ((dictRead d sym).getD []).length := by
  obtain ⟨path, hpath⟩ := htree.exists_path q (lt_length_of_node hq)
  have hcode : IsCode arena root sym path := by
    rcases htree.root_cases with ⟨sym', f', hleaf⟩ | ⟨f', l, r, hinternal⟩
    · simp [isLeafAt, hleaf] at hroot
    · exact (isCode_internal hinternal).mpr (leafOn_eq_some.mpr ⟨q, f, hpath, hq⟩)
  rw [(hd sym path).mpr hcode, Option.getD_some, h path q hpath]

end Depth

/-! ## The merges -/

/-- A merge of the collection merges its two least frequencies, and its new node is their parent. -/
theorem mergeStep_twoLeastMerged {b b' : Builder} {total : Nat} (hforest : Forest b.arena b.nc) (hstep : mergeStep b = .ok b')
    (hforest' : Forest b'.arena b'.nc) (hexact' : Exact b'.arena b'.nc total) : ∃ a c n T f,
    b.nc.toFinset = insert a (insert c T) ∧ b'.nc.toFinset = insert n T ∧ b'.arena[n.toNat]? = some (.internal f a c) ∧
      TwoLeastMerged (freqOf b.arena) (freqOf b'.arena) a c n T := by
  obtain ⟨a, c, rest, x, y, p, hnc, hx, hy, harena', hnc'⟩ := mergeStep_inv hstep
  have hperm : b'.nc.Perm (BitVec.ofNat 9 b.arena.length :: rest) := by
    rw [hnc']
    exact List.perm_middle.trans (by rw [List.take_append_drop])
  have hnode : b'.arena[(BitVec.ofNat 9 b.arena.length).toNat]? = some (.internal (nodeFreq x + nodeFreq y) a c) := by
    have hlt := hforest.length_lt (by simp [hnc])
    rw [harena']
    exact getElem?_concat_eq_some.mpr (.inr ⟨by simp; omega, rfl⟩)
  have hkept : ∀ q ∈ b.nc, freqOf b'.arena q = freqOf b.arena q := fun q hq => by
    rw [harena', freqOf_append_of_lt _ (hforest.rootsBelow q hq)]
  have hnodup := hforest.nodup
  have hsorted := hforest.rootsSorted
  rw [hnc, List.nodup_cons, List.nodup_cons] at hnodup
  rw [hnc, List.pairwise_cons, List.pairwise_cons] at hsorted
  obtain ⟨hfresh, -⟩ := List.nodup_cons.mp (hperm.nodup_iff.mp hforest'.nodup)
  refine ⟨a, c, _, rest.toFinset, _, by rw [hnc, List.toFinset_cons, List.toFinset_cons],
    by rw [List.toFinset_eq_of_perm _ _ hperm, List.toFinset_cons], hnode, ?_⟩
  exact {
    first := by simpa using hnodup.1
    second := by simpa using hnodup.2.1
    fresh := by simpa using hfresh
    firstLeast := by simpa using hsorted.1
    secondLeast := by simpa using hsorted.2.1
    sum := by
      rw [freqOf_of_node hnode, ← hkept a (by simp [hnc]), ← hkept c (by simp [hnc])]
      exact hexact'.internals _ _ _ _ hnode
    kept := fun q hq => hkept q (by simp [hnc, List.mem_toFinset.mp hq]) }

/-- The depths in the tree that the merges make have the least total among the lengths that meet Kraft's inequality: each merge takes the
merged frequency off the depths' total, and at least as much can be taken off that of any other lengths. -/
theorem totalLength_depth_le {k : Nat} {b b' : Builder} {root : Idx} {total N : Nat} {depth len : Idx → Nat}
    (hforest : Forest b.arena b.nc) (hexact : Exact b.arena b.nc total) (htotal : total < 2 ^ 32)
    (hall : mergeAll k b = .ok b') (hnc : b'.nc = [root]) (htree : TreeWf b'.arena root) (hdepth : IsDepth b'.arena root depth)
    (hlen : KraftLengths N b.nc.toFinset len) :
    totalLength (freqOf b.arena) depth b.nc.toFinset ≤ totalLength (freqOf b.arena) len b.nc.toFinset := by
  have hstop : totalLength (freqOf b'.arena) depth b'.nc.toFinset = 0 := by simp [totalLength, hnc, hdepth.root_eq_zero]
  induction k generalizing b len with
  | zero =>
    obtain rfl := Except.ok.inj hall
    omega
  | succ k ih =>
    by_cases hmore : 1 < b.nc.length
    · obtain ⟨b₁, hstep, hforest₁, hexact₁⟩ := mergeStep_ok hforest hmore
      have hexact₁ := hexact₁ total htotal hexact
      rw [mergeAll_step hmore hstep] at hall
      obtain ⟨a, c, n, T, f, hold, hnew, hnode, hmerge⟩ := mergeStep_twoLeastMerged hforest hstep hforest₁ hexact₁
      obtain ⟨merged, harena, -⟩ := mergeAll_arena hall
      have hnode' : b'.arena[n.toNat]? = some (.internal f a c) := by
        rw [harena, List.getElem?_append_left (lt_length_of_node hnode), hnode]
      obtain ⟨ha, hc⟩ := hdepth.child htree hnode'
      rw [hold] at hlen ⊢
      obtain ⟨len', hlen', hle⟩ := hlen.exists_merged hmerge
      have hih := ih hforest₁ hexact₁ hall (hnew ▸ hlen')
      rw [hnew] at hih
      rw [hmerge.totalLength_eq ha hc]
      omega
    · rw [mergeAll_stop (by omega)] at hall
      obtain rfl := Except.ok.inj hall
      omega

end Sys2Proof.Safety

namespace Sys2Proof.Machine

open Sys2Proof.Safety

/-! ## The seeded leaves -/

/-- The symbol of the node an index names; only used of indices of leaves. -/
def symbolOf (arena : List Node) (q : Idx) : Byte := ((arena[q.toNat]?).map nodeSym).getD 0#8

section Seeded

variable {t : FreqTable} {b : Builder}

/-- NC names the leaf of each symbol once. -/
theorem Seeded.symbols_perm (h : Seeded t allSymbols b) : (b.nc.map (symbolOf b.arena)).Perm (presentSymbols t) := by
  refine (h.roots.map _).trans (.of_eq ?_)
  have hle := presentSymbols_length_le t
  refine List.ext_getElem (by simp [h.arena_length]) fun i h₁ h₂ => ?_
  simp [symbolOf, h.arena_eq, Nat.mod_eq_of_lt (show i < 512 by omega), h₂, nodeSym]

theorem Seeded.leaf_of_mem (h : Seeded t allSymbols b) {q : Idx} (hq : q ∈ b.nc) :
    b.arena[q.toNat]? = some (.leaf (symbolOf b.arena q) (ftRead t (symbolOf b.arena q))) := by
  have hlt := h.root_lt hq
  rw [h.arena_length] at hlt
  simp [symbolOf, h.arena_eq, hlt, nodeSym]

/-- A total over the symbols is one over the collection. -/
theorem Seeded.sum_presentSymbols (h : Seeded t allSymbols b) (len : Byte → Nat) :
    ((presentSymbols t).map fun sym => (ftRead t sym).toNat * len sym).sum =
      totalLength (freqOf b.arena) (fun q => len (symbolOf b.arena q)) b.nc.toFinset := by
  rw [totalLength, List.sum_toFinset _ h.forest.nodup, ← (h.symbols_perm.map _).sum_eq, List.map_map]
  refine congrArg List.sum (List.map_congr_left fun q hq => ?_)
  rw [Function.comp_apply, freqOf_of_node (h.leaf_of_mem hq), nodeFreq]

/-- A code of two symbols or more, none of whose words begins another, gives the collection lengths that meet Kraft's inequality. -/
theorem Seeded.kraftLengths (h : Seeded t allSymbols b) {code : Byte → List Bool} (htwo : 2 ≤ (presentSymbols t).length)
    (hpre : ∀ x ∈ presentSymbols t, ∀ y ∈ presentSymbols t, x ≠ y → ¬ code x <+: code y) :
    ∃ N, KraftLengths N b.nc.toFinset fun q => (code (symbolOf b.arena q)).length := by
  have hmem : ∀ q ∈ b.nc, symbolOf b.arena q ∈ presentSymbols t := fun q hq =>
    h.symbols_perm.mem_iff.mp (List.mem_map.mpr ⟨q, hq, rfl⟩)
  have hinj := List.inj_on_of_nodup_map (h.symbols_perm.nodup_iff.mpr (nodup_presentSymbols t))
  refine ⟨b.nc.toFinset.sup fun q => (code (symbolOf b.arena q)).length,
    kraftLengths_of_prefix_free (code := fun q => code (symbolOf b.arena q)) ?_ (fun p hp q hq hne => ?_)
      fun q hq => Finset.le_sup (f := fun q => (code (symbolOf b.arena q)).length) hq⟩
  · rw [List.toFinset_card_of_nodup h.forest.nodup, h.nc_length]
    omega
  · rw [List.mem_toFinset] at hp hq
    exact hpre _ (hmem p hp) _ (hmem q hq) fun heq => hne (hinj hp hq heq)

end Seeded

/-- GENDICT on a valid tree, its gates passed (41_code_dict_generator.md R120). -/
theorem execGendict_ok {s : State} {d : Dictionary} (hfatal : s.flag .fatal = false) (htree : s.flag .treeValid = true)
    (h : dictOf s.arena s.root = .ok d) : exec .gendict s = .next
    (State.respond { s with dict := d, status := putFlag s.status .dictValid true } 0#4 0#32) := by
  simp [exec, execGendict, hfatal, htree, h, succeed_eq]

end Sys2Proof.Machine

namespace Sys2Proof

open Sys2Proof.Machine Sys2Proof.Safety

/-- Settles O52: the dictionary's lengths are the depths in the tree, and the other code's lengths meet Kraft's inequality. -/
theorem treeIsOptimal : Obligations.TreeIsOptimal := by
  unfold Obligations.TreeIsOptimal
  intro s t u code hfatal hft hlt htwo hpre hbuild hgendict
  have hne : presentSymbols s.ft ≠ [] := fun hnil => by simp [hnil] at htwo
  obtain ⟨t', hexec, -, ⟨b, hseed, hall⟩, -, hleaves, htree, -, hnc, -, hvalid, -, -, hkept, -⟩ :=
    buildMakesTheTree.2 s hfatal hft (ftTotal_pos_iff.mpr hne) hlt
  obtain rfl : t = t' := by simpa [hbuild] using hexec
  have hb : Seeded s.ft allSymbols b := by
    obtain ⟨b', hseed', hb'⟩ := seed_ok s.ft
    exact Except.ok.inj (hseed'.symm.trans hseed) ▸ hb'
  obtain ⟨d, hd, hcodes, -⟩ := htree.dictOf_ok
  have hdict : u.dict = d := by
    rw [execGendict_ok (by rw [hkept .fatal (by decide), hfatal]) hvalid hd] at hgendict
    cases hgendict
    rfl
  have hroot : isLeafAt t.arena t.root = false := by
    rw [htree.isLeafAt_root, hleaves, decide_eq_false_iff_not]
    omega
  obtain ⟨depth, hdepth⟩ := htree.exists_isDepth
  obtain ⟨merged, harena, -⟩ := mergeAll_arena hall
  simp only at harena
  have hdepths : ∀ q ∈ b.nc, depth q = ((dictRead u.dict (symbolOf b.arena q)).getD []).length := fun q hq => by
    have hleaf : t.arena[q.toNat]? = some (.leaf (symbolOf b.arena q) (ftRead s.ft (symbolOf b.arena q))) := by
      rw [harena, List.getElem?_append_left (hb.root_lt hq), hb.leaf_of_mem hq]
    exact hdepth.leaf htree hroot hleaf (hdict ▸ hcodes)
  obtain ⟨N, hkraft⟩ := hb.kraftLengths htwo hpre
  rw [hb.sum_presentSymbols fun sym => ((dictRead u.dict sym).getD []).length, hb.sum_presentSymbols fun sym => (code sym).length]
  refine le_of_eq_of_le (Finset.sum_congr rfl fun q hq => ?_)
    (totalLength_depth_le hb.forest hb.exact hlt hall hnc htree hdepth hkraft)
  rw [hdepths q (List.mem_toFinset.mp hq)]

end Sys2Proof

namespace Sys2Proof

open Sys2Proof.Machine Sys2Proof.Safety

/-- GENDICT writes DICT, sets DICT_VALID and answers OK; nothing else changes (41_code_dict_generator.md R120). -/
theorem Machine.execGendict_frame {s : State} {d : Dictionary} (hfatal : s.flag .fatal = false)
    (htree : s.flag .treeValid = true) (hd : dictOf s.arena s.root = .ok d) :
    ∃ t, exec .gendict s = .next t ∧ t = { s with dict := t.dict, status := t.status, responses := t.responses } ∧
      t.dict = d ∧ t.flag .dictValid = true ∧ FlagsKept s t [.dictValid] ∧ Answered s t 0#4 0#32 := by
  refine ⟨_, execGendict_ok hfatal htree hd, rfl, rfl, by simp [State.flag_eq], fun f hf => ?_, rfl⟩
  have hne : f ≠ .dictValid := by simpa using hf
  simp [State.flag_eq, hne]

/-- Settles O39: the walk over a well-formed tree records every leaf's path and leaves the other entries absent. -/
theorem gendictRecordsEveryPath : Obligations.GendictRecordsEveryPath := by
  unfold Obligations.GendictRecordsEveryPath
  refine ⟨by decide, fun s hfatal hvalid htree => ?_⟩
  obtain ⟨d, hd, hcodes, -⟩ := htree.dictOf_ok
  obtain ⟨t, hexec, hframe, rfl, hflags⟩ := execGendict_frame hfatal hvalid hd
  exact ⟨t, hexec, hframe, hcodes, hflags⟩

/-- Settles O38: the dictionary of a Leaf root is the empty one with the symbol's entry written. -/
theorem gendictOfLeafRoot : Obligations.GendictOfLeafRoot := by
  unfold Obligations.GendictOfLeafRoot
  intro s sym f hfatal hvalid hroot
  obtain ⟨t, hexec, hframe, hdict, hflags⟩ := execGendict_frame hfatal hvalid (dictOf_leaf hroot)
  refine ⟨t, hexec, hframe, ?_, fun b hb => ?_, hflags⟩
  · rw [hdict, dictRead_dictWrite, if_pos rfl]
  · rw [hdict, dictRead_dictWrite, if_neg hb, dictRead_dictAbsent]

end Sys2Proof

/-! SUPPORT. What ENCODE answers (42_bit_encoder.md R130 to R135), and why a dictionary just built codes its input in at most 8 bits a byte
(R136): the eight bits of a byte are a code themselves, none of whose words begins another, and
the dictionary of two symbols or more is no longer. -/

namespace Sys2Proof.Machine

open Sys2Proof.Safety

/-! ## The bit string -/

/-- The bit string in the words of the claims (R131). -/
theorem bitString_eq_flatten (d : Dictionary) (input : List Byte) :
    bitString d input = (input.map fun b => (dictRead d b).getD []).flatten := rfl

theorem bitString_length (d : Dictionary) (input : List Byte) :
    (bitString d input).length = (input.map fun b => ((dictRead d b).getD []).length).sum := by
  rw [bitString_eq_flatten, List.length_flatten, List.map_map]
  rfl

section Passes

variable {d : Dictionary} {input : List Byte} {pkMax : Nat}

theorem encodeBits_ok (hcodes : ∀ b ∈ input, (dictRead d b).isSome = true) (hfits : bytesFor (bitString d input).length ≤ pkMax) :
    encodeBits d input pkMax = .ok (bitString d input) := by
  simp [encodeBits, (firstMissing_eq_none_iff d 0 input).mpr hcodes, hfits]

theorem encodeBits_alloc (hcodes : ∀ b ∈ input, (dictRead d b).isSome = true) (hlarge : pkMax < bytesFor (bitString d input).length) :
    encodeBits d input pkMax = .error (.raised .alloc (bytesFor (bitString d input).length)) := by
  simp [encodeBits, (firstMissing_eq_none_iff d 0 input).mpr hcodes, Nat.not_le.mpr hlarge]

/-- The first byte without a code ends the scan, whatever the size would be (R135). -/
theorem encodeBits_noCode {before after : List Byte} {b : Byte} (hbefore : ∀ x ∈ before, (dictRead d x).isSome = true)
    (hb : dictRead d b = none) : encodeBits d (before ++ b :: after) pkMax =
      .error (.raised .noCode ((b.toNat <<< 24) ||| before.length)) := by
  simp [encodeBits, firstMissing_append d 0 before after b hbefore hb]

end Passes

/-! ## The command, its gates passed -/

@[simp] theorem flag_encodeEmptied (s : State) (f : Flag) :
    (encodeEmptied s).flag f = if f = .encValid then false else s.flag f := by simp [State.flag_eq]

section Command

variable {s : State}

theorem execEncode_ok {bits : List Bool} (hfatal : s.flag .fatal = false) (hdict : s.flag .dictValid = true)
    (h : encodeBits s.dict s.imem s.capPk.toNat = .ok bits) : exec .encode s = .next (State.respond { s with
      pmem := pack bits, bitLen := BitVec.ofNat 24 bits.length, status := putFlag s.status .encValid true } 0#4 0#32) := by
  simp [exec, execEncode, hfatal, hdict, h, succeed_eq]

/-- A failing ENCODE empties its outputs and records the error; FATAL rises for a fatal kind and nothing else changes (R135). -/
theorem execEncode_raised {k : ErrKind} {info : Nat} (hfatal : s.flag .fatal = false) (hdict : s.flag .dictValid = true)
    (h : encodeBits s.dict s.imem s.capPk.toNat = .error (.raised k info)) : ∃ t, exec .encode s = .next t ∧
      t = { s with
        pmem := [], bitLen := 0#24, status := t.status, err := setErrBit s.err k, lastErr := lastErrWord 0x40#8 k
        eInfo := t.eInfo, responses := s.responses ++ [{ code := errCode k, data := 0#32 }] } ∧
      t.eInfo.toNat = info % 2 ^ 32 ∧ t.flag .encValid = false ∧ t.flag .fatal = errFatal k ∧ FlagsKept s t [.fatal, .encValid] := by
  refine ⟨((encodeEmptied s).recordError 0x40#8 k info).respond (errCode k) 0#32, ?_, rfl, BitVec.toNat_ofNat _ _, by simp,
    by simp [hfatal], fun f hf => ?_⟩
  · simp [exec, execEncode, hfatal, hdict, h, raise_eq, opcodeOf]
  · obtain ⟨hne, hne'⟩ : f ≠ .fatal ∧ f ≠ .encValid := by simpa using hf
    simp [hne, hne']

end Command

/-! ## The eight bits of a byte as a code -/

/-- The code that gives every byte its own eight bits. -/
def byteCode (b : Byte) : List Bool := (List.range 8).map b.getLsbD

@[simp] theorem byteCode_length (b : Byte) : (byteCode b).length = 8 := by simp [byteCode]

theorem byteCode_prefix_free {a b : Byte} (h : byteCode a <+: byteCode b) : a = b := by
  have heq : byteCode a = byteCode b := h.eq_of_length (by simp)
  exact BitVec.eq_of_getLsbD_eq fun i hi => List.map_inj_left.mp heq i (List.mem_range.mpr hi)

/-! ## Sums over the input and over its symbols -/

section Counted

variable {t : FreqTable} {input : List Byte} (hcount : ∀ sym, (ftRead t sym).toNat = input.count sym)

include hcount

theorem mem_presentSymbols_of_count {sym : Byte} : sym ∈ presentSymbols t ↔ sym ∈ input := by
  rw [mem_presentSymbols, ← List.count_pos_iff, ← hcount, Nat.pos_iff_ne_zero]
  exact not_congr BitVec.toNat_eq

/-- A sum over the input is one over its symbols, each as often as it is counted. -/
theorem sum_map_eq_sum_presentSymbols (f : Byte → Nat) :
    (input.map f).sum = ((presentSymbols t).map fun sym => (ftRead t sym).toNat * f sym).sum := by
  have hsyms : (presentSymbols t).toFinset = input.toFinset := by
    ext sym
    simp [mem_presentSymbols_of_count hcount]
  rw [Finset.sum_list_map_count, ← List.sum_toFinset _ (nodup_presentSymbols t), hsyms]
  simp [hcount]

end Counted

/-! ## FREQ, BUILD and GENDICT of one input -/

/-- FREQ, BUILD and GENDICT lead from `s` to `s₁`, `s₂` and `s₃`, each answering OK, and the last holds the dictionary of the input's tree. -/
structure InputCoded (s s₁ s₂ s₃ : State) : Prop where
  freq : exec .freq s = .next s₁ ∧ Answered s s₁ 0#4 0#32
  build : exec .build s₁ = .next s₂ ∧ Answered s₁ s₂ 0#4 0#32
  gendict : exec .gendict s₂ = .next s₃ ∧ Answered s₂ s₃ 0#4 0#32
  /-- BUILD's premises. -/
  counted : s₁.flag .fatal = false ∧ s₁.flag .ftValid = true ∧ ftTotal s₁.ft < 2 ^ 32
  count : ∀ sym, (ftRead s₁.ft sym).toNat = s.imem.count sym
  tree : TreeWf s₂.arena s₂.root
  leaves : leafCount s₂.arena = (presentSymbols s₁.ft).length
  imem : s₃.imem = s.imem
  fatal : s₃.flag .fatal = false
  dictValid : s₃.flag .dictValid = true
  codes : ∀ sym code, dictRead s₃.dict sym = some code ↔ IsCode s₂.arena s₂.root sym code
  coded : ∀ b ∈ s.imem, (dictRead s₃.dict b).isSome = true

/-- The three commands complete on every input that is not empty. -/
theorem exists_inputCoded {s : State} (hinv : Inv s) (hfatal : s.flag .fatal = false) (hne : s.imem ≠ []) :
    ∃ s₁ s₂ s₃, InputCoded s s₁ s₂ s₃ := by
  have hpos : 0 < s.imem.length := List.length_pos_iff.mpr hne
  have hlen : s.imem.length < 2 ^ 32 := by
    have := hinv.capIn
    have := hinv.imemFits
    omega
  obtain ⟨s₁, hfreq, htotal, hcount, -⟩ := freqSumsToTheInputLength.1 s hfatal hlen
  obtain ⟨s₁', hfreq', hframe₁, -, hftValid, hkept₁, hanswer₁⟩ := freqCountsOccurrences.2 s hfatal
  obtain rfl : s₁ = s₁' := by simpa [hfreq] using hfreq'
  have hfatal₁ : s₁.flag .fatal = false := (hkept₁ .fatal (by decide)).trans hfatal
  obtain ⟨s₂, hbuild, hframe₂, -, hseeded, hleaves, htree, -, -, -, htreeValid, -, -, hkept₂, hanswer₂⟩ :=
    buildMakesTheTree.2 s₁ hfatal₁ hftValid (htotal ▸ hpos) (htotal ▸ hlen)
  have hfatal₂ : s₂.flag .fatal = false := (hkept₂ .fatal (by decide)).trans hfatal₁
  obtain ⟨s₃, hgendict, hframe₃, hcodes, hdictValid, hkept₃, hanswer₃⟩ :=
    gendictRecordsEveryPath.2 s₂ hfatal₂ htreeValid htree
  refine ⟨s₁, s₂, s₃, ⟨hfreq, hanswer₁⟩, ⟨hbuild, hanswer₂⟩, ⟨hgendict, hanswer₃⟩, ⟨hfatal₁, hftValid, htotal ▸ hlen⟩, hcount, htree,
    hleaves, ?_, (hkept₃ .fatal (by decide)).trans hfatal₂, hdictValid, hcodes, fun b hb => ?_⟩
  · calc s₃.imem
      _ = s₂.imem := by rw [hframe₃]
      _ = s₁.imem := by rw [hframe₂]
      _ = s.imem := by rw [hframe₁]
  · have hleaf : Node.leaf b (ftRead s₁.ft b) ∈ s₂.arena := List.mem_of_mem_take
      (hseeded ▸ List.mem_map_of_mem ((mem_presentSymbols_of_count hcount).mpr hb))
    simpa only [Option.isSome_iff_exists, hcodes] using htree.exists_isCode_iff.mpr (mem_leafSyms.mpr ⟨_, hleaf⟩)

section InputCoded

variable {s s₁ s₂ s₃ : State}

/-- The dictionary of two symbols or more is optimal, so no longer than the code of eight bits a byte. -/
theorem InputCoded.length_le_of_two (h : InputCoded s s₁ s₂ s₃) (htwo : 2 ≤ (presentSymbols s₁.ft).length) :
    (bitString s₃.dict s.imem).length ≤ 8 * s.imem.length := by
  obtain ⟨hfatal, hftValid, htotal⟩ := h.counted
  calc (bitString s₃.dict s.imem).length
    _ = ((presentSymbols s₁.ft).map fun sym => (ftRead s₁.ft sym).toNat * ((dictRead s₃.dict sym).getD []).length).sum := by
      rw [bitString_length, sum_map_eq_sum_presentSymbols h.count]
    _ ≤ ((presentSymbols s₁.ft).map fun sym => (ftRead s₁.ft sym).toNat * (byteCode sym).length).sum :=
      treeIsOptimal s₁ s₂ s₃ byteCode hfatal hftValid htotal htwo (fun a _ b _ hab => mt byteCode_prefix_free hab) h.build.1 h.gendict.1
    _ = (s.imem.map fun b => (byteCode b).length).sum := (sum_map_eq_sum_presentSymbols h.count _).symm
    _ = 8 * s.imem.length := by simp [Nat.mul_comm]

/-- A lone symbol's code has one bit (R122). -/
theorem InputCoded.length_le_of_one (h : InputCoded s s₁ s₂ s₃) (hone : (presentSymbols s₁.ft).length ≤ 1) :
    (bitString s₃.dict s.imem).length ≤ s.imem.length := by
  have hbit : ∀ n ∈ s.imem.map fun b => ((dictRead s₃.dict b).getD []).length, n ≤ 1 := by
    simp only [List.forall_mem_map]
    intro b hb
    obtain ⟨code, hcode⟩ := Option.isSome_iff_exists.mp (h.coded b hb)
    have hle := (h.tree.isCode_length ((h.codes b code).mp hcode)).2
    have hleaves := h.leaves
    rw [hcode, Option.getD_some]
    omega
  rw [bitString_length]
  simpa using List.sum_le_card_nsmul _ 1 hbit

end InputCoded

end Sys2Proof.Machine

namespace Sys2Proof

open Sys2Proof.Machine Sys2Proof.Safety

/-- Settles O41: bit k of the packed string is bit k of the string, and a string that fits PK_MAX has fewer than 2^24 bits. -/
theorem encodePacksTheBitString : Obligations.EncodePacksTheBitString := by
  unfold Obligations.EncodePacksTheBitString
  refine ⟨by decide, fun s bits hfatal hdict hcap hcodes hbits hfits => ?_⟩
  rw [← bitString_eq_flatten] at hbits
  subst hbits
  have hlen : (BitVec.ofNat 24 (bitString s.dict s.imem).length).toNat = (bitString s.dict s.imem).length := by
    rw [BitVec.toNat_ofNat, Nat.mod_eq_of_lt (by omega)]
  refine ⟨_, execEncode_ok hfatal hdict (encodeBits_ok hcodes hfits), rfl, hlen, ?_, fun k hk => ?_, by simp [State.flag_eq],
    fun f hf => ?_, rfl⟩
  · rw [State.respond_pmem, State.respond_bitLen, pack_length, hlen, bytesFor]
  · rw [State.respond_pmem] at hk ⊢
    exact Option.map_eq_some_iff.mp (pbit_pack _ k (by simpa using hk))
  · have hne : f ≠ .encValid := by simpa using hf
    simp [State.flag_eq, hne]

/-- Settles O42: the scan for a byte without a code comes before the size, and the index fills 24 bits at most. -/
theorem encodeOfUncodedByte : Obligations.EncodeOfUncodedByte := by
  unfold Obligations.EncodeOfUncodedByte
  intro s before after b hfatal hdict himem hbefore hb hlen
  obtain ⟨t, hexec, hframe, hinfo, henc, hfatal', hkept⟩ :=
    execEncode_raised hfatal hdict (himem ▸ encodeBits_noCode (pkMax := s.capPk.toNat) hbefore hb)
  refine ⟨t, hexec, hframe, ?_, henc, fun f hf => ?_⟩
  · have hbyte := b.isLt
    rw [hinfo, ← Nat.shiftLeft_add_eq_or_of_lt hlen, Nat.shiftLeft_eq, Nat.mod_eq_of_lt (by omega)]
  · by_cases hf' : f = .fatal
    · rw [hf', hfatal', hfatal]
      rfl
    · exact hkept f (by simpa [hf'] using hf)

/-- Settles O43: ALLOC is fatal, and its EINFO is the number of bytes that the bit string fills. -/
theorem encodeBeyondCapacity : Obligations.EncodeBeyondCapacity := by
  unfold Obligations.EncodeBeyondCapacity
  intro s hfatal hdict hcodes hlarge
  rw [← bitString_length] at hlarge ⊢
  obtain ⟨t, hexec, hframe, hinfo, henc, hfatal', hkept⟩ := execEncode_raised hfatal hdict (encodeBits_alloc hcodes hlarge)
  exact ⟨t, hexec, hframe, hinfo, hfatal', henc, hkept⟩

/-- Settles O53: a lone symbol's code has one bit, and the dictionary of two symbols or more is optimal. -/
theorem encodedSizeBound : Obligations.EncodedSizeBound := by
  unfold Obligations.EncodedSizeBound
  intro s hinv hfatal hne
  obtain ⟨s₁, s₂, s₃, h⟩ := exists_inputCoded hinv hfatal hne
  refine ⟨s₁, s₂, s₃, h.freq.1, h.build.1, h.gendict.1, h.dictValid, h.coded, ?_⟩
  rcases Nat.lt_or_ge (presentSymbols s₁.ft).length 2 with hone | htwo
  · exact (h.length_le_of_one (by omega)).trans (by omega)
  · exact h.length_le_of_two htwo

end Sys2Proof

/-! SUPPORT. What the bits of a decode spell (43_tree_decoder.md R141): any string is the codes of some symbols and an incomplete rest, the decode
emits those symbols and ends where the rest leads; what a decode command then answers (R142 to R148). -/

namespace Sys2Proof.Safety

open Sys2Proof.Machine

section Tree

variable {arena : List Node} {root : Idx}

/-! ## Splitting a bit string into codes -/

/-- Every node on the way to an Internal is one. -/
theorem isInternalAt_of_follow {n c : Idx} {path : List Bool} (h : follow arena n path = some c)
    (hc : isInternalAt arena c = true) : isInternalAt arena n = true := by
  cases path with
  | nil => rwa [Option.some.inj h]
  | cons b path =>
    obtain ⟨f, l, r, hn, -⟩ := follow_cons_eq_some.mp h
    exact isInternalAt_iff.mpr ⟨f, l, r, hn⟩

/-- A path to a Leaf is empty there and leaves an Internal otherwise. -/
theorem leafOn_cases {n : Idx} {path : List Bool} {sym : Byte} (h : leafOn arena n path = some sym) :
    (path = [] ∧ ∃ g, arena[n.toNat]? = some (.leaf sym g)) ∨ isInternalAt arena n = true := by
  cases path with
  | nil => exact .inl ⟨rfl, by simpa [leafOn_eq_some] using h⟩
  | cons b path =>
    obtain ⟨f, l, r, hn, -⟩ := leafOn_cons_eq_some.mp h
    exact .inr (isInternalAt_iff.mpr ⟨f, l, r, hn⟩)

/-- A node's child is a Leaf or an Internal (10_state.md R24). -/
theorem TreeWf.child_cases (h : TreeWf arena root) {n l r : Idx} {f : Count} (hn : arena[n.toNat]? = some (.internal f l r))
    (b : Bool) : (∃ sym g, arena[(if b then r else l).toNat]? = some (.leaf sym g)) ∨
      isInternalAt arena (if b then r else l) = true := by
  have hlt : (if b then r else l).toNat < arena.length :=
    (h.child_lt hn (branch_mem_children f l r b)).trans (lt_length_of_node hn)
  match hnode : arena[(if b then r else l).toNat]'hlt with
  | .leaf sym g => exact .inl ⟨sym, g, List.getElem?_eq_some_iff.mpr ⟨hlt, hnode⟩⟩
  | .internal g l' r' => exact .inr (isInternalAt_iff.mpr ⟨g, l', r', List.getElem?_eq_some_iff.mpr ⟨hlt, hnode⟩⟩)

/-- Under an Internal root every bit string splits into codes and an incomplete rest, with at most one code a bit: one bit more either
completes the rest to a code or leads on to an Internal (R141, R149). -/
theorem TreeWf.exists_split (h : TreeWf arena root) (hroot : isInternalAt arena root = true) (bits : List Bool) :
    ∃ codes rest xs c, bits = codes.flatten ++ rest ∧ Spells arena root codes xs ∧ follow arena root rest = some c ∧
      isInternalAt arena c = true ∧ xs.length ≤ bits.length := by
  induction bits using List.reverseRecOn with
  | nil => exact ⟨[], [], [], root, rfl, .nil, rfl, hroot, le_rfl⟩
  | append_singleton bits b ih =>
    obtain ⟨codes, rest, xs, c, rfl, hspells, hrest, hc, hlen⟩ := ih
    obtain ⟨f, l, r, hnode⟩ := isInternalAt_iff.mp hc
    have hnext : follow arena root (rest ++ [b]) = some (if b then r else l) :=
      follow_concat_eq_some.mpr ⟨c, f, l, r, hrest, hnode, rfl⟩
    rcases h.child_cases hnode b with ⟨sym, g, hleaf⟩ | hinternal
    · have hcode : leafOn arena root (rest ++ [b]) = some sym := leafOn_eq_some.mpr ⟨_, g, hnext, hleaf⟩
      refine ⟨codes ++ [rest ++ [b]], [], xs ++ [sym], root, by simp, List.rel_append hspells (.cons hcode .nil), rfl, hroot, ?_⟩
      simp only [List.length_append, List.length_singleton] at *
      omega
    · exact ⟨codes, rest ++ [b], xs, _, by simp, hspells, hnext, hinternal, by simp at *; omega⟩

/-! ## Codes -/

/-- A symbol has one code only. -/
theorem TreeWf.isCode_unique (h : TreeWf arena root) {sym : Byte} {p q : List Bool} (hp : IsCode arena root sym p)
    (hq : IsCode arena root sym q) : p = q := by
  rcases h.root_cases with ⟨sym', f, hroot⟩ | ⟨f, l, r, hroot⟩
  · rw [((isCode_leaf hroot).mp hp).2, ((isCode_leaf hroot).mp hq).2]
  · exact h.leafOn_unique ((isCode_internal hroot).mp hp) ((isCode_internal hroot).mp hq)

/-- The codes of given symbols, one after the other. -/
abbrev CodesOf (arena : List Node) (root : Idx) (codes : List (List Bool)) (xs : List Byte) : Prop :=
  List.Forall₂ (fun code x => IsCode arena root x code) codes xs

/-- Under an Internal root the codes are the paths. -/
theorem codesOf_of_spells {codes : List (List Bool)} {xs : List Byte} (hroot : isInternalAt arena root = true)
    (h : Spells arena root codes xs) : CodesOf arena root codes xs :=
  h.imp fun _ _ hx => .inl ⟨hroot, hx⟩

theorem TreeWf.codesOf_unique (h : TreeWf arena root) {codes codes' : List (List Bool)} {xs : List Byte}
    (hcodes : CodesOf arena root codes xs) (hcodes' : CodesOf arena root codes' xs) : codes = codes' := by
  induction hcodes generalizing codes' with
  | nil => exact (List.forall₂_nil_right_iff.mp hcodes').symm
  | cons hx _ ih =>
    obtain ⟨code', rest', hx', hrest', rfl⟩ := List.forall₂_cons_right_iff.mp hcodes'
    rw [h.isCode_unique hx hx', ih hrest']

theorem codesOf_replicate {sym : Byte} {code : List Bool} (h : IsCode arena root sym code) (n : Nat) :
    CodesOf arena root (List.replicate n code) (List.replicate n sym) :=
  List.forall₂_iff_get.mpr ⟨by simp, fun i _ _ => by simpa using h⟩

/-- Under a Leaf root the codes are 0 bits, one for each symbol. -/
theorem codesOf_leaf {sym : Byte} {f : Count} (hroot : arena[root.toNat]? = some (.leaf sym f)) {codes : List (List Bool)}
    {xs : List Byte} (h : CodesOf arena root codes xs) :
    codes.flatten = List.replicate codes.length false ∧ xs = List.replicate codes.length sym := by
  induction h with
  | nil => exact ⟨rfl, rfl⟩
  | cons hx _ ih =>
    obtain ⟨rfl, rfl⟩ := (isCode_leaf hroot).mp hx
    obtain ⟨hcodes, hxs⟩ := ih
    exact ⟨congrArg (false :: ·) hcodes, congrArg (_ :: ·) hxs⟩

end Tree
end Sys2Proof.Safety

namespace Sys2Proof.Machine

open Sys2Proof.Safety

section Walk

variable {arena : List Node} {root : Idx}

/-! ## Walking codes -/

/-- A path to an Internal emits nothing (R141). -/
theorem walkBits_follow {cur c : Idx} {path : List Bool} (h : follow arena cur path = some c)
    (hc : isInternalAt arena c = true) : walkBits arena root cur path = .ok ([], c) := by
  induction path generalizing cur with
  | nil => rw [walkBits_nil, Option.some.inj h]
  | cons b path ih =>
    obtain ⟨f, l, r, hn, hpath⟩ := follow_cons_eq_some.mp h
    obtain ⟨g, l', r', hnext⟩ := isInternalAt_iff.mp (isInternalAt_of_follow hpath hc)
    rw [walkBits_internal hn hnext, ih hpath]

/-- A path from an Internal to a Leaf emits the Leaf's symbol and goes on at the root (R141). -/
theorem walkBits_leafOn {cur c : Idx} {path rest : List Bool} {sym : Byte} {xs : List Byte} (h : leafOn arena cur path = some sym)
    (hcur : isInternalAt arena cur = true) (hrest : walkBits arena root root rest = .ok (xs, c)) :
    walkBits arena root cur (path ++ rest) = .ok (sym :: xs, c) := by
  induction path generalizing cur with
  | nil =>
    obtain ⟨f, l, r, hn⟩ := isInternalAt_iff.mp hcur
    simp [leafOn_eq_some, hn] at h
  | cons b path ih =>
    obtain ⟨f, l, r, hn, hpath⟩ := leafOn_cons_eq_some.mp h
    rcases leafOn_cases hpath with ⟨rfl, g, hleaf⟩ | hinternal
    · simp [walkBits_leaf hn hleaf, hrest, bind, Except.bind, pure, Except.pure]
    · obtain ⟨g, l', r', hnext⟩ := isInternalAt_iff.mp hinternal
      rw [List.cons_append, walkBits_internal hn hnext, ih hpath hinternal]

/-- Codes and an incomplete rest: the symbols of the codes, and the node the rest leads to (R141). -/
theorem walkBits_split {codes : List (List Bool)} {xs : List Byte} {rest : List Bool} {c : Idx}
    (hroot : isInternalAt arena root = true) (hspells : Spells arena root codes xs) (hrest : follow arena root rest = some c)
    (hc : isInternalAt arena c = true) : walkBits arena root root (codes.flatten ++ rest) = .ok (xs, c) := by
  induction hspells with
  | nil => exact walkBits_follow hrest hc
  | cons hx _ ih =>
    rw [List.flatten_cons, List.append_assoc]
    exact walkBits_leafOn hx hroot ih

theorem leafBits_replicate (sym : Byte) (n : Nat) : leafBits sym (List.replicate n false) = .ok (List.replicate n sym) := by
  rcases leafBits_cases sym (List.replicate n false) with ⟨-, h⟩ | ⟨k, hk, -⟩
  · rw [h, List.length_replicate]
  · simp [List.findIdx?_replicate] at hk

/-- Under a Leaf root each 0 bit spells the Leaf's symbol (R145). -/
theorem decodeSymbols_zeros {sym : Byte} {f : Count} (hroot : arena[root.toNat]? = some (.leaf sym f)) (n : Nat) :
    decodeSymbols arena root (List.replicate n false) = .ok (List.replicate n sym, root) := by
  rw [decodeSymbols_leaf hroot, leafBits_replicate]
  rfl

/-- Under an Internal root codes and an incomplete rest spell the codes' symbols (R141). -/
theorem decodeSymbols_of_spells {codes : List (List Bool)} {xs : List Byte} {rest : List Bool} {c : Idx}
    (hroot : isInternalAt arena root = true) (hspells : Spells arena root codes xs) (hrest : follow arena root rest = some c)
    (hc : isInternalAt arena c = true) : decodeSymbols arena root (codes.flatten ++ rest) = .ok (xs, c) := by
  obtain ⟨f, l, r, hnode⟩ := isInternalAt_iff.mp hroot
  rw [decodeSymbols_internal hnode]
  exact walkBits_split hroot hspells hrest hc

/-- Codes and an incomplete rest under either kind of root; under a Leaf root the rest is empty (R141, R145). -/
theorem decodeSymbols_split {codes : List (List Bool)} {xs : List Byte} {rest : List Bool} {c : Idx}
    (hroot : root.toNat < arena.length) (hcodes : CodesOf arena root codes xs) (hrest : follow arena root rest = some c)
    (hc : isInternalAt arena root = true → isInternalAt arena c = true) :
    decodeSymbols arena root (codes.flatten ++ rest) = .ok (xs, c) := by
  match hnode : arena[root.toNat]? with
  | none => simp at hnode; omega
  | some (.leaf sym f) =>
    obtain ⟨rfl, rfl⟩ := (follow_leaf_eq_some hnode).mp hrest
    obtain ⟨hflatten, rfl⟩ := codesOf_leaf hnode hcodes
    rw [List.append_nil, hflatten, decodeSymbols_zeros hnode]
  | some (.internal f l r) =>
    have hinternal : isInternalAt arena root = true := isInternalAt_iff.mpr ⟨f, l, r, hnode⟩
    exact decodeSymbols_of_spells hinternal (hcodes.imp fun _ _ hx => (isCode_internal hnode).mp hx) hrest (hc hinternal)

/-- The bits that a decode spells are the codes of its symbols and the path to where it ends. -/
theorem exists_codes_of_decodeSymbols (h : TreeWf arena root) {bits : List Bool} {xs : List Byte} {c : Idx}
    (hbits : decodeSymbols arena root bits = .ok (xs, c)) : ∃ codes rest, bits = codes.flatten ++ rest ∧
      CodesOf arena root codes xs ∧ follow arena root rest = some c := by
  rcases h.root_cases with ⟨sym, f, hnode⟩ | ⟨f, l, r, hnode⟩
  · rw [decodeSymbols_leaf hnode] at hbits
    rcases leafBits_cases sym bits with ⟨hzeros, hok⟩ | ⟨k, -, herror⟩
    · obtain ⟨rfl, rfl⟩ : List.replicate bits.length sym = xs ∧ root = c := by simpa [hok, Except.map] using hbits
      refine ⟨List.replicate bits.length [false], [], ?_, codesOf_replicate ((isCode_leaf hnode).mpr ⟨rfl, rfl⟩) _, rfl⟩
      rw [List.append_nil, List.flatten_replicate_singleton]
      exact List.eq_replicate_iff.mpr ⟨rfl, hzeros⟩
    · simp [herror, Except.map] at hbits
  · have hroot : isInternalAt arena root = true := isInternalAt_iff.mpr ⟨f, l, r, hnode⟩
    obtain ⟨codes, rest, xs', c', rfl, hspells, hrest, hc, -⟩ := h.exists_split hroot bits
    rw [decodeSymbols_of_spells hroot hspells hrest hc] at hbits
    cases hbits
    exact ⟨codes, rest, rfl, codesOf_of_spells hroot hspells, hrest⟩

/-- The symbols of a decode that ends at the root say what its bits were: their codes. -/
theorem codes_of_decodeSymbols_root (h : TreeWf arena root) {bits : List Bool} {xs : List Byte}
    (hbits : decodeSymbols arena root bits = .ok (xs, root)) : ∃ codes, bits = codes.flatten ∧ CodesOf arena root codes xs := by
  obtain ⟨codes, rest, rfl, hcodes, hrest⟩ := exists_codes_of_decodeSymbols h hbits
  obtain rfl : rest = [] := h.path_unique hrest (follow_nil arena root)
  exact ⟨codes, List.append_nil _, hcodes⟩

theorem decodeSymbols_injective (h : TreeWf arena root) {bits bits' : List Bool} {xs : List Byte}
    (hbits : decodeSymbols arena root bits = .ok (xs, root)) (hbits' : decodeSymbols arena root bits' = .ok (xs, root)) :
    bits = bits' := by
  obtain ⟨codes, rfl, hcodes⟩ := codes_of_decodeSymbols_root h hbits
  obtain ⟨codes', rfl, hcodes'⟩ := codes_of_decodeSymbols_root h hbits'
  rw [h.codesOf_unique hcodes hcodes']

end Walk
end Sys2Proof.Machine

namespace Sys2Proof.Machine

open Sys2Proof.Safety

/-! ## Errors and the number of symbols, in any arena -/

/-- A walk emits at most one symbol a bit (43_tree_decoder.md R149). -/
theorem walkBits_length_le {arena : List Node} {root cur c : Idx} {bits : List Bool} {out : List Byte}
    (h : walkBits arena root cur bits = .ok (out, c)) : out.length ≤ bits.length := by
  induction bits generalizing cur out c with
  | nil => cases h; exact le_rfl
  | cons bit rest ih =>
    rw [walkBits] at h
    cases hcur : nodeAt arena cur with
    | error e => simp [hcur, bind, Except.bind] at h
    | ok nd =>
      cases hnext : nodeAt arena (if bit then nodeRight nd else nodeLeft nd) with
      | error e => simp [hcur, hnext, bind, Except.bind] at h
      | ok next =>
        cases next with
        | internal f l r =>
          have := ih (by simpa [hcur, hnext, bind, Except.bind] using h)
          simp only [List.length_cons]
          omega
        | leaf sym f =>
          cases hrest : walkBits arena root root rest with
          | error e => simp [hcur, hnext, hrest, bind, Except.bind] at h
          | ok r =>
            have := ih (out := r.1) (c := r.2) hrest
            obtain ⟨rfl, -⟩ : sym :: r.1 = out ∧ r.2 = c := by
              simpa [hcur, hnext, hrest, bind, Except.bind, pure, Except.pure] using h
            simpa using this

/-- Spelling answers at most one symbol a bit, or raises BADBIT, or faults; it never raises ALLOC (R141, R145, R149). -/
theorem decodeSymbols_cases (arena : List Node) (root : Idx) (bits : List Bool) :
    (∃ out c, decodeSymbols arena root bits = .ok (out, c) ∧ out.length ≤ bits.length) ∨
      (∃ k, decodeSymbols arena root bits = .error (.raised .badBit k)) ∨
      ∃ f, decodeSymbols arena root bits = .error (.fault f) := by
  match hnode : arena[root.toNat]? with
  | none => exact .inr (.inr ⟨.arenaIndex, by simp [decodeSymbols, nodeAt, hnode, bind, Except.bind]⟩)
  | some (.leaf sym f) =>
    rw [decodeSymbols_leaf hnode]
    rcases leafBits_cases sym bits with ⟨-, h⟩ | ⟨k, -, h⟩ <;> rw [h]
    · exact .inl ⟨_, root, rfl, by simp⟩
    · exact .inr (.inl ⟨k, rfl⟩)
  | some (.internal f l r) =>
    rw [decodeSymbols_internal hnode]
    match hwalk : walkBits arena root root bits with
    | .ok (out, c) => exact .inl ⟨out, c, rfl, walkBits_length_le hwalk⟩
    | .error (.raised k info) => exact nomatch raisesOnly_walkBits (kinds := []) _ _ _ _ _ _ hwalk
    | .error (.fault f) => exact .inr (.inr ⟨f, rfl⟩)

/-- The first 1 bit under a Leaf root is BADBIT (R145). -/
theorem leafBits_badBit {bits : List Bool} {k : Nat} (sym : Byte) (hk : bits[k]? = some true)
    (hbefore : ∀ j, j < k → bits[j]? = some false) : leafBits sym bits = .error (.raised .badBit k) := by
  obtain ⟨hlt, hbit⟩ := List.getElem?_eq_some_iff.mp hk
  have hfirst : bits.findIdx? id = some k := by
    refine List.findIdx?_eq_some_iff_getElem.mpr ⟨hlt, hbit, fun j hj => ?_⟩
    simpa [List.getElem?_eq_getElem (hj.trans hlt)] using hbefore j hj
  simp [leafBits, hfirst]

/-! ## The bits that are read -/

/-- Bits that are those of PMEM are the bits read (R140). -/
theorem readBits_eq {m : List Byte} {n : Nat} {bits : List Bool} (hn : n ≤ 8 * m.length) (hlen : bits.length = n)
    (hbits : ∀ k, k < n → bits[k]? = pbit m k) : readBits m 0 n = .ok bits := by
  obtain ⟨bits', hread, hlen', hbits'⟩ := readBits_ok m 0 n (by omega)
  rw [hread]
  refine congrArg _ (List.ext_getElem? fun k => ?_)
  rcases Nat.lt_or_ge k n with hk | hk
  · rw [hbits' k hk, hbits k hk, Nat.zero_add]
  · rw [List.getElem?_eq_none (by omega), List.getElem?_eq_none (by omega)]

theorem readBits_replicate_false {m : List Byte} {n : Nat} (hn : n ≤ 8 * m.length)
    (hbits : ∀ k, k < n → pbit m k = some false) : readBits m 0 n = .ok (List.replicate n false) :=
  readBits_eq hn (by simp) fun k hk => by rw [hbits k hk, List.getElem?_replicate, if_pos hk]

/-- The bits of a packed string are read back, without the padding (30_encoding.md R89). -/
theorem readBits_pack (bits : List Bool) : readBits (pack bits) 0 bits.length = .ok bits := by
  have hbytes : bits.length ≤ 8 * bytesFor bits.length := by rw [bytesFor]; omega
  refine readBits_eq (by rwa [pack_length]) rfl fun k hk => ?_
  rw [pbit_pack bits k (by omega), List.getD_eq_getElem _ _ hk, List.getElem?_eq_getElem hk]

/-- Only bits of PMEM are read. -/
theorem readBits_length_le {m : List Byte} {n : Nat} {bits : List Bool} (h : readBits m 0 n = .ok bits) :
    bits.length ≤ 8 * m.length := by
  obtain ⟨hlen, hbits⟩ := readBits_inv h
  cases n with
  | zero => omega
  | succ n =>
    have hlast := hbits n n.lt_succ_self
    rw [List.getElem?_eq_getElem (by omega), Nat.zero_add] at hlast
    have := (pbit_isSome_iff m n).mp (by rw [← hlast]; rfl)
    omega

/-- Reading `p` bits more, all 0, appends `p` 0 bits. -/
theorem readBits_append_zeros {m : List Byte} {n p : Nat} {bits : List Bool} (hread : readBits m 0 n = .ok bits)
    (hp : n + p ≤ 8 * m.length) (hzeros : ∀ k, n ≤ k → k < n + p → pbit m k = some false) :
    readBits m 0 (n + p) = .ok (bits ++ List.replicate p false) := by
  obtain ⟨hlen, hbits⟩ := readBits_inv hread
  refine readBits_eq hp (by simp [hlen]) fun k hk => ?_
  rcases Nat.lt_or_ge k n with hkn | hkn
  · rw [List.getElem?_append_left (by omega), hbits k hkn, Nat.zero_add]
  · rw [List.getElem?_append_right (by omega), hzeros k hkn hk, List.getElem?_replicate, if_pos (by omega)]

/-! ## A decode's symbols, tested against OUT_MAX -/

section Bits

variable {s : State} {n : Nat} {bits : List Bool} {out : List Byte} {c : Idx}

theorem decodeBits_ok_iff (hread : readBits s.pmem 0 n = .ok bits) : decodeBits s n = .ok (out, c) ↔
    decodeSymbols s.arena s.root bits = .ok (out, c) ∧ out.length ≤ s.capOut.toNat := by
  rw [decodeBits_of_read hread]
  cases decodeSymbols s.arena s.root bits with
  | error e => simp [bind, Except.bind]
  | ok r =>
    rcases fitOutput_cases s.capOut.toNat r with ⟨hle, h⟩ | ⟨hlt, h⟩ <;> simp only [bind, Except.bind, h]
    · exact ⟨fun hr => ⟨hr, by cases hr; exact hle⟩, And.left⟩
    · refine ⟨nofun, ?_⟩
      rintro ⟨hr, hle⟩
      cases hr
      exact absurd hle (Nat.not_le.mpr hlt)

/-- More symbols than OUT_MAX are ALLOC (R148). -/
theorem decodeBits_alloc (hread : readBits s.pmem 0 n = .ok bits) (hbits : decodeSymbols s.arena s.root bits = .ok (out, c))
    (hlarge : s.capOut.toNat < out.length) : decodeBits s n = .error (.raised .alloc out.length) := by
  rw [decodeBits_of_read hread, hbits]
  exact if_neg (Nat.not_le.mpr hlarge)

/-- A decode that answers has read its bits. -/
theorem exists_read_of_decodeBits (h : decodeBits s n = .ok (out, c)) : ∃ bits, readBits s.pmem 0 n = .ok bits := by
  cases hread : readBits s.pmem 0 n with
  | ok bits => exact ⟨bits, rfl⟩
  | error e => simp [decodeBits, hread, bind, Except.bind] at h

/-- A decode that raises ALLOC has read more bits than OUT_MAX, and they are in PMEM (R149). -/
theorem capOut_lt_of_alloc {info : Nat} (h : decodeBits s n = .error (.raised .alloc info)) :
    s.capOut.toNat < 8 * s.pmem.length := by
  cases hread : readBits s.pmem 0 n with
  | error e =>
    simp [decodeBits, hread, bind, Except.bind] at h
    subst h
    exact nomatch raisesOnly_readBits (kinds := []) _ _ _ _ _ hread
  | ok bits =>
    have hlen := readBits_length_le hread
    rw [decodeBits_of_read hread] at h
    rcases decodeSymbols_cases s.arena s.root bits with ⟨out, c, hok, hle⟩ | ⟨k, hbad⟩ | ⟨f, hfault⟩
    · rcases fitOutput_cases s.capOut.toNat (out, c) with ⟨-, hfit⟩ | ⟨hlt, -⟩
      · simp [hok, hfit, bind, Except.bind] at h
      · exact hlt.trans_le (hle.trans hlen)
    · simp [hbad, bind, Except.bind] at h
    · simp [hfault, bind, Except.bind] at h

end Bits

/-! ## The commands, their gates passed -/

section Command

variable {s : State} {i : Instr} {n : Nat}

/-- DECODEL within its bound is a decode of its operand's number of bits (R144). -/
theorem exec_decodel_of_le {m : BitVec 24} (hm : m.toNat ≤ 8 * s.pmem.length) : exec (.decodel m) s =
    unlessHalted (opcodeOf (.decodel m)) s
      (requireFlag (opcodeOf (.decodel m)) .treeValid s (decodeRun (opcodeOf (.decodel m)) m.toNat s)) := by
  have hlimit := (bitLimit_ok_iff s m _).mpr ⟨rfl, hm⟩
  simp only [exec, execDecodel, hlimit, complete_ok]

/-- The three commands are one decode of their numbers of bits (R142 to R144). -/
theorem exec_eq_decodeRun (hfatal : s.flag .fatal = false) (htree : s.flag .treeValid = true)
    (hi : bitsConsumed s i = some n) (hn : n ≤ 8 * s.pmem.length) : exec i s = decodeRun (opcodeOf i) n s := by
  rcases isDecode_of_bitsConsumed hi with rfl | rfl | ⟨m, rfl⟩ <;> obtain rfl := Option.some.inj hi
  · simp [exec, execDecode, hfatal, htree]
  · simp [exec, execDecodeb, hfatal, htree]
  · simp [exec_decodel_of_le hn, hfatal, htree]

/-- What a decode that completes leaves (R141). -/
def decoded (s : State) (out : List Byte) (cur : Idx) : State := State.respond { s with
  omem := out, decCur := cur, status := putFlag (putFlag s.status .midTree (cur != s.root)) .decValid true } 0#4 0#32

@[simp] theorem flag_midTree_decoded (s : State) (out : List Byte) (cur : Idx) :
    (decoded s out cur).flag .midTree = decide (cur ≠ s.root) := by
  by_cases hcur : cur = s.root <;> simp [decoded, State.flag_eq, hcur]

/-- A decode that completes writes its output and its two flags; nothing else changes. -/
theorem decoded_frame (s : State) (out : List Byte) (cur : Idx) :
    decoded s out cur = { s with
      omem := out, decCur := cur, status := (decoded s out cur).status, responses := (decoded s out cur).responses } ∧
    (decoded s out cur).flag .midTree = decide (cur ≠ s.root) ∧ (decoded s out cur).flag .decValid = true ∧
    FlagsKept s (decoded s out cur) [.midTree, .decValid] ∧ Answered s (decoded s out cur) 0#4 0#32 := by
  refine ⟨rfl, flag_midTree_decoded s out cur, by simp [decoded, State.flag_eq], fun f hf => ?_, rfl⟩
  obtain ⟨hmid, hdec⟩ : f ≠ .midTree ∧ f ≠ .decValid := by simpa using hf
  simp [decoded, State.flag_eq, hmid, hdec]

theorem exec_decoded (hfatal : s.flag .fatal = false) (htree : s.flag .treeValid = true) (hi : bitsConsumed s i = some n)
    (hn : n ≤ 8 * s.pmem.length) {out : List Byte} {cur : Idx} (h : decodeBits s n = .ok (out, cur)) :
    exec i s = .next (decoded s out cur) := by
  rw [exec_eq_decodeRun hfatal htree hi hn, decodeRun, h, complete_ok]
  rfl

@[simp] theorem flag_decodeEmptied (s : State) (f : Flag) :
    (decodeEmptied s).flag f = if f = .midTree ∨ f = .decValid then false else s.flag f := by
  cases f <;> simp [State.flag_eq]

/-- A decode that fails empties its output and records the error; FATAL rises for a fatal kind and nothing else changes (R148). -/
theorem exec_decode_raised (hfatal : s.flag .fatal = false) (htree : s.flag .treeValid = true)
    (hi : bitsConsumed s i = some n) (hn : n ≤ 8 * s.pmem.length) {k : ErrKind} {info : Nat}
    (h : decodeBits s n = .error (.raised k info)) : ∃ t, exec i s = .next t ∧
      t = { s with
        omem := [], decCur := s.root, status := t.status, err := setErrBit s.err k, lastErr := t.lastErr, eInfo := t.eInfo
        responses := s.responses ++ [{ code := errCode k, data := 0#32 }] } ∧
      t.lastErr.toNat = (opcodeOf i).toNat * 2 ^ 8 + (errCode k).toNat ∧ t.eInfo.toNat = info % 2 ^ 32 ∧
      t.flag .fatal = errFatal k ∧ t.flag .midTree = false ∧ t.flag .decValid = false ∧
      FlagsKept s t [.fatal, .midTree, .decValid] := by
  refine ⟨((decodeEmptied s).recordError (opcodeOf i) k info).respond (errCode k) 0#32, ?_, rfl, lastErrWord_toNat _ k,
    BitVec.toNat_ofNat _ _, by simp [hfatal], by simp, by simp, fun f hf => ?_⟩
  · rw [exec_eq_decodeRun hfatal htree hi hn, decodeRun, h, complete_raised, raise_eq]
  · obtain ⟨hne, hmid, hdec⟩ : f ≠ .fatal ∧ f ≠ .midTree ∧ f ≠ .decValid := by simpa using hf
    simp [hne, hmid, hdec]

/-- A decode that answered OK is one that completed. -/
theorem decoded_of_answered {t : State} (hi : bitsConsumed s i = some n) (h : exec i s = .next t)
    (hok : Answered s t 0#4 0#32) : ∃ out cur, decodeBits s n = .ok (out, cur) ∧ t = decoded s out cur := by
  have hclear : i ≠ .clear := by rintro rfl; cases hi
  rcases exec_answers hclear h hok with ⟨u, hs, -, rfl⟩ | ⟨k, info, u, -, -, hk, -⟩
  · cases hs with
    | decode hi' hbits =>
      obtain rfl := Option.some.inj (hi.symm.trans hi')
      exact ⟨_, _, hbits, rfl⟩
    | readOut _ hread => rcases isDecode_of_bitsConsumed hi with rfl | rfl | ⟨m, rfl⟩ <;> cases hread
    | _ => cases hi
  · exact absurd hk.symm (errCode_ne_zero k)

end Command

/-! ## DECODEL beside the other two -/

/-- The same error of two commands differs in the opcode byte of LASTERR only (10_state.md R35). -/
theorem sameButLastErr_raise (op op' : Byte) (k : ErrKind) (info : Nat) (s : State) :
    SameButLastErr (raise op k info s) (raise op' k info s) := rfl

theorem sameButLastErr_gated (op op' : Byte) (s : State) (f : Flag) {body body' : Result} (h : SameButLastErr body body') :
    SameButLastErr (unlessHalted op s (requireFlag op f s body)) (unlessHalted op' s (requireFlag op' f s body')) := by
  cases hfatal : s.flag .fatal with
  | true => simpa [hfatal] using sameButLastErr_raise op op' .halted 0 s
  | false =>
    cases hf : s.flag f with
    | true => simpa [hfatal, hf] using h
    | false => simpa [hfatal, hf] using sameButLastErr_raise op op' .seq 0 s

theorem sameButLastErr_decodeRun (op op' : Byte) (n : Nat) (s : State) :
    SameButLastErr (decodeRun op n s) (decodeRun op' n s) := by
  unfold decodeRun
  match decodeBits s n with
  | .ok _ => rfl
  | .error (.raised k info) => exact sameButLastErr_raise op op' k info (decodeEmptied s)
  | .error (.fault _) => rfl
end Sys2Proof.Machine

namespace Sys2Proof

open Sys2Proof.Machine Sys2Proof.Safety

/-- Settles O44: the bits split one by one, and the walk emits each code's symbol where the code ends. -/
theorem decodeWalksTheTree : Obligations.DecodeWalksTheTree := by
  unfold Obligations.DecodeWalksTheTree
  refine ⟨by decide, by decide, fun arena root bits htree hroot => htree.exists_split hroot bits, ?_⟩
  intro s i n bits codes rest xs c hfatal htree hroot hi hn hlen hbits hsplit hspells hrest hc hfits
  have hread := readBits_eq hn hlen hbits
  have hsymbols : decodeSymbols s.arena s.root bits = .ok (xs, c) :=
    hsplit ▸ decodeSymbols_of_spells hroot hspells hrest hc
  exact ⟨_, exec_decoded hfatal htree hi hn ((decodeBits_ok_iff hread).mpr ⟨hsymbols, hfits⟩), decoded_frame s xs c⟩

/-- Settles O45: 0 bits spell the Leaf's symbol each, and the first 1 bit ends the spelling before OUT_MAX is looked at. -/
theorem decodeUnderLeafRoot : Obligations.DecodeUnderLeafRoot := by
  unfold Obligations.DecodeUnderLeafRoot
  intro s i n sym f hfatal htree hroot hi hn
  refine ⟨fun hzeros hfits => ?_, fun k hk hone hzeros => ?_⟩
  · have hread := readBits_replicate_false hn hzeros
    have hbits := (decodeBits_ok_iff hread).mpr ⟨decodeSymbols_zeros hroot n, by simpa using hfits⟩
    obtain ⟨hframe, -, hflags⟩ := decoded_frame s (List.replicate n sym) s.root
    exact ⟨_, exec_decoded hfatal htree hi hn hbits, hframe, by simp, hflags⟩
  · obtain ⟨bits, hread, -, hbits⟩ := readBits_ok s.pmem 0 n (by omega)
    have hbad : leafBits sym bits = .error (.raised .badBit k) :=
      leafBits_badBit sym (by rw [hbits k hk, Nat.zero_add, hone])
        fun j hj => by rw [hbits j (hj.trans hk), Nat.zero_add, hzeros j hj]
    have hraised : decodeBits s n = .error (.raised .badBit k) := by
      rw [decodeBits_of_read hread, decodeSymbols_leaf hroot, hbad]
      rfl
    obtain ⟨t, hexec, hframe, hlast, hinfo, hfatal', hmid, hdec, hkept⟩ := exec_decode_raised hfatal htree hi hn hraised
    refine ⟨t, hexec, hframe, hlast, hinfo, hmid, hdec, fun g hg => ?_⟩
    by_cases hg' : g = .fatal
    · rw [hg', hfatal', hfatal]
      rfl
    · exact hkept g (by simpa [hg'] using hg)

/-- More symbols than OUT_MAX under either kind of root (43_tree_decoder.md R148). -/
theorem Machine.decodeAllocs_of_symbols {s : State} {i : Instr} {n : Nat} {bits : List Bool} {out : List Byte} {c : Idx}
    (hfatal : s.flag .fatal = false) (htree : s.flag .treeValid = true) (hi : bitsConsumed s i = some n)
    (hn : n ≤ 8 * s.pmem.length) (hread : readBits s.pmem 0 n = .ok bits)
    (hsymbols : decodeSymbols s.arena s.root bits = .ok (out, c)) (hlarge : s.capOut.toNat < out.length) :
    DecodeAllocs i s out.length :=
  exec_decode_raised hfatal htree hi hn (decodeBits_alloc hread hsymbols hlarge)

/-- Settles O46: the symbols are spelled as far as the bits go, and then counted. -/
theorem decodeBeyondCapacity : Obligations.DecodeBeyondCapacity := by
  unfold Obligations.DecodeBeyondCapacity
  constructor
  · intro s i n bits codes rest xs c hfatal htree hroot hi hn hlen hbits hsplit hspells hrest hc hlarge
    have hsymbols : decodeSymbols s.arena s.root bits = .ok (xs, c) :=
      hsplit ▸ decodeSymbols_of_spells hroot hspells hrest hc
    exact decodeAllocs_of_symbols hfatal htree hi hn (readBits_eq hn hlen hbits) hsymbols hlarge
  · intro s i n hfatal htree hleaf hi hn hzeros hlarge
    obtain ⟨sym, f, hroot⟩ := isLeafAt_iff.mp hleaf
    have hread := readBits_replicate_false hn hzeros
    simpa using decodeAllocs_of_symbols hfatal htree hi hn hread (decodeSymbols_zeros hroot n) (by simpa using hlarge)

/-- Settles O47: a decode spells at most one symbol for each bit of PMEM it reads. -/
theorem ampleOutputNeverAllocs : Obligations.AmpleOutputNeverAllocs := by
  unfold Obligations.AmpleOutputNeverAllocs
  intro i s t n r hi hample h hr hcode
  have hclear : i ≠ .clear := by rintro rfl; cases hi
  rcases exec_answers hclear h hr with ⟨u, -, hok, -⟩ | ⟨k, info, u, hu, -, hk, -⟩
  · cases hok.symm.trans hcode
  · obtain rfl : k = .alloc := errCode_injective (hk.symm.trans hcode)
    rcases hu with ⟨hrefusal, -⟩ | hstop
    · cases hrefusal
    · cases hstop with
      | decode _ hbits => exact absurd (capOut_lt_of_alloc hbits) (Nat.not_lt.mpr hample)
      | _ => cases hi

/-- Settles O48: the three commands share their gates and their decode, and only the error record names the command. -/
theorem decodelBoundsAndEqualities : Obligations.DecodelBoundsAndEqualities := by
  unfold Obligations.DecodelBoundsAndEqualities
  refine ⟨fun n => ?_, fun s n => ⟨fun hfatal htree hlarge => ?_, fun hn => ?_, fun hn hle => ?_⟩⟩
  · simp [encode_toNat, operandOf_toNat, opcodeOf, operandNat]
  · have hlimit : bitLimit s n = .error (.raised .range n.toNat) := if_neg (Nat.not_le.mpr hlarge)
    simp [exec, execDecodel, hfatal, htree, hlimit, opcodeOf]
  · rw [exec_decodel_of_le hn.le, hn]
    exact sameButLastErr_gated _ _ s .treeValid (sameButLastErr_decodeRun _ _ _ s)
  · rw [exec_decodel_of_le hle, hn]
    exact sameButLastErr_gated _ _ s .treeValid (sameButLastErr_decodeRun _ _ _ s)

end Sys2Proof

/-! SUPPORT. The packed form decoded back (43_tree_decoder.md R146, R147): a bit string of codes decodes to their symbols and ends at the root, zero
padding after it decodes to symbols of the all-zero code. -/

namespace Sys2Proof.Machine

open Sys2Proof.Safety

section Codes

variable {arena : List Node} {root : Idx}

/-- Codes alone decode to their symbols and end at the root. -/
theorem decodeSymbols_codes {codes : List (List Bool)} {xs : List Byte} (hroot : root.toNat < arena.length)
    (hcodes : CodesOf arena root codes xs) : decodeSymbols arena root codes.flatten = .ok (xs, root) := by
  simpa using decodeSymbols_split hroot hcodes (follow_nil arena root) id

/-- An encoder's bit string is the codes of its input (42_bit_encoder.md R131). -/
theorem codesOf_input {d : Dictionary} {input : List Byte} (hd : ∀ sym code, dictRead d sym = some code → IsCode arena root sym code)
    (hcoded : ∀ b ∈ input, (dictRead d b).isSome = true) :
    CodesOf arena root (input.map fun b => (dictRead d b).getD []) input := by
  rw [CodesOf, List.forall₂_map_left_iff, List.forall₂_same]
  intro b hb
  obtain ⟨code, hcode⟩ := Option.isSome_iff_exists.mp (hcoded b hb)
  rw [hcode]
  exact hd b code hcode

/-! ## The all-zero code -/

/-- The all-zero code is a code under either kind of root. -/
theorem isCode_of_zeroCode {z : Nat} {x : Byte} (h : ZeroCode arena root z x) : IsCode arena root x (List.replicate z false) := by
  rcases h with h | ⟨hleaf, rfl⟩
  · exact .inl h
  · exact .inr ⟨hleaf, rfl⟩

/-- A part of the all-zero code that is not the whole leads to an Internal, which is the root exactly when the part is empty. -/
theorem follow_zeros (h : TreeWf arena root) {z r : Nat} {x : Byte} (hz : ZeroCode arena root z x) (hr : r < z) :
    ∃ c, follow arena root (List.replicate r false) = some c ∧
      (isInternalAt arena root = true → isInternalAt arena c = true) ∧ (c ≠ root ↔ r ≠ 0) := by
  rcases hz with ⟨hroot, hx⟩ | ⟨hleaf, rfl⟩
  · obtain ⟨m, f, hm, hnode⟩ := leafOn_eq_some.mp hx
    have hsplit : List.replicate z false = List.replicate r false ++ List.replicate (z - r) false := by
      rw [← List.replicate_add, Nat.add_sub_cancel' hr.le]
    rw [hsplit, follow_append] at hm
    obtain ⟨c, hc, hrest⟩ := Option.bind_eq_some_iff.mp hm
    obtain ⟨k, hk⟩ := Nat.exists_eq_add_one_of_ne_zero (Nat.sub_ne_zero_of_lt hr)
    rw [hk, List.replicate_succ] at hrest
    obtain ⟨f', l, r', hnode', -⟩ := follow_cons_eq_some.mp hrest
    refine ⟨c, hc, fun _ => isInternalAt_iff.mpr ⟨f', l, r', hnode'⟩, not_congr ⟨?_, ?_⟩⟩
    · rintro rfl
      simpa using h.path_unique hc (follow_nil arena c)
    · rintro rfl
      exact (Option.some.inj hc).symm
  · obtain rfl : r = 0 := by omega
    exact ⟨root, rfl, id, by simp⟩

/-- 0 bits after the codes of a decode that ended at the root: as many symbols more as the all-zero code fits in, and the walk ends at the
root again exactly when nothing of them is left over (R146). -/
theorem decodeSymbols_append_zeros (h : TreeWf arena root) {z p : Nat} {x : Byte} {bits : List Bool} {out : List Byte}
    (hz : ZeroCode arena root z x) (hbits : decodeSymbols arena root bits = .ok (out, root)) :
    ∃ c, decodeSymbols arena root (bits ++ List.replicate p false) = .ok (out ++ List.replicate (p / z) x, c) ∧
      (c ≠ root ↔ p % z ≠ 0) := by
  have hcode := isCode_of_zeroCode hz
  have hpos : 1 ≤ z := by simpa using (h.isCode_length hcode).1
  obtain ⟨codes, rfl, hcodes⟩ := codes_of_decodeSymbols_root h hbits
  obtain ⟨c, hc, hinternal, hne⟩ := follow_zeros h hz (Nat.mod_lt p hpos)
  have hsplit : codes.flatten ++ List.replicate p false =
      (codes ++ List.replicate (p / z) (List.replicate z false)).flatten ++ List.replicate (p % z) false := by
    rw [List.flatten_append, List.flatten_replicate_replicate, List.append_assoc, ← List.replicate_add, Nat.div_add_mod']
  refine ⟨c, ?_, hne⟩
  rw [hsplit]
  exact decodeSymbols_split h.root_lt (List.rel_append hcodes (codesOf_replicate hcode _)) hc hinternal

end Codes

/-! ## The packed form -/

section Packed

variable {s : State}

/-- BIT_LEN counts bits of PMEM (10_state.md R29). -/
theorem bitLen_le_of_inv (hinv : Inv s) : s.bitLen.toNat ≤ 8 * s.pmem.length := by
  rw [hinv.pkLen, bytesFor]
  omega

/-- What DECODE reads after BIT_LEN bits of an encoder's output is the padding, which is 0 (R29). -/
theorem readBits_padded (hinv : Inv s) (henc : s.flag .encValid = true) {bits : List Bool}
    (hread : readBits s.pmem 0 s.bitLen.toNat = .ok bits) : readBits s.pmem 0 (8 * s.pmem.length) =
      .ok (bits ++ List.replicate (8 * s.pmem.length - s.bitLen.toNat) false) := by
  have hsum : s.bitLen.toNat + (8 * s.pmem.length - s.bitLen.toNat) = 8 * s.pmem.length :=
    Nat.add_sub_cancel' (bitLen_le_of_inv hinv)
  have := readBits_append_zeros hread hsum.le fun k hk hk' => hinv.padding henc k hk (hsum ▸ hk')
  rwa [hsum] at this

end Packed

/-- ENCODE, then the state its output is decoded in: the bits that are read are the codes of IMEM (R131, R132). -/
structure Encoded (s t : State) : Prop where
  completes : exec .encode s = .next t ∧ Answered s t 0#4 0#32
  fatal : t.flag .fatal = false
  treeValid : t.flag .treeValid = true
  encValid : t.flag .encValid = true
  tree : t.arena = s.arena ∧ t.root = s.root
  capOut : t.capOut = s.capOut
  inv : Inv t
  read : readBits t.pmem 0 t.bitLen.toNat = .ok (bitString s.dict s.imem)
  symbols : decodeSymbols t.arena t.root (bitString s.dict s.imem) = .ok (s.imem, t.root)

theorem exists_encoded {s : State} (hinv : Inv s) (hfatal : s.flag .fatal = false) (hdict : s.flag .dictValid = true)
    (hcoded : ∀ b ∈ s.imem, (dictRead s.dict b).isSome = true)
    (hfits : bytesFor (bitString s.dict s.imem).length ≤ s.capPk.toNat) : ∃ t, Encoded s t := by
  have hexec := execEncode_ok hfatal hdict (encodeBits_ok hcoded hfits)
  have htreeValid := hinv.dictNeedsTree hdict
  obtain ⟨-, -, hcodes, -⟩ := dictionaryIsAPrefixCode s hinv hdict
  have hlen : (BitVec.ofNat 24 (bitString s.dict s.imem).length).toNat = (bitString s.dict s.imem).length := by
    have := hinv.capPk
    rw [bytesFor] at hfits
    rw [BitVec.toNat_ofNat, Nat.mod_eq_of_lt (by omega)]
  exact ⟨_, {
    completes := ⟨hexec, rfl⟩
    fatal := by simpa [State.flag_eq] using hfatal
    treeValid := by simpa [State.flag_eq] using htreeValid
    encValid := by simp [State.flag_eq]
    tree := ⟨rfl, rfl⟩
    capOut := rfl
    inv := hinv.exec hexec
    read := by simpa [hlen] using readBits_pack (bitString s.dict s.imem)
    symbols := by
      rw [bitString_eq_flatten]
      exact decodeSymbols_codes (hinv.tree htreeValid).root_lt (codesOf_input (fun sym code => (hcodes sym code).mp) hcoded) }⟩

section Encoded

variable {s t : State}

/-- Decoding BIT_LEN bits gives IMEM back, by DECODEB or by DECODEL (R147). -/
theorem Encoded.decodes_back (h : Encoded s t) (hfits : s.imem.length ≤ s.capOut.toNat) {i : Instr}
    (hi : bitsConsumed t i = some t.bitLen.toNat) : exec i t = .next (decoded t s.imem t.root) :=
  exec_decoded h.fatal h.treeValid hi (bitLen_le_of_inv h.inv)
    ((decodeBits_ok_iff h.read).mpr ⟨h.symbols, h.capOut ▸ hfits⟩)

/-- DECODE gives IMEM back and ends at the root exactly when there is no padding: other bits would be other symbols (R146, R147). -/
theorem Encoded.decode_decodes_back_iff (h : Encoded s t) (hfits : s.imem.length ≤ s.capOut.toNat) :
    (∃ u, exec .decode t = .next u ∧ Answered t u 0#4 0#32 ∧ u.omem = s.imem ∧ u.flag .midTree = false) ↔
      t.bitLen.toNat % 8 = 0 := by
  have hpk := h.inv.pkLen
  rw [bytesFor] at hpk
  constructor
  · rintro ⟨u, hexec, hok, homem, hmid⟩
    obtain ⟨out, cur, hbits, rfl⟩ := decoded_of_answered (n := 8 * t.pmem.length) rfl hexec hok
    have hread := readBits_padded h.inv h.encValid h.read
    obtain ⟨hsymbols, -⟩ := (decodeBits_ok_iff hread).mp hbits
    obtain rfl : out = s.imem := homem
    obtain rfl : cur = t.root := by simpa using hmid
    have heq := congrArg List.length (decodeSymbols_injective (h.inv.tree h.treeValid) h.symbols hsymbols)
    rw [List.length_append, List.length_replicate] at heq
    omega
  · intro hbytes
    have hall : 8 * t.pmem.length = t.bitLen.toNat := by omega
    exact ⟨_, h.decodes_back hfits (congrArg some hall), rfl, rfl, by simp⟩

end Encoded
end Sys2Proof.Machine

namespace Sys2Proof

open Sys2Proof.Machine Sys2Proof.Safety

/-- Settles O49: the packed bits are the codes of IMEM, and both commands decode BIT_LEN of them. -/
theorem encodeDecodeRoundTrip : Obligations.EncodeDecodeRoundTrip := by
  unfold Obligations.EncodeDecodeRoundTrip
  intro s hinv hfatal hdict hcoded hfits hroom
  obtain ⟨t, h⟩ := exists_encoded hinv hfatal hdict hcoded hfits
  exact ⟨t, _, _, h.completes.1, h.completes.2, h.decodes_back hroom rfl, rfl, rfl, h.tree.2, by simp,
    h.decodes_back hroom rfl, rfl⟩

/-- Settles O50: DECODE reads DECODEB's bits, which end at the root, and the padding after them. -/
theorem paddingEmitsSpuriousSymbols : Obligations.PaddingEmitsSpuriousSymbols := by
  unfold Obligations.PaddingEmitsSpuriousSymbols
  intro s t z x hinv hfatal htree henc hz hexec hok hmid hfits
  obtain ⟨out, cur, hbits, rfl⟩ := decoded_of_answered (i := .decodeb) rfl hexec hok
  obtain rfl : cur = s.root := by simpa using hmid
  obtain ⟨bits, hread⟩ := exists_read_of_decodeBits hbits
  obtain ⟨hsymbols, -⟩ := (decodeBits_ok_iff hread).mp hbits
  obtain ⟨c, hall, hc⟩ := decodeSymbols_append_zeros (hinv.tree htree) (p := 8 * s.pmem.length - s.bitLen.toNat) hz hsymbols
  have hroom : (out ++ List.replicate ((8 * s.pmem.length - s.bitLen.toNat) / z) x).length ≤ s.capOut.toNat := by
    rwa [List.length_append, List.length_replicate]
  have hdecode := (decodeBits_ok_iff (readBits_padded hinv henc hread)).mpr ⟨hall, hroom⟩
  refine ⟨_, exec_decoded hfatal htree rfl le_rfl hdecode, rfl, rfl, ?_⟩
  rw [flag_midTree_decoded, decide_eq_decide]
  exact hc

/-- Settles O51: the dictionary just built codes its input, and what ENCODE packs with it decodes back. -/
theorem compressThenDecodeRoundTrip : Obligations.CompressThenDecodeRoundTrip := by
  unfold Obligations.CompressThenDecodeRoundTrip
  intro s hinv hfatal hne
  obtain ⟨s₁, s₂, s₃, h⟩ := exists_inputCoded hinv hfatal hne
  obtain ⟨hfreq, hanswer₁⟩ := h.freq
  obtain ⟨hbuild, hanswer₂⟩ := h.build
  obtain ⟨hgendict, hanswer₃⟩ := h.gendict
  refine ⟨s₁, s₂, s₃, hfreq, hanswer₁, hbuild, hanswer₂, hgendict, hanswer₃, h.imem, h.coded, fun hfits hroom => ?_⟩
  have hinv₃ : Inv s₃ := ((hinv.exec hfreq).exec hbuild).exec hgendict
  have hcaps : s₃.capPk = s.capPk ∧ s₃.capOut = s.capOut := by
    obtain ⟨-, hpk₁, hout₁⟩ := exec_caps hfreq
    obtain ⟨-, hpk₂, hout₂⟩ := exec_caps hbuild
    obtain ⟨-, hpk₃, hout₃⟩ := exec_caps hgendict
    exact ⟨by rw [hpk₃, hpk₂, hpk₁], by rw [hout₃, hout₂, hout₁]⟩
  rw [← h.imem, ← hcaps.1] at hfits
  rw [← h.imem, ← hcaps.2] at hroom
  obtain ⟨s₄, hs₄⟩ := exists_encoded hinv₃ h.fatal h.dictValid (h.imem ▸ h.coded) hfits
  rw [← h.imem]
  exact ⟨s₄, _, hs₄.completes.1, hs₄.completes.2, hs₄.decodes_back hroom rfl, rfl, rfl, by simp,
    hs₄.decode_decodes_back_iff hroom⟩

end Sys2Proof

/-! SUPPORT. What the control and data load commands do (44_host_commands.md, sections 1 and 2): the word of each, its refusal under FATAL,
and the state it answers. -/

namespace Sys2Proof

/-- A word of format N with an operand bit set is ILLEGAL (30_encoding.md R84(b)). -/
theorem formatN_of_operand_ne_zero {w : Word} (i : Instr) (h : w.toNat % 2 ^ 24 ≠ 0) : formatN w i = .illegal .mustBeZero := by
  have hfield : (w.extractLsb' 0 24 == 0#24) = false := by
    rw [slice_beq_zero, decide_eq_false_iff_not]
    omega
  rw [formatN, hfield]
  rfl

end Sys2Proof

namespace Sys2Proof.Machine

open Sys2Proof.Safety

/-! ## What a write leaves to read -/

theorem memRead_memAppend_length (m : List Byte) (b : Byte) : memRead (memAppend m b) m.length = some b := by
  rw [memRead_memAppend, if_pos rfl]

theorem memRead_memAppend_of_ne {m : List Byte} {a : Nat} (b : Byte) (h : a ≠ m.length) :
    memRead (memAppend m b) a = memRead m a := by
  rw [memRead_memAppend, if_neg h]

section PutFlag

variable {s t : State} {f : Flag} {b : Bool}

theorem flag_of_status_putFlag (h : t.status = putFlag s.status f b) : t.flag f = b := by
  rw [State.flag_eq, h, getFlag_putFlag, if_pos rfl]

theorem flagsKept_of_status_putFlag (h : t.status = putFlag s.status f b) : FlagsKept s t [f] := by
  intro g hg
  have hne : g ≠ f := by simpa using hg
  rw [State.flag_eq, h, getFlag_putFlag, if_neg hne, State.flag_eq]

end PutFlag

/-! ## The commands -/

/-- The FATAL gate stands first in every command it is part of (60_exceptions.md R205 step 2, R207). -/
theorem exec_of_fatal {i : Instr} {s : State} (hi : isGated i = true) (hf : s.flag .fatal = true) :
    exec i s = raise (opcodeOf i) .halted 0 s := by
  cases i with
  | inclr | inpush _ | pkclr | pkpush _ | freq | build | gendict | encode | decode | decodeb | decodel _ =>
    exact unlessHalted_of_fatal hf
  | nop | clear | rdreg _ | rdin _ | rdpk _ | rdout _ | rdfreq _ | rdnode _ _ | rddict _ _ | rdnc _ => cases hi

section Load

variable {s : State} (hf : s.flag .fatal = false)
include hf

theorem execInclr_ok : execInclr s = succeed 0#32 { s with imem := [] } := by
  rw [execInclr, unlessHalted_of_not_fatal hf]

theorem execInpush_ok (h : s.imem.length ≠ s.capIn.toNat) (b : Byte) :
    execInpush b s = succeed 0#32 { s with imem := memAppend s.imem b } := by
  rw [execInpush, unlessHalted_of_not_fatal hf, if_neg h]

theorem execPkclr_ok :
    execPkclr s = succeed 0#32 { s with pmem := [], bitLen := 0#24, status := putFlag s.status .encValid false } := by
  rw [execPkclr, unlessHalted_of_not_fatal hf]

theorem execPkpush_ok (h : s.pmem.length ≠ s.capPk.toNat) (b : Byte) :
    execPkpush b s = succeed 0#32 { s with
      pmem := memAppend s.pmem b
      bitLen := BitVec.ofNat 24 (8 * (s.pmem.length + 1))
      status := putFlag s.status .encValid false } := by
  rw [execPkpush, unlessHalted_of_not_fatal hf, if_neg h]

end Load

end Sys2Proof.Machine

namespace Sys2Proof

open Sys2Proof.Machine Sys2Proof.Safety

/-- Settles O17: NOP responds on the state it finds, and a word of its opcode other than 0 has an operand bit set. -/
theorem nopOnlyResponds : Obligations.NopOnlyResponds := by
  unfold Obligations.NopOnlyResponds
  refine ⟨fun s => rfl, rfl, fun w hopcode hne => ?_⟩
  have hop : opcodeField w = 0x00#8 := BitVec.eq_of_toNat_eq (by rw [opcodeField_toNat, hopcode]; rfl)
  have hw : w.toNat ≠ 0 := fun h => hne (BitVec.eq_of_toNat_eq h)
  have hoperand : w.toNat % 2 ^ 24 ≠ 0 := by omega
  rw [decode, hop]
  exact formatN_of_operand_ne_zero .nop hoperand

/-- Settles O18: the FATAL gate refuses INCLR or it empties IMEM. -/
theorem inclrEmptiesTheInput : Obligations.InclrEmptiesTheInput := by
  unfold Obligations.InclrEmptiesTheInput
  exact ⟨rfl, fun s => ⟨exec_of_fatal rfl, execInclr_ok⟩⟩

/-- Settles O19: past the FATAL gate INPUSH is refused at IN_MAX bytes and appends otherwise. -/
theorem inpushAppendsOneByte : Obligations.InpushAppendsOneByte := by
  unfold Obligations.InpushAppendsOneByte
  refine ⟨fun b => ?_, fun s b => exec_of_fatal rfl, fun s b hf => ⟨fun hroom => ?_, fun hfull => ?_⟩⟩
  · simp [encode_toNat, operandOf_toNat, opcodeOf, operandNat]
  · exact ⟨_, execInpush_ok hf hroom b, rfl, memAppend_length s.imem b, memRead_memAppend_length s.imem b,
      fun a => memRead_memAppend_of_ne b, rfl⟩
  · exact execInpush_of_full hf hfull b

/-- Settles O20: past the FATAL gate PKCLR empties the packed form, and ENC_VALID is the one flag it writes. -/
theorem pkclrEmptiesThePackedForm : Obligations.PkclrEmptiesThePackedForm := by
  unfold Obligations.PkclrEmptiesThePackedForm
  refine ⟨rfl, fun s => exec_of_fatal rfl, fun s hf => ?_⟩
  exact ⟨_, execPkclr_ok hf, rfl, flag_of_status_putFlag rfl, flagsKept_of_status_putFlag (b := false) rfl, rfl⟩

/-- Settles O21: past the FATAL gate PKPUSH is refused at PK_MAX bytes and appends otherwise, BIT_LEN kept to its 24 bits. -/
theorem pkpushAppendsOneByte : Obligations.PkpushAppendsOneByte := by
  unfold Obligations.PkpushAppendsOneByte
  refine ⟨fun b => ?_, fun s b => exec_of_fatal rfl, fun s b hf => ⟨fun hroom => ?_, fun hfull => ?_⟩⟩
  · simp [encode_toNat, operandOf_toNat, opcodeOf, operandNat]
  · exact ⟨_, execPkpush_ok hf hroom b, rfl, memAppend_length s.pmem b, memRead_memAppend_length s.pmem b,
      fun a => memRead_memAppend_of_ne b, BitVec.toNat_ofNat .., flag_of_status_putFlag rfl,
      flagsKept_of_status_putFlag (b := false) rfl, rfl⟩
  · exact execPkpush_of_full hf hfull b

end Sys2Proof

/-! SUPPORT. The error record bit by bit (60_exceptions.md R201), the codes of the commands that no prerequisite can refuse (R205, R207), and
the state each kind of failure leaves (R206). -/

namespace Sys2Proof.Machine

open Sys2Proof.Safety

/-! ## Failing -/

theorem errFatal_eq (k : ErrKind) : errFatal k = decide (k = .alloc ∨ k = .empty) := by cases k <;> rfl

section Failure

variable {s u : State} {written : List Flag}

theorem flag_fatal_recordError (s : State) (op : Byte) (k : ErrKind) (info : Nat) :
    (s.recordError op k info).flag .fatal = (s.flag .fatal || errFatal k) := by
  cases h : errFatal k <;> simp [h]

/-- Of the flags, a failure writes FATAL only (R201). -/
theorem flagsKept_failure {op : Byte} {k : ErrKind} {info : Nat} {code : BitVec 4} {data : Word} (hu : FlagsKept s u written)
    (hfatal : .fatal ∈ written) : FlagsKept s ((u.recordError op k info).respond code data) written := by
  intro f hf
  have hne : f ≠ .fatal := fun e => hf (e ▸ hfatal)
  simp [hne, hu f hf]

end Failure

/-! ## The gates -/

/-- One response that no gate gives: OK, RANGE or ILLEGAL. -/
def AnswersPastGates (s : State) (result : Result) : Prop :=
  ∃ t r, result = .next t ∧ t.responses = s.responses ++ [r] ∧ r.code ∈ [0#4, 9#4, 10#4]

section Gates

variable {s : State} {i : Instr}

theorem answersPastGates_succeed {u : State} (hu : u.responses = s.responses) (data : Word) :
    AnswersPastGates s (succeed data u) :=
  ⟨_, _, rfl, congrArg (· ++ _) hu, by simp⟩

theorem answersPastGates_range (op : Byte) (info : Nat) : AnswersPastGates s (raise op .range info s) :=
  ⟨_, _, rfl, rfl, by simp [errCode]⟩

theorem answersPastGates_readOut (op : Byte) (index : Nat) (datum : Option Word) :
    AnswersPastGates s (readOut op index datum s) := by
  rcases readOut_cases (datum := datum) rfl with ⟨d, -, e⟩ | ⟨-, e⟩ <;> rw [e]
  · exact answersPastGates_succeed rfl d
  · exact answersPastGates_range op index

theorem answersPastGates_selector {ok : Bool} {body : Result} (w : Word) (h : AnswersPastGates s body) :
    AnswersPastGates s (if ok then body else rejectIllegal w s) := by
  split
  · exact h
  · exact ⟨_, _, rfl, rfl, by simp [errCode]⟩

theorem answersPastGates_unlessHalted {body : Result} (op : Byte) (hfatal : s.flag .fatal = false)
    (h : AnswersPastGates s body) : AnswersPastGates s (unlessHalted op s body) := by
  rwa [unlessHalted_of_not_fatal hfatal]

/-- A command that requires no flag answers OK, RANGE or ILLEGAL once FATAL lets it run. -/
theorem exec_answersPastGates (hflag : requiredFlag i = none) (hgate : isGated i = true → s.flag .fatal = false) :
    AnswersPastGates s (exec i s) := by
  cases i with
  | nop | clear | rdfreq _ => exact answersPastGates_succeed rfl _
  | inclr | pkclr | freq => exact answersPastGates_unlessHalted _ (hgate rfl) (answersPastGates_succeed rfl _)
  | inpush _ | pkpush _ =>
    refine answersPastGates_unlessHalted _ (hgate rfl) ?_
    split
    · exact answersPastGates_range _ _
    · exact answersPastGates_succeed rfl _
  | rdreg _ | rdin _ | rdpk _ | rdout _ | rdnc _ => exact answersPastGates_readOut _ _ _
  | rdnode _ _ => exact answersPastGates_selector _ (answersPastGates_readOut _ _ _)
  | rddict _ _ => exact answersPastGates_selector _ (answersPastGates_succeed rfl _)
  | build | gendict | encode | decode | decodeb | decodel _ => cases hflag

/-- A flag is required only of commands that FATAL gates (R207, 70_reset_and_hazards.md R233). -/
theorem requiredFlag_of_not_gated (h : isGated i = false) : requiredFlag i = none := by
  cases i with
  | nop | clear | rdreg _ | rdin _ | rdpk _ | rdout _ | rdfreq _ | rdnode _ _ | rddict _ _ | rdnc _ => rfl
  | inclr | inpush _ | pkclr | pkpush _ | freq | build | gendict | encode | decode | decodeb | decodel _ => cases h

/-- The gate of the required flag stands second, before any check of the operand (R205 step 3). -/
theorem exec_of_flag_clear {f : Flag} (hi : requiredFlag i = some f) (hfatal : s.flag .fatal = false) (hf : s.flag f = false) :
    exec i s = raise (opcodeOf i) .seq 0 s := by
  cases i with
  | build | gendict | encode | decode | decodeb | decodel _ =>
    obtain rfl := Option.some.inj hi
    exact (unlessHalted_of_not_fatal hfatal).trans (requireFlag_of_clear hf)
  | nop | clear | inclr | inpush _ | pkclr | pkpush _ | freq | rdreg _ | rdin _ | rdpk _ | rdout _ | rdfreq _ | rdnode _ _
  | rddict _ _ | rdnc _ => cases hi

end Gates

/-! ## What a failure leaves -/

/-- What the answer `t` with the code `code` keeps of `s` (R206). -/
structure FailureLeaves (i : Instr) (s t : State) (code : BitVec 4) : Prop where
  /-- A refusal writes the error record only. -/
  refusal : code ∈ [7#4, 8#4, 9#4, 10#4] →
    t = { s with err := t.err, lastErr := t.lastErr, eInfo := t.eInfo, responses := t.responses }
  /-- EMPTY leaves the state as BUILD cleared it. -/
  empty : code = 2#4 → i = .build ∧ FlagsKept s t [.treeValid, .dictValid, .leafRoot, .fatal] ∧
    t.flag .treeValid = false ∧ t.flag .dictValid = false ∧ t.flag .leafRoot = false ∧ t.flag .fatal = true ∧
    t = { s with
      arena := [], nc := [], root := 511#9, status := t.status, err := t.err, lastErr := t.lastErr, eInfo := t.eInfo
      responses := t.responses }
  /-- NOCODE and ENCODE's ALLOC empty the packed form. -/
  packed : code = 5#4 ∨ (code = 1#4 ∧ i = .encode) → i = .encode ∧ FlagsKept s t [.encValid, .fatal] ∧
    t.flag .encValid = false ∧ t.flag .fatal = decide (code = 1#4) ∧
    t = { s with
      pmem := [], bitLen := 0#24, status := t.status, err := t.err, lastErr := t.lastErr, eInfo := t.eInfo
      responses := t.responses }
  /-- BADBIT and a decode's ALLOC empty the output. -/
  output : code = 6#4 ∨ (code = 1#4 ∧ i ≠ .encode) → IsDecode i ∧ FlagsKept s t [.decValid, .midTree, .fatal] ∧
    t.flag .decValid = false ∧ t.flag .midTree = false ∧ t.flag .fatal = decide (code = 1#4) ∧
    t = { s with
      omem := [], decCur := s.root, status := t.status, err := t.err, lastErr := t.lastErr, eInfo := t.eInfo
      responses := t.responses }

section Leaves

variable {s : State} {i : Instr} {k : ErrKind} {op : Byte} {info : Nat} {data : Word}

theorem failureLeaves_ok (t : State) : FailureLeaves i s t 0#4 := by constructor <;> simp

theorem failureLeaves_refusal (hk : isRefusal k = true) :
    FailureLeaves i s ((s.recordError op k info).respond (errCode k) data) (errCode k) := by
  have hkinds : k = .seq ∨ k = .halted ∨ k = .range ∨ k = .illegal := by simpa [isRefusal] using hk
  rcases hkinds with rfl | rfl | rfl | rfl <;> exact
    ⟨fun _ => rfl, by simp [errCode], by simp [errCode], by simp [errCode]⟩

theorem failureLeaves_buildCleared : FailureLeaves .build s
    (((buildCleared s).recordError op .empty info).respond (errCode .empty) data) (errCode .empty) where
  refusal := by simp [errCode]
  empty _ := ⟨rfl, flagsKept_failure (fun f hf => by simp_all) (by simp), by simp, by simp, by simp, by simp [errFatal], rfl⟩
  packed := by simp [errCode]
  output := by simp [errCode]

theorem failureLeaves_encodeEmptied (hk : k = .noCode ∨ k = .alloc) (hfatal : s.flag .fatal = false) : FailureLeaves .encode s
    (((encodeEmptied s).recordError op k info).respond (errCode k) data) (errCode k) where
  refusal := by rcases hk with rfl | rfl <;> simp [errCode]
  empty := by rcases hk with rfl | rfl <;> simp [errCode]
  packed _ := ⟨rfl, flagsKept_failure (fun f hf => by simp_all) (by simp), by simp,
    by rcases hk with rfl | rfl <;> simp [hfatal, errFatal, errCode], rfl⟩
  output := by rcases hk with rfl | rfl <;> simp [errCode]

theorem failureLeaves_decodeEmptied (hi : IsDecode i) (hk : k = .badBit ∨ k = .alloc) (hfatal : s.flag .fatal = false) :
    FailureLeaves i s (((decodeEmptied s).recordError op k info).respond (errCode k) data) (errCode k) where
  refusal := by rcases hk with rfl | rfl <;> simp [errCode]
  empty := by rcases hk with rfl | rfl <;> simp [errCode]
  packed := by rcases hi with rfl | rfl | ⟨m, rfl⟩ <;> rcases hk with rfl | rfl <;> simp [errCode]
  output _ := ⟨hi, flagsKept_failure (fun f hf => by simp_all) (by simp), by simp, by simp,
    by rcases hk with rfl | rfl <;> simp [hfatal, errFatal, errCode], rfl⟩

theorem Stops.failureLeaves {u : State} (h : Stops s i (.raised k info) u) (hfatal : s.flag .fatal = false) :
    FailureLeaves i s ((u.recordError op k info).respond (errCode k) data) (errCode k) := by
  cases h with
  | gendict hd => exact nomatch raisesOnly_dictOf (kinds := []) _ _ _ _ hd
  | build hb =>
    obtain rfl : k = .empty := by simpa using raisesOnly_buildTree _ _ _ hb
    exact failureLeaves_buildCleared
  | encode he => exact failureLeaves_encodeEmptied (by simpa using raisesOnly_encodeBits _ _ _ _ _ he) hfatal
  | decode hn hd =>
    exact failureLeaves_decodeEmptied (isDecode_of_bitsConsumed hn) (by simpa using raisesOnly_decodeBits _ _ _ _ hd) hfatal

/-- A command with a helper is gated (R205). -/
theorem Stops.isGated {e : Stop} {u : State} (h : Stops s i e u) : isGated i = true := by
  cases h with
  | decode hn => rcases isDecode_of_bitsConsumed hn with rfl | rfl | ⟨m, rfl⟩ <;> rfl
  | _ => rfl

end Leaves

end Sys2Proof.Machine

namespace Sys2Proof

open Sys2Proof.Machine Sys2Proof.Safety

/-- Settles O10: the record's four fields, each read back after the write. -/
theorem raiseRecordsTheError : Obligations.RaiseRecordsTheError := by
  unfold Obligations.RaiseRecordsTheError
  refine ⟨rfl, fun op k info s => ⟨_, raise_eq op k info s, rfl, fun j => getLsbD_setErrBit s.err k j, lastErrWord_toNat op k,
    BitVec.toNat_ofNat .., flagsKept_failure (fun _ _ => rfl) (by simp), ?_, rfl⟩⟩
  rw [State.flag_respond, flag_fatal_recordError, errFatal_eq]

/-- Settles O11: the FATAL gate refuses the gated commands, and the others require no flag, so that OK, RANGE and ILLEGAL are their codes. -/
theorem fatalGate : Obligations.FatalGate := by
  unfold Obligations.FatalGate
  refine fun i s hfatal => ⟨fun hi => exec_of_fatal hi hfatal, fun hi => ?_⟩
  obtain ⟨t, r, h, hr, hcode⟩ := exec_answersPastGates (s := s) (requiredFlag_of_not_gated hi) (by simp [hi])
  exact ⟨t, r, h, hr, by intro h8; simp [h8] at hcode⟩

/-- Settles O13: the second gate refuses a command whose flag is 0, and SEQ is no code of a command that requires none. -/
theorem missingArtefactIsSeq : Obligations.MissingArtefactIsSeq := by
  unfold Obligations.MissingArtefactIsSeq
  refine fun i s hfatal => ⟨fun f hi hf => exec_of_flag_clear hi hfatal hf, fun hi => ?_⟩
  obtain ⟨t, r, h, hr, hcode⟩ := exec_answersPastGates (s := s) hi fun _ => hfatal
  exact ⟨t, r, h, hr, by intro h7; simp [h7] at hcode⟩

/-- Settles O15: an OK answer is no failure, a refusal is recorded on the state before it, and a helper's error, whose command FATAL would have
kept from running, on the state that command leaves on failure. -/
theorem failedCommandsLeaveTheirState : Obligations.FailedCommandsLeaveTheirState := by
  unfold Obligations.FailedCommandsLeaveTheirState
  intro i s t r h hr
  suffices hleaves : FailureLeaves i s t r.code from ⟨hleaves.refusal, hleaves.empty, hleaves.packed, hleaves.output⟩
  by_cases hi : i = .clear
  · subst hi
    cases h
    obtain rfl := respond_response (u := s.toReset) rfl hr
    exact failureLeaves_ok _
  rcases exec_next_cases hi h with ⟨d, u, -, hs, rfl⟩ | ⟨k, info, u, ⟨hk, rfl⟩ | ⟨⟨hgate, -⟩, hs⟩, rfl⟩
  · obtain rfl := respond_response hs.keepsTheRest.responses hr
    exact failureLeaves_ok _
  · obtain rfl := respond_response (u := u.recordError (opcodeOf i) k info) rfl hr
    exact failureLeaves_refusal hk
  · obtain rfl := respond_response (u := u.recordError (opcodeOf i) k info) hs.keepsTheRest.responses hr
    exact hs.failureLeaves (hgate hs.isGated)

end Sys2Proof

/-! SUPPORT. The commands make no internal read out of range in a state of the invariant (00_scope.md R9): no helper faults where the gates of R205
let its command run, and DECODEL is refused above its bound before its helper runs (60_exceptions.md R205, 43_tree_decoder.md R144). -/

namespace Sys2Proof.Machine

open Sys2Proof.Safety

/-! ## The helpers -/

/-- A helper that answers or raises an error of the spec. -/
def NeverFaults {α : Type} (x : Except Stop α) : Prop := ∀ f, x ≠ .error (.fault f)

theorem neverFaults_ok {α : Type} (a : α) : NeverFaults (.ok a) := nofun

theorem neverFaults_raised {α : Type} (k : ErrKind) (info : Nat) : NeverFaults (.error (.raised k info) : Except Stop α) := nofun

theorem neverFaults_buildTree (t : FreqTable) : NeverFaults (buildTree t) := by
  rcases buildTree_cases t with h | ⟨b, root, nd, h, -⟩ <;> rw [h]
  · exact neverFaults_raised _ _
  · exact neverFaults_ok _

theorem neverFaults_encodeBits (d : Dictionary) (input : List Byte) (pkMax : Nat) : NeverFaults (encodeBits d input pkMax) := by
  rcases encodeBits_cases d input pkMax with ⟨b, i, -, h⟩ | ⟨-, -, h⟩ | ⟨-, -, h⟩ <;> rw [h]
  · exact neverFaults_raised _ _
  · exact neverFaults_ok _
  · exact neverFaults_raised _ _

theorem neverFaults_fitOutput (outMax : Nat) (spelled : List Byte × Idx) : NeverFaults (fitOutput outMax spelled) := by
  rcases fitOutput_cases outMax spelled with ⟨-, h⟩ | ⟨-, h⟩ <;> rw [h]
  · exact neverFaults_ok _
  · exact neverFaults_raised _ _

theorem NeverFaults.bind {α β : Type} {x : Except Stop α} {g : α → Except Stop β} (hx : NeverFaults x) (hg : ∀ a, NeverFaults (g a)) :
    NeverFaults (x >>= g) := by
  cases x with
  | ok a => exact hg a
  | error e => rintro f ⟨⟩; exact hx f rfl

/-! ## How a command faults -/

section Command

variable {s : State} {i : Instr}

theorem exec_ne_refused (s : State) (i : Instr) (r : Refusal) : exec i s ≠ .refused r := by
  by_cases hi : i = .clear
  · rw [hi, exec_clear]
    nofun
  · intro h
    have hends := exec_ends s hi
    rw [h] at hends
    cases hends

/-- A command faults only past its gates and in its helper. -/
theorem exec_fault {f : Fault} (h : exec i s = .fault f) : Admitted i s ∧ ∃ u, Stops s i (.fault f) u := by
  by_cases hi : i = .clear
  · rw [hi, exec_clear] at h
    cases h
  · have hends := exec_ends s hi
    rw [h] at hends
    cases hends with
    | fault ha hstop => exact ⟨ha, _, hstop⟩

theorem Admitted.gates_of_isDecode (ha : Admitted i s) (hi : IsDecode i) : s.flag .fatal = false ∧ s.flag .treeValid = true := by
  rcases hi with rfl | rfl | ⟨m, rfl⟩ <;> exact ⟨ha.1 rfl, ha.2 .treeValid rfl⟩

/-- A decode that faults would consume bits of PMEM only: DECODEL above its bound is RANGE (R144). -/
theorem bitsConsumed_le_of_fault {n : Nat} {f : Fault} (hinv : Inv s) (ha : Admitted i s) (hi : bitsConsumed s i = some n)
    (h : exec i s = .fault f) : n ≤ 8 * s.pmem.length := by
  obtain ⟨hfatal, htree⟩ := ha.gates_of_isDecode (isDecode_of_bitsConsumed hi)
  rcases isDecode_of_bitsConsumed hi with rfl | rfl | ⟨m, rfl⟩ <;> obtain rfl := Option.some.inj hi
  · exact le_rfl
  · exact bitLen_le_of_inv hinv
  · by_contra hlarge
    obtain ⟨hrange, -⟩ := decodelBoundsAndEqualities.2 s m
    exact raise_ne_fault _ _ _ s f ((hrange hfatal htree (Nat.not_le.mp hlarge)).symm.trans h)

end Command
end Sys2Proof.Machine

namespace Sys2Proof.Safety

open Sys2Proof.Machine

/-! ## The helpers on a well-formed tree -/

section Tree

variable {arena : List Node} {root : Idx}

/-- GENDICT's walk stays in a well-formed tree and is no deeper than it (10_state.md R24(b)). -/
theorem TreeWf.neverFaults_dictOf (h : TreeWf arena root) : NeverFaults (dictOf arena root) := by
  obtain ⟨d, hd, -⟩ := h.dictOf_ok
  rw [hd]
  exact neverFaults_ok d

/-- Any bits spell symbols in a well-formed tree, or are BADBIT under a Leaf root (43_tree_decoder.md R141, R145). -/
theorem TreeWf.neverFaults_decodeSymbols (h : TreeWf arena root) (bits : List Bool) : NeverFaults (decodeSymbols arena root bits) := by
  rcases h.root_cases with ⟨sym, f, hroot⟩ | ⟨f, l, r, hroot⟩
  · rw [decodeSymbols_leaf hroot]
    rcases leafBits_cases sym bits with ⟨-, hbits⟩ | ⟨k, -, hbits⟩ <;> rw [hbits]
    · exact neverFaults_ok _
    · exact neverFaults_raised _ _
  · have hinternal : isInternalAt arena root = true := isInternalAt_iff.mpr ⟨f, l, r, hroot⟩
    obtain ⟨codes, rest, xs, c, rfl, hspells, hrest, hc, -⟩ := h.exists_split hinternal bits
    rw [decodeSymbols_of_spells hinternal hspells hrest hc]
    exact neverFaults_ok _

/-- A decode of no more bits than PMEM has (R140). -/
theorem TreeWf.neverFaults_decodeBits {s : State} {n : Nat} (h : TreeWf s.arena s.root) (hn : n ≤ 8 * s.pmem.length) :
    NeverFaults (decodeBits s n) := by
  obtain ⟨bits, hread, -⟩ := readBits_ok s.pmem 0 n (by omega)
  rw [decodeBits_of_read hread]
  exact (h.neverFaults_decodeSymbols bits).bind (neverFaults_fitOutput _)

end Tree

/-! ## The commands -/

section Invariant

variable {s : State}

/-- A command whose helper runs reads what exists: a tree where its flag says so, and bits of PMEM only (R9). -/
theorem Inv.exec_ne_fault (hinv : Inv s) (i : Instr) (f : Fault) : Machine.exec i s ≠ .fault f := by
  intro h
  obtain ⟨ha, u, hstop⟩ := exec_fault h
  cases hstop with
  | build hb => exact neverFaults_buildTree _ f hb
  | encode he => exact neverFaults_encodeBits _ _ _ f he
  | gendict hd => exact (hinv.tree (ha.2 .treeValid rfl)).neverFaults_dictOf f hd
  | decode hi hd =>
    have htree := (ha.gates_of_isDecode (isDecode_of_bitsConsumed hi)).2
    exact (hinv.tree htree).neverFaults_decodeBits (bitsConsumed_le_of_fault hinv ha hi h) f hd

/-- Every command answers in a state of the invariant. -/
theorem Inv.exec_next (hinv : Inv s) (i : Instr) : ∃ t, Machine.exec i s = .next t := by
  cases h : Machine.exec i s with
  | next t => exact ⟨t, rfl⟩
  | fault f => exact absurd h (hinv.exec_ne_fault i f)
  | refused r => exact absurd h (exec_ne_refused s i r)

end Invariant
end Sys2Proof.Safety

/-! SUPPORT. What BUILD leaves downstream of the tree (70_reset_and_hazards.md R236, R243), and the reset state (10_state.md R40). -/

namespace Sys2Proof.Machine

open Sys2Proof.Safety

/-! ## BUILD -/

/-- The dictionary is valid no longer, but its entries, the input and its table, the packed form, the output and their flags are as before
(R236, R243). -/
structure KeepsDownstream (s t : State) : Prop where
  dictValid : t.flag .dictValid = false
  spaces : t.dict = s.dict ∧ t.pmem = s.pmem ∧ t.bitLen = s.bitLen ∧ t.omem = s.omem ∧ t.decCur = s.decCur ∧ t.ft = s.ft ∧
    t.imem = s.imem
  flags : FlagsKept s t [.treeValid, .dictValid, .leafRoot, .fatal]

theorem keepsDownstream_built (s : State) (b : Builder) (root : Idx) (leafRoot : Bool) (data : Word) :
    KeepsDownstream s (State.respond { buildCleared s with
      arena := b.arena, nc := b.nc, root := root
      status := putFlag (putFlag (buildCleared s).status .leafRoot leafRoot) .treeValid true } 0#4 data) where
  dictValid := by simp [State.flag_eq]
  spaces := ⟨rfl, rfl, rfl, rfl, rfl, rfl, rfl⟩
  flags f hf := by simp_all [State.flag_eq]

theorem keepsDownstream_raised (s : State) (op : Byte) (k : ErrKind) (info : Nat) :
    KeepsDownstream s (((buildCleared s).recordError op k info).respond (errCode k) 0#32) where
  dictValid := by simp
  spaces := ⟨rfl, rfl, rfl, rfl, rfl, rfl, rfl⟩
  flags := flagsKept_failure (fun f hf => by simp_all) (by simp)

/-- BUILD past its gates, its helper stopped by an error (40_tree_builder.md R108). -/
theorem execBuild_raised {s : State} {k : ErrKind} {info : Nat} (hfatal : s.flag .fatal = false) (hft : s.flag .ftValid = true)
    (h : buildTree s.ft = .error (.raised k info)) : exec .build s = raise (opcodeOf .build) k info (buildCleared s) := by
  rw [exec, execBuild, unlessHalted_of_not_fatal hfatal, requireFlag_of_set hft, h, complete_raised]

theorem keepsDownstream_of_build {s t : State} (hfatal : s.flag .fatal = false) (hft : s.flag .ftValid = true)
    (h : exec .build s = .next t) : KeepsDownstream s t := by
  rcases buildTree_cases s.ft with hb | ⟨b, root, nd, hb, -⟩
  · obtain rfl := raise_next ((execBuild_raised hfatal hft hb).symm.trans h)
    exact keepsDownstream_raised s _ _ _
  · cases (execBuild_ok hfatal hft hb).symm.trans h
    exact keepsDownstream_built s b root _ _

/-! ## Reset -/

/-- Reset leaves the reset state of a core with the same capacities (10_state.md R40). -/
theorem toReset_eq_resetWith (s : State) : s.toReset = { State.resetWith ⟨s.capIn.toNat, s.capPk.toNat, s.capOut.toNat⟩ with
    pending := s.pending, responses := s.responses } := by
  simp [State.toReset, State.reset, State.resetWith]

end Sys2Proof.Machine

namespace Sys2Proof

open Sys2Proof.Machine Sys2Proof.Safety

/-- Settles O56: no move, a reset and an ILLEGAL word answer in every state, and a command answers in every state of the invariant. -/
theorem stepNeverStops : Obligations.StepNeverStops := by
  unfold Obligations.StepNeverStops
  intro s hinv
  rcases step_cases s with ⟨-, hstep⟩ | ⟨a, rest, -, hstep⟩ | ⟨w, rest, -, ⟨c, -, hstep⟩ | ⟨i, -, hstep⟩⟩ <;> rw [hstep]
  · exact ⟨s, rfl⟩
  · exact ⟨_, rfl⟩
  · exact ⟨_, raise_eq ..⟩
  · exact (hinv.withHost rest s.responses).exec_next i

/-- Settles O36: BUILD's tree and its EMPTY both leave the state as BUILD cleared it but for the tree and the error record. -/
theorem buildInvalidatesTheDictionary : Obligations.BuildInvalidatesTheDictionary := by
  unfold Obligations.BuildInvalidatesTheDictionary
  intro s t hfatal hft h
  obtain ⟨hdictValid, ⟨hdict, hpmem, hbitLen, homem, hdecCur, hftKept, himem⟩, hflags⟩ := keepsDownstream_of_build hfatal hft h
  exact ⟨hdictValid, hdict, hpmem, hbitLen, homem, hdecCur, hftKept, himem, hflags,
    fun hfatal' => exec_of_flag_clear (i := .encode) rfl hfatal' hdictValid⟩

/-- Settles O6: the step's arms for no move and for a reset, whatever the reset abandons. -/
theorem idleAndResetMoves : Obligations.IdleAndResetMoves := by
  unfold Obligations.IdleAndResetMoves
  refine ⟨fun s hidle => by rw [step, hidle], fun s a rest hreset => ?_⟩
  rw [step, hreset, toReset_eq_resetWith]

/-- Settles O9: CLEAR passes no gate, resets and responds. -/
theorem clearIsReset : Obligations.ClearIsReset := by
  unfold Obligations.ClearIsReset
  refine ⟨by decide, fun s => ?_⟩
  rw [exec_clear, toReset_eq_resetWith, State.respond]

end Sys2Proof
